-- ==== Sys2Proof/Word.lean ====
section
/-! DEFINITION. The word types of the block: 64-bit registers and memory words, 8-bit bytes
(00_scope.md R7, R11; 20_memory.md R60). -/

namespace Sys2Proof

/-- A 64-bit register or memory word (00_scope.md R7, word width and address width). -/
abbrev Word := BitVec 64

/-- One byte of memory or of an entry. -/
abbrev Byte := BitVec 8

end Sys2Proof
end

