-- ==== Sys2Proof/Machine/Bits.lean ====
section
/-! DEFINITION. Bit-field and byte-order helpers (00_scope.md R11; 20_memory.md R61). -/

namespace Sys2Proof.Machine

/-- Byte j of a word in little-endian order: bits 8j+7 down to 8j (20_memory.md R61). -/
def byteOf (w : Word) (j : Nat) : Byte := w.extractLsb' (8 * j) 8

/-- The word whose byte j is `f j` (20_memory.md R61). -/
def wordOf (f : Nat → Byte) : Word :=
  f 7 ++ f 6 ++ f 5 ++ f 4 ++ f 3 ++ f 2 ++ f 1 ++ f 0

/-- A word as its eight bytes, the lowest address first. -/
def bytesOf (w : Word) : List Byte := (List.range 8).map (byteOf w)

/-- One bit from a flag. -/
def bit (b : Bool) : BitVec 1 := BitVec.ofBool b

/-- 2^64, the number of byte addresses (00_scope.md R7, address width). -/
def addressSpace : Nat := 2 ^ 64

end Sys2Proof.Machine
end

