-- ==== Sys2Proof/Config.lean ====
section
/-! DEFINITION. What an implementation or a platform fixes: the synthesis parameters, the platform's
answers as plain data, and the free values the spec leaves open (constants with no body). -/

namespace Sys2Proof

/-- The synthesis parameters and the window's address (00_scope.md R6, R7). They stand in State as
plain data that no step changes, so that a statement about every state covers every legal LINE,
K_REGEN and MMIO_BASE. NCTX is the number of contexts State holds. DESIGN CHOICE, log 4. -/
structure Params where
  /-- log2 of LINE, the slot size in bytes: 3..12 -/
  lineLog2 : Nat
  /-- K_REGEN, the constant of the seed perturbation -/
  kRegen : Word
  /-- MMIO_BASE, the platform address of the register window, a multiple of 4096 -/
  mmioBase : Word
  deriving DecidableEq, Repr

/-- LINE = 64 and the default K_REGEN (00_scope.md R7). K_REGEN's default is the spec's
"from general knowledge"; MMIO_BASE is OPEN and 0 is a DESIGN CHOICE, log 4. -/
def Params.default : Params where
  lineLog2 := 6
  kRegen := 0x9E3779B97F4A7C15#64
  mmioBase := 0#64

/-- The two lanes of one 128-bit hash (40_probe_datapath.md R110). -/
structure Lane where
  low : Word
  high : Word
  deriving DecidableEq, Repr

/-- One known answer of the hash unit: hash128 of this seed and byte string is this pair. -/
structure HashCase where
  seed : Word
  data : List Byte
  lane : Lane
  deriving DecidableEq, Repr

/-- A set of hash requests the hash unit answers with an error; an absent field matches any value. -/
structure HashFault where
  seed : Option Word
  ptr : Option Word
  len : Option (BitVec 32)
  deriving DecidableEq, Repr

/-- Addresses from lo up to, not including, hi. -/
structure Range where
  lo : Nat
  hi : Nat
  deriving DecidableEq, Repr

/-- The platform's answers as plain data (00_scope.md R9, R10; 20_memory.md R68). Any Boolean on the
64-bit addresses is some list of ranges, so MemOK is as free as the spec leaves it. DESIGN CHOICE,
log 5, log 6, log 17. -/
structure Platform where
  /-- known answers of hash128, the first that matches counts; every other answer is Config.hash128 -/
  hashes : List HashCase
  /-- the hash requests with HashOK false -/
  hashErrs : List HashFault
  /-- the addresses with MemOK false -/
  busErrs : List Range
  /-- regions with side effects, which are not normal memory (20_memory.md R68) -/
  devices : List Range
  deriving DecidableEq, Repr

/-- A platform with no known hash answer, no failing transaction and no region with side effects. -/
def Platform.plain : Platform := ⟨[], [], [], []⟩

/-- hash128 (00_scope.md R9): some total function of seed and byte string. FREE VALUE, log 5. -/
opaque Config.hash128 : Word → List Byte → Word × Word

/-- The memory's contents at power-up, unspecified (10_state.md R44). FREE VALUE, log 7. -/
opaque Config.powerUpByte : Nat → Byte

/-- The bytes the hash unit sees where no host has stored one. FREE VALUE, log 8. -/
opaque Config.entryByte : Nat → Byte

/-- The constant the ID register reads (10_state.md R24). -/
def Config.id : Word := 0x0000000145504246#64

/-- PMAX, the largest legal probe count (00_scope.md R7). -/
def Config.pmax : Nat := 255

end Sys2Proof
end

