-- ==== Sys2Proof/Syntax.lean ====
section
/-! DEFINITION. The commands (30_encoding.md R91), the host's register accesses (R93) and the inputs
that say which agent takes the next step. -/

namespace Sys2Proof

/-- The block's instructions: one constructor per row of spec/opcode_table.json. A command word has
no operand field (30_encoding.md R90, R92): the context is given by the register's address and the
operands are registers, so the constructors have no arguments. -/
inductive Instr where
  | add    -- ADD, 30_encoding.md R91, 41_commands.md R147
  | query  -- QUERY, 30_encoding.md R91, 41_commands.md R149
  | clear  -- CLEAR, 30_encoding.md R91, 41_commands.md R152
  deriving DecidableEq, Repr

/-- Whether a host access reads or writes, with the data of a write (30_encoding.md R93). -/
inductive AccessKind where
  | read
  | write (v : Word)
  deriving DecidableEq, Repr

/-- A host access on the slave port: a platform address, a width in bytes, and its kind
(30_encoding.md R93, 42_register_access.md R170). -/
structure Access where
  addr : Word
  width : Nat
  kind : AccessKind
  deriving DecidableEq, Repr

/-- The registers of the window, by what an offset names (10_state.md R23). -/
inductive Reg where
  | id | param | regenK | ctrl | gstatus | base | slots | probes | seed
  | cmd (c : Nat) | status (c : Nat) | result (c : Nat) | entryPtr (c : Nat) | entryLen (c : Nat)
  | reserved
  deriving DecidableEq, Repr

/-- One step's worth of the outside world: which agent acts, and the draws the spec leaves open
(41_commands.md R142; 20_memory.md R72; 70_reset_and_hazards.md R231). DESIGN CHOICE, log 2. -/
inductive Input where
  /-- host h makes a register access (42_register_access.md) -/
  | access (h : Nat) (a : Access)
  /-- context c takes its next step; lag is the draw of a load (20_memory.md R72), log 12 -/
  | sequencer (c lag : Nat)
  /-- reset is asserted; performed lists the contexts (with the draw of a load) whose outstanding
      memory transaction the memory still performs (70_reset_and_hazards.md R231) -/
  | assertReset (performed : List (Nat × Nat))
  /-- reset is released (70_reset_and_hazards.md R230) -/
  | releaseReset
  /-- host h stores v to the memory word with this index, past the block (20_memory.md R79), log 15 -/
  | hostStore (h : Nat) (index : BitVec 61) (v : Word)
  /-- host h loads this many bytes of memory from addr up, past the block (20_memory.md R62, R79, R244);
      lags are the draws of the words it reaches, the lowest first, log 15 -/
  | hostLoad (h : Nat) (addr : Word) (width : Nat) (lags : List Nat)
  /-- a host stores one entry byte in the hash unit's address space (20_memory.md R80), log 8 -/
  | entryStore (addr : Word) (b : Byte)
  /-- the hosts' own synchronisation orders what host src has seen before what host dst does next
      (20_memory.md R73 item 3), log 14 -/
  | sync (src dst : Nat)
  /-- from now on these are the failing transactions of the two ports (00_scope.md R9, R10), log 6 -/
  | portFaults (busErrs : List Range) (hashErrs : List HashFault)
  deriving DecidableEq, Repr

end Sys2Proof
end

