-- ==== Sys2Proof/WellFormed.lean ====
section
/-! DEFINITION. The checks on what the outside gives the block: the synthesis parameters
(00_scope.md R6, R7), a command word's reserved bits and opcode (30_encoding.md R94) and a register
access (42_register_access.md R170). -/

namespace Sys2Proof

/-- LINE is a power of two in 8..4096 and the window is aligned to 4096 (00_scope.md R6; 10_state.md R23). -/
def Params.wf (p : Params) : Bool :=
  decide (3 ≤ p.lineLog2) && decide (p.lineLog2 ≤ 12) && decide (p.mmioBase.toNat % 4096 = 0)

/-- NCTX is in 1..16 (00_scope.md R7). -/
def nctxWf (n : Nat) : Bool := decide (1 ≤ n) && decide (n ≤ 16)

/-- The opcode of a command word, bits 3..0 (30_encoding.md R90). -/
def wordOp (v : Word) : BitVec 4 := v.extractLsb' 0 4

/-- A command word is legal when bits 63..4 are zero and the opcode is 1, 2 or 3 (30_encoding.md R94). -/
def wordWf (v : Word) : Bool :=
  (v.extractLsb' 4 60 == 0#60) && (wordOp v == 1#4 || wordOp v == 2#4 || wordOp v == 3#4)

/-- A command has no operand field (30_encoding.md R92), so every term of Instr is well-formed. -/
def Instr.wf : Instr → Bool
  | .add => true
  | .query => true
  | .clear => true

/-- A host access is legal when it is 8 bytes wide, 8-byte aligned and inside the 4096-byte window
(42_register_access.md R170). -/
def Access.legal (a : Access) (p : Params) : Bool :=
  decide (a.width = 8) && decide (a.addr.toNat % 8 = 0) &&
    decide (p.mmioBase.toNat ≤ a.addr.toNat) && decide (a.addr.toNat < p.mmioBase.toNat + 4096)

/-- A register name that exists among n contexts (10_state.md R23). -/
def Reg.wf (n : Nat) : Reg → Bool
  | .cmd c => decide (c < n)
  | .status c => decide (c < n)
  | .result c => decide (c < n)
  | .entryPtr c => decide (c < n)
  | .entryLen c => decide (c < n)
  | .reserved => false
  | .id => true
  | .param => true
  | .regenK => true
  | .ctrl => true
  | .gstatus => true
  | .base => true
  | .slots => true
  | .probes => true
  | .seed => true

end Sys2Proof
end

