-- ==== Sys2Proof/Decode.lean ====
section
/-! DEFINITION. The decoder of command words, total on every word and on every byte string, rejecting
by name, the encoder (30_encoding.md R90 to R95), and the register map (10_state.md R23) in both
directions. -/

namespace Sys2Proof

/-- Why a command word is illegal (30_encoding.md R94). -/
inductive DecodeError where
  /-- bits 63..4 are not zero -/
  | reservedBits
  /-- the opcode is 0 or 4..15 -/
  | reservedOp
  /-- fewer than eight bytes -/
  | truncated
  deriving DecidableEq, Repr

/-- The opcode map of field OP (30_encoding.md R91). -/
def decodeOp (op : BitVec 4) : Option Instr :=
  if op = 1#4 then some .add
  else if op = 2#4 then some .query
  else if op = 3#4 then some .clear
  else none

/-- The decode of a 64-bit command word (30_encoding.md R95). -/
def decodeWord (v : Word) : Except DecodeError Instr :=
  if v.extractLsb' 4 60 ≠ 0#60 then .error .reservedBits
  else match decodeOp (wordOp v) with
    | some i => .ok i
    | none => .error .reservedOp

/-- The decode of a byte string: the first eight bytes, little-endian (20_memory.md R62), are the
word, the rest is handed back. -/
def decodeBytes (bs : List Byte) : Except DecodeError (Instr × List Byte) :=
  if bs.length < 8 then .error .truncated
  else match decodeWord (Machine.wordOf fun j => bs.getD j 0#8) with
    | .ok i => .ok (i, bs.drop 8)
    | .error e => .error e

/-- The opcode of a command (30_encoding.md R91). -/
def Instr.opcode : Instr → BitVec 4
  | .add => 1#4
  | .query => 2#4
  | .clear => 3#4

/-- The command word: RSVD = 0 in bits 63..4, OP in bits 3..0 (30_encoding.md R90). -/
def encode (i : Instr) : Word := 0#60 ++ i.opcode

/-- The command word as the eight bytes of the write, the lowest address first. -/
def encodeBytes (i : Instr) : List Byte := Machine.bytesOf (encode i)

/-- What the decoder reads from a row of spec/opcode_table.json whose bits are w: the word's bytes in
the order the port carries them, given to the decoder. A command word has 64 bits, so a word with
more is none. -/
def decodeTableWord (nbits w : Nat) : Option Instr :=
  if w % 2 ^ nbits < 2 ^ 64 then
    match decodeBytes (Machine.bytesOf (BitVec.ofNat 64 (w % 2 ^ nbits))) with
    | .ok (i, _) => some i
    | .error _ => none
  else none

/-- The register a window offset names, with n contexts (10_state.md R23). -/
def regAt (n off : Nat) : Reg :=
  if off < 0x100 then
    if off = 0x000 then .id
    else if off = 0x008 then .param
    else if off = 0x010 then .regenK
    else if off = 0x018 then .ctrl
    else if off = 0x020 then .gstatus
    else if off = 0x028 then .base
    else if off = 0x030 then .slots
    else if off = 0x038 then .probes
    else if off = 0x040 then .seed
    else .reserved
  else
    let c := (off - 0x100) / 0x40
    let f := (off - 0x100) % 0x40
    if n ≤ c then .reserved
    else if f = 0x00 then .cmd c
    else if f = 0x08 then .status c
    else if f = 0x10 then .result c
    else if f = 0x18 then .entryPtr c
    else if f = 0x20 then .entryLen c
    else .reserved

/-- The offset of a register from MMIO_BASE (10_state.md R23); a reserved location has no one offset. -/
def regOffset : Reg → Option Nat
  | .id => some 0x000
  | .param => some 0x008
  | .regenK => some 0x010
  | .ctrl => some 0x018
  | .gstatus => some 0x020
  | .base => some 0x028
  | .slots => some 0x030
  | .probes => some 0x038
  | .seed => some 0x040
  | .cmd c => some (0x100 + 0x40 * c)
  | .status c => some (0x100 + 0x40 * c + 0x08)
  | .result c => some (0x100 + 0x40 * c + 0x10)
  | .entryPtr c => some (0x100 + 0x40 * c + 0x18)
  | .entryLen c => some (0x100 + 0x40 * c + 0x20)
  | .reserved => none

end Sys2Proof
end

