-- ==== Sys2Proof/Machine/Derived.lean ====
section
/-! DEFINITION. The constants derived from LINE (00_scope.md R6, R7) and the number of hashes
(40_probe_datapath.md R111). -/

namespace Sys2Proof

/-- LINE, the slot size in bytes. -/
def Params.line (p : Params) : Nat := 2 ^ p.lineLog2

/-- SB = 8 * LINE, the slot bit count. -/
def Params.sb (p : Params) : Nat := 8 * p.line

/-- LOG = log2(SB), the offset window width in bits. -/
def Params.log (p : Params) : Nat := p.lineLog2 + 3

/-- WPS = LINE / 8, the number of words per slot. -/
def Params.wps (p : Params) : Nat := p.line / 8

/-- W_H = floor(64 / LOG), the windows taken from a high lane. -/
def Params.wH (p : Params) : Nat := 64 / p.log

/-- W_L = floor(64 / LOG), the windows taken from a recycled low lane. -/
def Params.wL (p : Params) : Nat := 64 / p.log

/-- ceil(a / b) for b at least 1 (00_scope.md R11). -/
def ceilDiv (a b : Nat) : Nat := (a + (b - 1)) / b

/-- NH(P), the number of hashes a command with probe count P needs (40_probe_datapath.md R111). -/
def Params.nh (p : Params) (P : Nat) : Nat :=
  if P ≤ 1 + p.wH then 1 else 1 + ceilDiv (P - 1 - p.wH) (p.wH + p.wL)

/-- NHMAX = NH(PMAX), the number of lane pairs a context holds (10_state.md R33). -/
def Params.nhMax (p : Params) : Nat := p.nh Config.pmax

end Sys2Proof
end

