-- ==== Sys2Proof/Machine/State.lean ====
section
/-! DEFINITION. The machine's state as plain data, its reset value, and the reasons a step can stop. -/

namespace Sys2Proof.Machine

/-- STATUS.STATE (10_state.md R35): 0 IDLE, 1 BUSY, 2 DONE, 3 ERROR. -/
inductive CtxState where
  | idle | busy | done | error
  deriving DecidableEq, Repr

/-- STATUS.ERRCODE (60_exceptions.md R200): codes 0..5; codes 6..15 are never produced, so the type
has no name for them. -/
inductive ErrCode where
  | none | illegalOp | disabled | conflict | hashErr | busErr
  deriving DecidableEq, Repr

/-- h.phase (10_state.md R33). -/
inductive Phase where
  | none | hash | probe | clear
  deriving DecidableEq, Repr

/-- The hidden state of a context (10_state.md R33). The counters are numbers; that they fit the
spec's widths is part of State.Inv (Safety.lean). -/
structure Hidden where
  phase : Phase
  /-- h.op, and STATUS.OP mirrors it: stored once, log 20 -/
  op : BitVec 4
  /-- h.nh, 6 bits -/
  nh : Nat
  /-- h.r, 6 bits -/
  r : Nat
  /-- h.low[r] and h.high[r] for r < NHMAX -/
  lanes : List Lane
  /-- h.slot, 64 bits -/
  slot : Nat
  /-- h.i, 8 bits -/
  i : Nat
  /-- h.k, 64 bits -/
  k : Nat
  deriving DecidableEq, Repr

/-- What the consistency rules need to know of a context's command (20_memory.md R72, R73): its
number, the commands and host stores whose events happen-before its next event (itself among them), what
happens-before the context's next event if this command performs none, the coherence positions it has
read in this command, newest first, and whether it has performed an event, log 24. No register: hardware
reset leaves it, log 13, log 19. -/
structure Hb where
  id : Nat
  known : List Nat
  past : List Nat
  seen : List (Nat × Nat)
  acted : Bool
  deriving DecidableEq, Repr

/-- One context (10_state.md R33 to R38). -/
structure Ctx where
  state : CtxState
  overrun : Bool
  errcode : ErrCode
  member : Bool
  probesDone : BitVec 8
  entryPtr : Word
  entryLen : BitVec 32
  h : Hidden
  hb : Hb
  deriving DecidableEq, Repr

/-- The hidden state after hardware reset (10_state.md R33). The fields the spec leaves unspecified
are zero: DESIGN CHOICE, log 10. -/
def Hidden.reset (p : Params) : Hidden where
  phase := .none
  op := 0#4
  nh := 0
  r := 0
  lanes := List.replicate p.nhMax ⟨0#64, 0#64⟩
  slot := 0
  i := 0
  k := 0

/-- A context after hardware reset (10_state.md R43); no command before its next is known of. -/
def Ctx.reset (p : Params) : Ctx where
  state := .idle
  overrun := false
  errcode := .none
  member := false
  probesDone := 0#8
  entryPtr := 0#64
  entryLen := 0#32
  h := Hidden.reset p
  hb := ⟨0, [], [], [], false⟩

/-- Memory as address and byte pairs, addresses strictly rising. An address that is not listed has no
byte here: what a transaction reads there is the free value Config.powerUpByte. log 7. -/
abbrev Memory := List Host.Cell

/-- One write of a word's coherence order (20_memory.md R71): the value it replaced and the command
or host store it belongs to. State.writes lists them newest first, log 11. -/
structure WriteRec where
  addr : Nat
  old : Word
  id : Nat
  deriving DecidableEq, Repr

/-- One performed port transaction (20_memory.md R71; 00_scope.md R13). State.history lists them
newest first, log 24. -/
inductive PortEvent where
  | hashReq (c : Nat) (seed ptr : Word) (len : BitVec 32) (lane : Lane)
  | read (c addr : Nat) (rval : Word)
  | amoOr (c addr : Nat) (wval rval : Word)
  | write (c addr : Nat) (wval : Word)
  deriving DecidableEq, Repr

/-- The last response the host got, of the slave port or of its own memory access, log 21. -/
inductive HostResp where
  | none
  | ok
  | data (v : Word)
  | bytes (bs : List Byte)
  | error
  | noAnswer
  deriving DecidableEq, Repr

/-- Which atomic step of its command exec performs (41_commands.md R140 to R151): the issue by host h
in context c, or the next step of context c with the draw of a load. DESIGN CHOICE, log 1. -/
inductive Turn where
  | issue (h c : Nat)
  | advance (c lag : Nat)
  deriving DecidableEq, Repr

/-- The whole machine. -/
structure State where
  /-- synthesis parameters and MMIO_BASE; no step changes them -/
  params : Params
  /-- the platform's answers; only Input.portFaults changes them -/
  platform : Platform
  /-- CTRL.EN -/
  en : Bool
  /-- GSTATUS.CFG_ERR -/
  cfgErr : Bool
  /-- GSTATUS.LOCK_VIOL -/
  lockViol : Bool
  /-- BASE -/
  base : Word
  /-- SLOTS.COUNT -/
  slots : Word
  /-- PROBES.P -/
  probes : BitVec 8
  /-- SEED -/
  seed : Word
  /-- the contexts; NCTX is their number -/
  ctxs : List Ctx
  /-- the reset input is asserted -/
  inReset : Bool
  /-- the memory -/
  mem : Memory
  /-- the entry bytes the hash unit sees -/
  entries : Memory
  /-- the coherence order of every word, newest write first -/
  writes : List WriteRec
  /-- the words of memory that have been zeroed and since then only written by ADDs: the word's address,
      and the number of the host store that zeroed it, or none for a CLEAR (70_reset_and_hazards.md R235,
      R236), log 9 -/
  cleared : List (Nat × Option Nat)
  /-- the performed port transactions, newest first -/
  history : List PortEvent
  /-- (host, command or store): the host has seen it ended -/
  observed : List (Nat × Nat)
  /-- the number the next command or host store gets -/
  nextId : Nat
  /-- the host's last response -/
  hostResp : HostResp
  /-- the step exec performs -/
  turn : Turn
  /-- the pending inputs, next first -/
  inputs : List Input
  deriving DecidableEq, Repr

/-- Why the machine stops. Both are safe: they stop states that break 10_state.md R22, which no run
from a state with State.Inv reaches. -/
inductive Fault where
  /-- A memory step's address lies past the 64-bit address space, where no word is. Raised by a
  memory step of ADD, QUERY or CLEAR; safe, log 18. -/
  | addressSpace
  /-- The slot selector divides by SLOTS = 0. Raised by the last hash step of ADD or QUERY; safe,
  log 18. -/
  | slotsZero
  deriving DecidableEq, Repr

/-- Why the model gives a step no meaning. All are safe: the model stops where the hardware goes on. -/
inductive Refusal where
  /-- the instruction has no meaning in this model yet; no instruction of this model is so -/
  | notModelled (mnemonic : String)
  /-- The bit array, or the bytes of a host's own memory access, meet the register window (20_memory.md
  R69: "a model should refuse such a configuration"). Raised by the issue and the memory steps of ADD,
  QUERY and CLEAR, by Input.hostStore and Input.hostLoad; safe, log 17. -/
  | windowOverlap
  /-- They meet a region with side effects (20_memory.md R68: "a model should refuse such a
  configuration"). Raised as windowOverlap is; safe, log 17. -/
  | sideEffectMemory
  /-- An ADD or QUERY is issued on a bit array that neither a CLEAR nor its host has zeroed
  (70_reset_and_hazards.md R236; 93_implementation_defined.md U8: `refuse`). Raised by the issue of ADD
  and QUERY; safe, log 9. -/
  | notCleared
  /-- A host stores into the bit array while CTRL.EN = 1 (20_memory.md R79). Raised by
  Input.hostStore; safe, log 15. -/
  | otherWriter
  /-- A host changes an entry byte of a BUSY ADD or QUERY (20_memory.md R80). Raised by
  Input.entryStore; safe, log 16. -/
  | entryChanged
  deriving DecidableEq, Repr

/-- What a step answers. -/
abbrev Result := Host.Outcome State Fault Refusal

/-- The machine after hardware reset at power-up (10_state.md R43, R44; 70_reset_and_hazards.md R230). -/
def State.reset : State where
  params := Params.default
  platform := Platform.plain
  en := false
  cfgErr := false
  lockViol := false
  base := 0#64
  slots := 0#64
  probes := 0#8
  seed := 0#64
  ctxs := List.replicate 4 (Ctx.reset Params.default)
  inReset := false
  mem := []
  entries := []
  writes := []
  cleared := []
  history := []
  observed := []
  nextId := 1
  hostResp := .none
  turn := .issue 0 0
  inputs := []

end Sys2Proof.Machine
end

