-- ==== Sys2Proof/Machine/Operands.lean ====
section
/-! DEFINITION. The operands of the commands: the entry and its hashes, and the probe datapath that
turns hash lanes into word addresses and one-bit masks (30_encoding.md R92; 40_probe_datapath.md). -/

namespace Sys2Proof.Machine

/-! ## The datapath, pure functions of their arguments -/

/-- seed_r = (SEED + r * K_REGEN) mod 2^64 (40_probe_datapath.md R112). -/
def seedAt (p : Params) (seed : Word) (r : Nat) : Word :=
  BitVec.ofNat 64 (seed.toNat + r * p.kRegen.toNat)

/-- The slot index S = (low_0 / SB) mod SLOTS (40_probe_datapath.md R113). -/
def slotIndex (p : Params) (low0 : Word) (slots : Nat) : Nat := low0.toNat / p.sb % slots

/-- win(x, k) = (x >> (LOG*k)) mod SB (40_probe_datapath.md R115). -/
def win (p : Params) (x : Word) (k : Nat) : Nat := x.toNat / 2 ^ (p.log * k) % p.sb

/-- offset(i), the bit offset within the slot of probe i (40_probe_datapath.md R115). -/
def offset (p : Params) (lanes : Nat → Lane) (i : Nat) : Nat :=
  if i = 0 then win p (lanes 0).low 0
  else if i ≤ p.wH then win p (lanes 0).high (i - 1)
  else
    let j := i - 1 - p.wH
    let r := 1 + j / (p.wH + p.wL)
    let k := j % (p.wH + p.wL)
    if k < p.wH then win p (lanes r).high k else win p (lanes r).low (k - p.wH)

/-- SA = BASE + S * LINE, exact (40_probe_datapath.md R114). -/
def slotBase (p : Params) (base : Word) (slot : Nat) : Nat := base.toNat + slot * p.line

/-- addr = SA + 8 * (b / 64) for bit offset b (40_probe_datapath.md R118, R120). -/
def wordAddr (p : Params) (base : Word) (slot b : Nat) : Nat := slotBase p base slot + 8 * (b / 64)

/-- mask = 1 << (b mod 64) for bit offset b (40_probe_datapath.md R118, R119). -/
def mask (b : Nat) : Word := 1#64 <<< (b % 64)

/-- The whole datapath as one function of its arguments: the list of (address, mask) of an entry
(40_probe_datapath.md R124). -/
def probeList (p : Params) (hash : Word → List Byte → Lane) (seed : Word) (P : Nat) (slots : Nat)
    (base : Word) (entry : List Byte) : List (Nat × Word) :=
  let lanes := fun r => hash (seedAt p seed r) entry
  let slot := slotIndex p (lanes 0).low slots
  (List.range P).map fun i =>
    (wordAddr p base slot (offset p lanes i), mask (offset p lanes i))

/-! ## Operands read from the state -/

/-- Context c; a context that does not exist reads as one after reset and takes no step. -/
def State.ctx (s : State) (c : Nat) : Ctx := s.ctxs.getD c (Ctx.reset s.params)

/-- NCTX, the number of contexts (00_scope.md R7), log 20. -/
def State.nctx (s : State) : Nat := s.ctxs.length

/-- The byte stored at an address, if one is listed. -/
def Memory.lookup : Memory → Nat → Option Byte
  | [], _ => none
  | (a, b) :: m, x => if a = x then some b else Memory.lookup m x

/-- The entry byte the hash unit sees at an address, log 8. -/
def State.entryByte (s : State) (a : Nat) : Byte :=
  (Memory.lookup s.entries a).getD (Config.entryByte a)

/-- bytes(ptr, len), the entry E (00_scope.md R13; 40_probe_datapath.md R110). -/
def State.entry (s : State) (ptr : Word) (len : BitVec 32) : List Byte :=
  (List.range len.toNat).map fun j => s.entryByte (ptr.toNat + j)

/-- hash128(seed, data): a known answer of the platform, else the free function (00_scope.md R9), log 5. -/
def State.hash128 (s : State) (seed : Word) (data : List Byte) : Lane :=
  match s.platform.hashes.find? fun k => k.seed == seed && k.data == data with
  | some k => k.lane
  | none => ⟨(Config.hash128 seed data).1, (Config.hash128 seed data).2⟩

/-- Whether this set of failing requests holds the request. -/
def HashFault.covers (f : HashFault) (seed ptr : Word) (len : BitVec 32) : Bool :=
  f.seed.all (· == seed) && f.ptr.all (· == ptr) && f.len.all (· == len)

/-- HashOK(seed, ptr, len) (00_scope.md R9), log 6. -/
def State.hashOK (s : State) (seed ptr : Word) (len : BitVec 32) : Bool :=
  !(s.platform.hashErrs.any fun f => HashFault.covers f seed ptr len)

/-- Whether an address lies in a range. -/
def Range.holds (r : Range) (a : Nat) : Bool := decide (r.lo ≤ a) && decide (a < r.hi)

/-- MemOK(addr) (00_scope.md R10), log 6. -/
def State.memOK (s : State) (a : Nat) : Bool := !(s.platform.busErrs.any fun r => Range.holds r a)

/-- Whether the n bytes from a up have one in common with these addresses. -/
def Range.meets (r : Range) (a n : Nat) : Bool := decide (max r.lo a < min r.hi (a + n))

/-- The register window's addresses (10_state.md R23). -/
def State.window (s : State) : Range := ⟨s.params.mmioBase.toNat, s.params.mmioBase.toNat + 4096⟩

/-- Why the n bytes from a up are no normal memory, if so: they meet the register window (20_memory.md
R69) or a region with side effects (R68), log 17. -/
def State.refuses (s : State) (a n : Nat) : Option Refusal :=
  if Range.meets s.window a n then some .windowOverlap
  else if s.platform.devices.any fun r => Range.meets r a n then some .sideEffectMemory
  else none

/-- The lanes context c holds (10_state.md R33). -/
def Ctx.lane (x : Ctx) (r : Nat) : Lane := x.h.lanes.getD r ⟨0#64, 0#64⟩

/-- The bit offset of probe i of context c (41_commands.md R145). -/
def State.probeOffset (s : State) (c i : Nat) : Nat := offset s.params (s.ctx c).lane i

/-- The word address of probe i of context c (41_commands.md R145). -/
def State.probeAddr (s : State) (c i : Nat) : Nat :=
  wordAddr s.params s.base (s.ctx c).h.slot (s.probeOffset c i)

/-- The mask of probe i of context c (41_commands.md R145). -/
def State.probeMask (s : State) (c i : Nat) : Word := mask (s.probeOffset c i)

/-- The address of word k of the bit array, BASE + 8*k (41_commands.md R151). -/
def State.clearAddr (s : State) (k : Nat) : Nat := s.base.toNat + 8 * k

/-- SLOTS * WPS, the number of words of the bit array (41_commands.md R152). -/
def State.arrayWords (s : State) : Nat := s.slots.toNat * s.params.wps

/-- SLOTS * LINE, the size of the bit array in bytes (20_memory.md R60). -/
def State.arrayBytes (s : State) : Nat := s.slots.toNat * s.params.line

/-- Why a model refuses the configuration, if it does: the whole bit array must be normal memory
(20_memory.md R68, R69), log 17. -/
def State.placement (s : State) : Option Refusal := s.refuses s.base.toNat s.arrayBytes

/-- Whether the predicate holds of every number below n. -/
def allBelow (p : Nat → Bool) : Nat → Bool
  | 0 => true
  | n + 1 => p n && allBelow p n

/-- The word at a has been zeroed, by a CLEAR or by a host store that happens-before the command which
knows of these, and since then only ADDs wrote it (70_reset_and_hazards.md R235, R236), log 9. -/
def State.wordCleared (s : State) (known : List Nat) (a : Nat) : Bool :=
  match s.cleared.find? fun e => e.1 == a with
  | some (_, none) => true
  | some (_, some id) => known.contains id
  | none => false

/-- Every word of the bit array has been zeroed, log 9. -/
def State.arrayCleared (s : State) (known : List Nat) : Bool :=
  allBelow (fun k => s.wordCleared known (s.clearAddr k)) s.arrayWords

/-- Whether an address lies in the bit array [BASE, BASE + SLOTS*LINE) (20_memory.md R60). -/
def State.inArray (s : State) (a : Nat) : Bool :=
  decide (s.base.toNat ≤ a) && decide (a < s.base.toNat + s.arrayBytes)

end Sys2Proof.Machine
end

