-- ==== Sys2Proof/Machine/Flags.lean ====
section
/-! DEFINITION. The status flags and the register values made of them (10_state.md R24 to R28, R35,
R36, R39; 60_exceptions.md R200). -/

namespace Sys2Proof.Machine

/-- STATE's code (10_state.md R35). -/
def CtxState.code : CtxState → BitVec 2
  | .idle => 0#2
  | .busy => 1#2
  | .done => 2#2
  | .error => 3#2

/-- ERRCODE's code (60_exceptions.md R200). -/
def ErrCode.code : ErrCode → BitVec 4
  | .none => 0#4
  | .illegalOp => 1#4
  | .disabled => 2#4
  | .conflict => 3#4
  | .hashErr => 4#4
  | .busErr => 5#4

/-- STATUS.STATE = BUSY. -/
def Ctx.busy (x : Ctx) : Bool := x.state == .busy

/-- BUSY with a CLEAR (10_state.md R28, CLEAR_ACTIVE; 41_commands.md R140). -/
def Ctx.clearing (x : Ctx) : Bool := x.busy && x.h.op == 3#4

/-- GSTATUS.ANY_BUSY (10_state.md R28). -/
def State.anyBusy (s : State) : Bool := s.ctxs.any Ctx.busy

/-- GSTATUS.CLEAR_ACTIVE (10_state.md R28). -/
def State.clearActive (s : State) : Bool := s.ctxs.any Ctx.clearing

/-- Some context other than c is BUSY (41_commands.md R140). -/
def State.otherBusy (s : State) (c : Nat) : Bool :=
  (List.range s.nctx).any fun c2 => c2 != c && (s.ctx c2).busy

/-- PARAM (10_state.md R25). -/
def State.paramWord (s : State) : Word :=
  0#24 ++ BitVec.ofNat 8 Config.pmax ++ BitVec.ofNat 8 s.params.wL ++ BitVec.ofNat 8 s.params.wH ++
    BitVec.ofNat 8 s.nctx ++ BitVec.ofNat 8 s.params.lineLog2

/-- CTRL (10_state.md R27). -/
def State.ctrlWord (s : State) : Word := 0#63 ++ bit s.en

/-- GSTATUS (10_state.md R28). -/
def State.gstatusWord (s : State) : Word :=
  0#59 ++ bit s.clearActive ++ bit s.anyBusy ++ bit s.lockViol ++ bit s.cfgErr ++ bit s.en

/-- PROBES (10_state.md R31). -/
def State.probesWord (s : State) : Word := 0#56 ++ s.probes

/-- STATUS (10_state.md R35). -/
def Ctx.statusWord (x : Ctx) : Word :=
  0#44 ++ x.h.op ++ 0#4 ++ x.errcode.code ++ 0#5 ++ bit x.overrun ++ x.state.code

/-- RESULT (10_state.md R36). -/
def Ctx.resultWord (x : Ctx) : Word := 0#48 ++ x.probesDone ++ 0#7 ++ bit x.member

/-- ENTRY_LEN (10_state.md R38). -/
def Ctx.entryLenWord (x : Ctx) : Word := 0#32 ++ x.entryLen

/-- The enable check (42_register_access.md R177), computed exactly. -/
def State.configOK (s : State) : Bool :=
  decide (1 ≤ s.slots.toNat) && decide (1 ≤ s.probes.toNat) &&
    decide (s.base.toNat + s.arrayBytes ≤ addressSpace)

end Sys2Proof.Machine
end

