-- ==== Sys2Proof/Machine/Ops.lean ====
section
/-! DEFINITION. The named operations over memory, the coherence order, the contexts and the ports, and
how a command ends: finish, the block's counterpart of taking an exception (60_exceptions.md R204),
and acceptance of the next command, its counterpart of a return (R205). -/

namespace Sys2Proof.Machine

/-! ## Memory bytes and words -/

/-- The memory with one byte stored, addresses kept strictly rising. -/
def Memory.store : Memory → Nat → Byte → Memory
  | [], a, b => [(a, b)]
  | (x, y) :: m, a, b =>
    if a < x then (a, b) :: (x, y) :: m
    else if a = x then (a, b) :: m
    else (x, y) :: Memory.store m a b

/-- Every address of m is above lo, and they rise strictly. -/
def Memory.risesFrom : Nat → Memory → Bool
  | _, [] => true
  | lo, (a, _) :: m => decide (lo < a) && Memory.risesFrom a m

/-- The canonical form: addresses strictly rising. An unlisted address has no byte, so no listed entry
equals what an unlisted one reads as, log 7. -/
def Memory.wf : Memory → Bool
  | [] => true
  | (a, _) :: m => Memory.risesFrom a m

/-- The memory with the eight bytes of a word stored from address a up (20_memory.md R61). -/
def Memory.storeWord (m : Memory) (a : Nat) (v : Word) : Memory :=
  (List.range 8).foldl (fun m j => Memory.store m (a + j) (byteOf v j)) m

/-- The byte at an address: the one stored there last, else the unspecified power-up contents
(10_state.md R44), log 7. -/
def State.byte (s : State) (a : Nat) : Byte := (Memory.lookup s.mem a).getD (Config.powerUpByte a)

/-- The latest value of the little-endian word at an address (20_memory.md R61). -/
def State.word (s : State) (a : Nat) : Word := wordOf fun j => s.byte (a + j)

/-! ## Coherence order and the value of a load -/

/-- A word is written: the memory changes and the coherence order of the word gains a write
(20_memory.md R71). -/
def State.writeWord (s : State) (a : Nat) (v : Word) (id : Nat) : State :=
  { s with mem := Memory.storeWord s.mem a v, writes := ⟨a, s.word a, id⟩ :: s.writes }

/-- The word at a is stored to whole: v = 0 zeroes it, by host store `host` or a CLEAR (none); any other
value takes that back (70_reset_and_hazards.md R235, R236), log 9. -/
def State.mark (s : State) (a : Nat) (v : Word) (host : Option Nat) : State :=
  { s with cleared :=
      if v = 0#64 then (a, host) :: s.cleared.filter (fun e => e.1 != a)
      else s.cleared.filter (fun e => e.1 != a) }

/-- The writes of one word, newest first. -/
def State.wordWrites (s : State) (a : Nat) : List WriteRec := s.writes.filter fun w => w.addr == a

/-- How many writes back a load may look: past every write that does not happen-before it, and not
past what the command has already read (20_memory.md R72 (a), (b)). -/
def State.maxLag (s : State) (a : Nat) (known : List Nat) (floor : Nat) : Nat :=
  min ((s.wordWrites a).takeWhile fun w => !known.contains w.id).length
    ((s.wordWrites a).length - floor)

/-- The value of the word lag writes ago: what the write after it replaced. -/
def State.pastWord (s : State) (a : Nat) : Nat → Word
  | 0 => s.word a
  | lag + 1 =>
    match (s.wordWrites a)[lag]? with
    | some w => w.old
    | none => s.word a

/-- The draw of a load clipped to what R72 admits, log 12. -/
def State.drawLag (s : State) (a : Nat) (known : List Nat) (floor lag : Nat) : Nat :=
  min lag (s.maxLag a known floor)

/-- The position in the coherence order that is lag writes before the latest. -/
def State.position (s : State) (a lag : Nat) : Nat := (s.wordWrites a).length - lag

/-- The latest position of a word this command has read (20_memory.md R72 (b)). -/
def Hb.floor (g : Hb) (a : Nat) : Nat :=
  match g.seen.find? fun e => e.1 == a with
  | some e => e.2
  | none => 0

/-! ## What happens-before what (20_memory.md R73) -/

/-- What a command's end passes to the host that reads it (R73 item 3): R73 orders events, so a command
that has performed none passes on nothing, log 13. -/
def Hb.passed (g : Hb) : List Nat := if g.acted then g.known else []

/-- What happens-before the events of the context's next command: a context's events are totally ordered
(R73 item 4; 41_commands.md R143), and a command that has performed none hands on what was before it,
log 13. -/
def Hb.carried (g : Hb) : List Nat := if g.acted then g.known else g.past

/-- A list with one more number, none twice. -/
def addNew (l : List Nat) (n : Nat) : List Nat := if l.contains n then l else n :: l

/-- Both lists' numbers. -/
def union (l m : List Nat) : List Nat := m.foldl addNew l

/-- The commands and stores a host has seen ended. -/
def State.knownBy (s : State) (h : Nat) : List Nat :=
  (s.observed.filter fun e => e.1 == h).map Prod.snd

/-- Host h has now seen these ended. -/
def State.learn (s : State) (h : Nat) (ids : List Nat) : State :=
  { s with observed :=
      ids.foldl (fun o n => if o.contains (h, n) then o else (h, n) :: o) s.observed }

/-! ## Contexts -/

/-- Context c replaced. -/
def State.setCtx (s : State) (c : Nat) (x : Ctx) : State := { s with ctxs := s.ctxs.set c x }

/-- The host got this response. -/
def State.respond (s : State) (r : HostResp) : State := { s with hostResp := r }

/-- A performed transaction enters the history (20_memory.md R71). -/
def State.record (s : State) (e : PortEvent) : State := { s with history := e :: s.history }

/-- The context's side of finish (41_commands.md R146). -/
def Ctx.finish (x : Ctx) (code : ErrCode) : Ctx :=
  if code = .none then
    { x with h := { x.h with phase := .none }, state := .done, errcode := .none }
  else
    { x with h := { x.h with phase := .none }, state := .error, errcode := code, member := false }

/-- finish(c, code): the command of context c ends (41_commands.md R146; 60_exceptions.md R204). -/
def State.finish (s : State) (c : Nat) (code : ErrCode) : State :=
  s.setCtx c ((s.ctx c).finish code)

/-- The context's side of acceptance: OVERRUN and RESULT cleared, OP written (41_commands.md R140;
60_exceptions.md R205), and the command's number and what happens-before it (20_memory.md R73). -/
def Ctx.accept (x : Ctx) (op : BitVec 4) (id : Nat) (seen : List Nat) : Ctx :=
  { x with
    overrun := false
    member := false
    probesDone := 0#8
    h := { x.h with op := op }
    hb := ⟨id, addNew (union x.hb.carried seen) id, x.hb.carried, [], false⟩ }

/-- What happens-before the events of the command host h issues next in context c, itself among it
(20_memory.md R73), log 13. -/
def State.knownAtIssue (s : State) (h c : Nat) : List Nat :=
  addNew (union (s.ctx c).hb.carried (s.knownBy h)) s.nextId

/-- A command of host h is accepted in context c. -/
def State.accept (s : State) (h c : Nat) (op : BitVec 4) : State :=
  { s.setCtx c ((s.ctx c).accept op s.nextId (s.knownBy h)) with nextId := s.nextId + 1 }

/-- A write to a BUSY context is ignored and sets OVERRUN (42_register_access.md R182). -/
def State.overrun (s : State) (c : Nat) : State := s.setCtx c { s.ctx c with overrun := true }

/-! ## Issue (41_commands.md R140) -/

/-- The error a command ends with at issue, if any, in the order ILLEGAL_OP, DISABLED, CONFLICT
(41_commands.md R140; 60_exceptions.md R202). -/
def State.issueError (s : State) (c : Nat) (cmd : Option Instr) : Option ErrCode :=
  match cmd with
  | none => some .illegalOp
  | some i =>
    if !s.en then some .disabled
    else if (i == .clear && s.otherBusy c) || s.clearActive then some .conflict
    else none

/-- An accepted ADD or QUERY starts its hash phase (41_commands.md R140). -/
def State.startProbe (s : State) (c : Nat) : State :=
  let x := s.ctx c
  s.setCtx c { x with
    state := .busy
    errcode := .none
    h := { x.h with phase := .hash, r := 0, nh := s.params.nh s.probes.toNat, i := 0 } }

/-- An accepted CLEAR starts (41_commands.md R140). -/
def State.startClear (s : State) (c : Nat) : State :=
  let x := s.ctx c
  s.setCtx c { x with
    state := .busy
    errcode := .none
    h := { x.h with phase := .clear, k := 0 } }

/-- Why a model refuses to start an accepted command of context c, if it does: the configuration's bit
array is not normal memory (20_memory.md R68, R69), or an ADD or QUERY is issued before the bit array
has been zeroed (70_reset_and_hazards.md R236; 93_implementation_defined.md U8, U10, U11), log 9, 17. -/
def State.refusal (s : State) (c : Nat) (i : Instr) : Option Refusal :=
  match s.placement with
  | some r => some r
  | none =>
    if i != .clear && !s.arrayCleared (s.ctx c).hb.known then some .notCleared else none

/-- An accepted command starts, unless the spec asks a model to refuse it. -/
def State.starts (s : State) (c : Nat) (i : Instr) (t : State) : Result :=
  match s.refusal c i with
  | some r => .refused r
  | none => .next t

/-- A write of a command word with opcode op, decoded to cmd, by host h to ctx[c].CMD
(41_commands.md R140); start is what an accepted command does. A context that does not exist ignores
the write (42_register_access.md R172). -/
def State.issue (s : State) (h c : Nat) (op : BitVec 4) (cmd : Option Instr)
    (start : State → Result) : Result :=
  if s.nctx ≤ c then .next s
  else if (s.ctx c).busy then .next (s.overrun c)
  else
    let s1 := s.accept h c op
    match s1.issueError c cmd with
    | some e => .next (s1.finish c e)
    | none => start s1

/-- A write of an illegal command word (30_encoding.md R94), log 22. -/
def State.issueIllegal (s : State) (h c : Nat) (op : BitVec 4) : Result :=
  s.issue h c op none .next

/-! ## The ports -/

/-- What the platform makes of a transaction on the word at a. -/
inductive Reach where
  | ok | busErr | noAddress
  | refused (r : Refusal)
  deriving DecidableEq, Repr

/-- What stands at a word address: no address, a word of a bit array that is not normal memory, a word
whose transaction fails, or a word of normal memory (00_scope.md R10; 20_memory.md R68, R69). -/
def State.reach (s : State) (a : Nat) : Reach :=
  if addressSpace < a + 8 then .noAddress
  else match s.placement with
    | some r => .refused r
    | none => if s.memOK a then .ok else .busErr

/-- One memory-port transaction of context c at a: on an ok response the machine goes on to `ok`, a
bus error ends the command with BUS_ERR (41_commands.md R147, R149, R151; 60_exceptions.md R200). -/
def State.memStep (s : State) (c a : Nat) (ok : State) : Result :=
  match s.reach a with
  | .ok => .next ok
  | .busErr => .next (s.finish c .busErr)
  | .noAddress => .fault .addressSpace
  | .refused r => .refused r

/-- MemAmoOr(a, 8, m) by context c: `old | m` is stored, the old value is discarded
(20_memory.md R66, R71). -/
def State.amoOr (s : State) (c a : Nat) (m : Word) : State :=
  (s.writeWord a (s.word a ||| m) (s.ctx c).hb.id).record (.amoOr c a (s.word a ||| m) (s.word a))

/-- MemWrite(a, 8, v) by context c. -/
def State.memWrite (s : State) (c a : Nat) (v : Word) : State :=
  ((s.writeWord a v (s.ctx c).hb.id).mark a v none).record (.write c a v)

/-- The draw of a load of context c, clipped to 20_memory.md R72. -/
def State.loadLag (s : State) (c a lag : Nat) : Nat :=
  s.drawLag a (s.ctx c).hb.known ((s.ctx c).hb.floor a) lag

/-- The value MemRead(a, 8) by context c returns under the draw (20_memory.md R72). -/
def State.loadValue (s : State) (c a lag : Nat) : Word := s.pastWord a (s.loadLag c a lag)

/-- MemRead(a, 8) by context c enters the history; memory stays (41_commands.md R149). -/
def State.memRead (s : State) (c a lag : Nat) : State := s.record (.read c a (s.loadValue c a lag))

/-- The position MemRead(a, 8) by context c reads: the floor of the command's later reads of the word
(20_memory.md R72 (b)). -/
def State.loadPosition (s : State) (c a lag : Nat) : Nat := s.position a (s.loadLag c a lag)

/-- The context's command has performed an event (20_memory.md R71), log 24. -/
def Ctx.act (x : Ctx) : Ctx := { x with hb := { x.hb with acted := true } }

/-- The context has read the word at a at this position. -/
def Ctx.saw (x : Ctx) (a n : Nat) : Ctx :=
  { x with hb := { x.hb with seen := (a, n) :: x.hb.seen, acted := true } }

/-! ## The hash step (41_commands.md R141) -/

/-- The seed of the next hash request of context c. -/
def State.nextSeed (s : State) (c : Nat) : Word := seedAt s.params s.seed (s.ctx c).h.r

/-- The lanes of the next hash of context c (40_probe_datapath.md R110). -/
def State.nextLane (s : State) (c : Nat) : Lane :=
  s.hash128 (s.nextSeed c) (s.entry (s.ctx c).entryPtr (s.ctx c).entryLen)

/-- The event of an answered hash request of context c (00_scope.md R13), log 24. -/
def State.hashEvent (s : State) (c : Nat) : PortEvent :=
  .hashReq c (s.nextSeed c) (s.ctx c).entryPtr (s.ctx c).entryLen (s.nextLane c)

/-- The context after the lanes of hash r arrived: stored at r, and r moves on. DEDUCED: an answered hash
request is an event of its command (00_scope.md R13; 41_commands.md R143), log 24. -/
def Ctx.withLane (x : Ctx) (l : Lane) : Ctx :=
  { x with
    h := { x.h with lanes := x.h.lanes.set x.h.r l, r := x.h.r + 1 }
    hb := { x.hb with acted := true } }

/-- The context when its last hash has arrived: the slot is chosen and the probe phase begins. -/
def Ctx.toProbe (x : Ctx) (p : Params) (slots : Nat) : Ctx :=
  { x with h := { x.h with slot := slotIndex p (x.lane 0).low slots, phase := .probe, i := 0 } }

/-- One hash step of context c (41_commands.md R141). An answered request is an event of the command, for
the history and for happens-before; one with an error response is not: DEDUCED, log 24. -/
def State.hashStep (s : State) (c : Nat) : Result :=
  let x := s.ctx c
  if !s.hashOK (s.nextSeed c) x.entryPtr x.entryLen then .next (s.finish c .hashErr)
  else
    let y := x.withLane (s.nextLane c)
    let s1 := s.record (s.hashEvent c)
    if y.h.r = y.h.nh then
      if s.slots.toNat = 0 then .fault .slotsZero
      else .next (s1.setCtx c (y.toProbe s.params s.slots.toNat))
    else .next (s1.setCtx c y)

/-- n probe transactions of the command are performed (10_state.md R36). -/
def Ctx.probed (x : Ctx) (n : Nat) : Ctx := { x with probesDone := BitVec.ofNat 8 n }

/-- h.i becomes n. -/
def Ctx.atProbe (x : Ctx) (n : Nat) : Ctx := { x with h := { x.h with i := n } }

/-- h.k becomes n. -/
def Ctx.atWord (x : Ctx) (n : Nat) : Ctx := { x with h := { x.h with k := n } }

/-- RESULT.MEMBER becomes b. -/
def Ctx.withMember (x : Ctx) (b : Bool) : Ctx := { x with member := b }

end Sys2Proof.Machine
end

