-- ==== Sys2Proof/Machine/Clear.lean ====
section
/-! DEFINITION. The meaning of CLEAR (41_commands.md R151, R152), one atomic step of it as State.turn
names. -/

namespace Sys2Proof.Machine

/-- One CLEAR step of context c: word k of the bit array becomes 0 (41_commands.md R151). -/
def clearWord (c : Nat) (s : State) : Result :=
  let x := s.ctx c
  let y := x.act.atWord (x.h.k + 1)
  s.memStep c (s.clearAddr x.h.k) ((s.memWrite c (s.clearAddr x.h.k) 0#64).setCtx c
    (if x.h.k + 1 = s.arrayWords then y.finish .none else y))

/-- The next step of a CLEAR running in context c. -/
def clearStep (c : Nat) (s : State) : Result :=
  match (s.ctx c).h.phase with
  | .clear => clearWord c s
  | .none => .next s
  | .hash => .next s
  | .probe => .next s

/-- CLEAR: set every bit of the bit array to 0 (41_commands.md R152). -/
def execClear (s : State) : Result :=
  match s.turn with
  | .issue h c =>
    s.issue h c Instr.clear.opcode (some .clear) fun t => t.starts c .clear (t.startClear c)
  | .advance c _ => clearStep c s

end Sys2Proof.Machine
end

