-- ==== Sys2Proof/Machine/Probe.lean ====
section
/-! DEFINITION. The meanings of ADD and QUERY (41_commands.md R147, R149). A meaning is the one atomic
step of its command that State.turn names: the issue in a context, or that context's next step. -/

namespace Sys2Proof.Machine

/-- One probe step of ADD in context c (41_commands.md R147). -/
def addProbe (c : Nat) (s : State) : Result :=
  let x := s.ctx c
  let a := s.probeAddr c x.h.i
  let y := (x.act.probed (x.h.i + 1)).atProbe (x.h.i + 1)
  s.memStep c a ((s.amoOr c a (s.probeMask c x.h.i)).setCtx c
    (if x.h.i + 1 = s.probes.toNat then y.finish .none else y))

/-- The next step of an ADD running in context c; a context with no such phase takes no step
(60_exceptions.md R212). -/
def addStep (c : Nat) (s : State) : Result :=
  match (s.ctx c).h.phase with
  | .hash => s.hashStep c
  | .probe => addProbe c s
  | .none => .next s
  | .clear => .next s

/-- ADD: set every probe bit of the entry (41_commands.md R147). -/
def execAdd (s : State) : Result :=
  match s.turn with
  | .issue h c =>
    s.issue h c Instr.add.opcode (some .add) fun t => t.starts c .add (t.startProbe c)
  | .advance c _ => addStep c s

/-- One probe step of QUERY in context c, with the draw of its load (41_commands.md R149). -/
def queryProbe (c lag : Nat) (s : State) : Result :=
  let x := s.ctx c
  let a := s.probeAddr c x.h.i
  let y := (x.saw a (s.loadPosition c a lag)).probed (x.h.i + 1)
  s.memStep c a ((s.memRead c a lag).setCtx c
    (if s.loadValue c a lag &&& s.probeMask c x.h.i = 0#64 then (y.withMember false).finish .none
     else if x.h.i + 1 = s.probes.toNat then
      ((y.atProbe (x.h.i + 1)).finish .none).withMember true
     else y.atProbe (x.h.i + 1)))

/-- The next step of a QUERY running in context c. -/
def queryStep (c lag : Nat) (s : State) : Result :=
  match (s.ctx c).h.phase with
  | .hash => s.hashStep c
  | .probe => queryProbe c lag s
  | .none => .next s
  | .clear => .next s

/-- QUERY: test the probe bits of the entry, stopping at the first clear one (41_commands.md R149). -/
def execQuery (s : State) : Result :=
  match s.turn with
  | .issue h c =>
    s.issue h c Instr.query.opcode (some .query) fun t => t.starts c .query (t.startProbe c)
  | .advance c lag => queryStep c lag s

end Sys2Proof.Machine
end

