-- ==== Sys2Proof/Machine/Dispatch.lean ====
section
/-! DEFINITION. One arm per command. -/

namespace Sys2Proof.Machine

-- 41_commands.md sections 2 to 4
def exec (i : Instr) (s : State) : Host.Outcome State Fault Refusal :=
  match i with
  | .add => Sys2Proof.Machine.execAdd s
  | .query => Sys2Proof.Machine.execQuery s
  | .clear => Sys2Proof.Machine.execClear s

end Sys2Proof.Machine
end

