-- ==== Sys2Proof/Machine/Registers.lean ====
section
/-! DEFINITION. The effect of a legal register read, and of a legal register write other than to a CMD
register (42_register_access.md R171 to R182). -/

namespace Sys2Proof.Machine

/-- The value a legal read returns (42_register_access.md R171; 10_state.md R24 to R38). -/
def State.readReg (s : State) : Reg → Word
  | .id => Config.id
  | .param => s.paramWord
  | .regenK => s.params.kRegen
  | .ctrl => s.ctrlWord
  | .gstatus => s.gstatusWord
  | .base => s.base
  | .slots => s.slots
  | .probes => s.probesWord
  | .seed => s.seed
  | .cmd _ => 0#64
  | .status c => (s.ctx c).statusWord
  | .result c => (s.ctx c).resultWord
  | .entryPtr c => (s.ctx c).entryPtr
  | .entryLen c => (s.ctx c).entryLenWord
  | .reserved => 0#64

/-- A host that reads DONE or ERROR has seen the events of the context's command, and all before them
(20_memory.md R73 item 3), log 13. No register changes (42_register_access.md R171). -/
def State.observe (s : State) (h : Nat) : Reg → State
  | .status c =>
    if (s.ctx c).state = .done ∨ (s.ctx c).state = .error then s.learn h (s.ctx c).hb.passed else s
  | .id | .param | .regenK | .ctrl | .gstatus | .base | .slots | .probes | .seed => s
  | .cmd _ | .result _ | .entryPtr _ | .entryLen _ | .reserved => s

/-- A configuration register is written: locked while CTRL.EN = 1 (42_register_access.md R173). -/
def State.configWrite (s s' : State) : State := if s.en then { s with lockViol := true } else s'

/-- A write of v to CTRL (42_register_access.md R176 to R178). -/
def State.writeCtrl (s : State) (v : Word) : State :=
  if v.getLsbD 0 = s.en then s
  else if v.getLsbD 0 then
    if s.configOK then { s with en := true } else { s with cfgErr := true }
  else if s.anyBusy then { s with lockViol := true }
  else { s with en := false }

/-- A write of v to GSTATUS clears the sticky bits whose written value is 1 (42_register_access.md R180). -/
def State.writeGstatus (s : State) (v : Word) : State :=
  { s with cfgErr := s.cfgErr && !v.getLsbD 1, lockViol := s.lockViol && !v.getLsbD 2 }

/-- v & ~(LINE - 1) (42_register_access.md R174). -/
def alignDown (p : Params) (v : Word) : Word := v &&& ~~~(BitVec.ofNat 64 (p.line - 1))

/-- An entry register of context c is written: ignored with OVERRUN while BUSY
(42_register_access.md R181, R182). -/
def State.entryWrite (s : State) (c : Nat) (x : Ctx) : State :=
  if (s.ctx c).busy then s.overrun c else s.setCtx c x

/-- A legal write of v to a register other than CMD (42_register_access.md R172 to R182). -/
def State.writeReg (s : State) (v : Word) : Reg → State
  | .ctrl => s.writeCtrl v
  | .gstatus => s.writeGstatus v
  | .base => s.configWrite { s with base := alignDown s.params v }
  | .slots => s.configWrite { s with slots := v }
  | .probes => s.configWrite { s with probes := v.extractLsb' 0 8 }
  | .seed => s.configWrite { s with seed := v }
  | .entryPtr c => s.entryWrite c { s.ctx c with entryPtr := v }
  | .entryLen c => s.entryWrite c { s.ctx c with entryLen := v.extractLsb' 0 32 }
  | .id | .param | .regenK | .cmd _ | .status _ | .result _ | .reserved => s

end Sys2Proof.Machine
end

