-- ==== Sys2Proof/Machine/Schedule.lean ====
section
/-! DEFINITION. What each input does: the agents' steps (10_state.md R19; 41_commands.md R142), hardware
reset (70_reset_and_hazards.md R230, R231), and what hosts do past the block. -/

namespace Sys2Proof.Machine

/-- Go on from a next state; a fault or a refusal stays. -/
def andThen (o : Result) (f : State → Result) : Result :=
  match o with
  | .next s => f s
  | .fault r => .fault r
  | .refused r => .refused r

/-- A legal write of v by host h to ctx[c].CMD (42_register_access.md R183): a legal word runs the
issue of its command, an illegal one ends at once (30_encoding.md R94). -/
def cmdWrite (h c : Nat) (v : Word) (s : State) : Result :=
  match decodeWord v with
  | .ok i => exec i { s with turn := .issue h c }
  | .error _ => s.issueIllegal h c (wordOp v)

/-- The window offset of an access (10_state.md R23). -/
def Access.offset (a : Access) (p : Params) : Nat := a.addr.toNat - p.mmioBase.toNat

/-- A legal access by host h (42_register_access.md R171, R172). -/
def legalAccess (h : Nat) (a : Access) (s : State) : Result :=
  let r := regAt s.nctx (Access.offset a s.params)
  match a.kind with
  | .read => .next ((s.observe h r).respond (.data (s.readReg r)))
  | .write v =>
    match r with
    | .cmd c => cmdWrite h c v (s.respond .ok)
    | r => .next ((s.writeReg v r).respond .ok)

/-- A register access by host h: no answer while reset is asserted (70_reset_and_hazards.md R230), an
error response and nothing else when it is not legal (42_register_access.md R170). -/
def hostAccess (h : Nat) (a : Access) (s : State) : Result :=
  if s.inReset then .next (s.respond .noAnswer)
  else if a.legal s.params then legalAccess h a s
  else .next (s.respond .error)

/-- The command context c is running, if any (60_exceptions.md R212). -/
def State.running (s : State) (c : Nat) : Option Instr :=
  match (s.ctx c).h.phase with
  | .none => none
  | .hash => decodeOp (s.ctx c).h.op
  | .probe => decodeOp (s.ctx c).h.op
  | .clear => decodeOp (s.ctx c).h.op

/-- Context c takes its next step (41_commands.md R142); none while reset is asserted or when it runs
no command, log 25. -/
def sequencerStep (c lag : Nat) (s : State) : Result :=
  if s.inReset then .next s
  else match s.running c with
    | some i => exec i { s with turn := .advance c lag }
    | none => .next s

/-- Hardware reset's value of a context; what happens-before its next command stays, log 19. -/
def Ctx.hwReset (x : Ctx) (p : Params) : Ctx := { Ctx.reset p with hb := x.hb }

/-- The memory still performs the outstanding memory transaction of context c, and the command is
abandoned (70_reset_and_hazards.md R231). An outstanding hash request is discarded. -/
def abandon (c lag : Nat) (s : State) : Result :=
  let drop := fun t : State => Host.Outcome.next (t.setCtx c ((t.ctx c).hwReset t.params))
  match (s.ctx c).h.phase with
  | .probe => andThen (sequencerStep c lag s) drop
  | .clear => andThen (sequencerStep c lag s) drop
  | .none => .next s
  | .hash => .next s

/-- Every register takes its value of 10_state.md R43; memory is untouched (70_reset_and_hazards.md
R230, R232), log 19. -/
def State.hwReset (s : State) : State :=
  { s with
    en := false
    cfgErr := false
    lockViol := false
    base := 0#64
    slots := 0#64
    probes := 0#8
    seed := 0#64
    ctxs := s.ctxs.map fun x => x.hwReset s.params
    inReset := true }

/-- Reset is asserted; performed names the contexts whose outstanding transaction the memory performs
(70_reset_and_hazards.md R231). -/
def assertReset : List (Nat × Nat) → State → Result
  | [], s => .next s.hwReset
  | (c, lag) :: l, s => andThen (abandon c lag s) (assertReset l)

/-- A host's own access to the n bytes of memory from a up is to normal memory, or refused; past the
address space there is nothing to answer it, log 15. -/
def hostReach (s : State) (a n : Nat) (ok : State) : Result :=
  match s.refuses a n with
  | some r => .refused r
  | none => if addressSpace < a + n then .next (s.respond .error) else .next ok

/-- Host h stores v at a past the block: refused in the bit array while CTRL.EN = 1 (20_memory.md
R79), else a write of the word's coherence order that happens-before what h does next, log 15. -/
def hostStore (h a : Nat) (v : Word) (s : State) : Result :=
  if s.en && s.inArray a then .refused .otherWriter
  else hostReach s a 8
    ((({ (s.writeWord a v s.nextId).mark a v (some s.nextId) with nextId := s.nextId + 1 } : State).learn
      h [s.nextId]).respond .ok)

/-- The byte host h loads at an address under the draw of its word: a byte of a value 20_memory.md R72 (a)
admits, standing where R61 puts it (R62; 70_reset_and_hazards.md R244). -/
def State.hostByte (s : State) (h a lag : Nat) : Byte :=
  byteOf (s.pastWord (a / 8 * 8) (s.drawLag (a / 8 * 8) (s.knownBy h) 0 lag)) (a % 8)

/-- Host h loads n bytes from a up past the block, any width and alignment (20_memory.md R62); each word
it reaches has a draw of its own, log 15. -/
def hostLoad (h a n : Nat) (lags : List Nat) (s : State) : Result :=
  hostReach s a n (s.respond (.bytes ((List.range n).map fun j =>
    s.hostByte h (a + j) (lags.getD ((a + j) / 8 - a / 8) 0))))

/-- Context x is BUSY with an ADD or QUERY whose entry span holds address a (20_memory.md R80). -/
def Ctx.hashes (x : Ctx) (a : Nat) : Bool :=
  x.busy && (x.h.op != 3#4) &&
    decide (x.entryPtr.toNat ≤ a) && decide (a < x.entryPtr.toNat + x.entryLen.toNat)

/-- An entry byte is stored: refused while a BUSY ADD or QUERY hashes it (20_memory.md R80), log 16. -/
def entryStore (a : Nat) (b : Byte) (s : State) : Result :=
  if s.ctxs.any fun x => x.hashes a then .refused .entryChanged
  else .next { s with entries := Memory.store s.entries a b }

/-- What one input does. -/
def serve (e : Input) (s : State) : Result :=
  match e with
  | .access h a => hostAccess h a s
  | .sequencer c lag => sequencerStep c lag s
  | .assertReset performed => if s.inReset then .next s else assertReset performed s
  | .releaseReset => .next { s with inReset := false }
  | .hostStore h index v => hostStore h (8 * index.toNat) v s
  | .hostLoad h addr width lags => hostLoad h addr.toNat width lags s
  | .entryStore a b => entryStore a.toNat b s
  | .sync src dst => .next (s.learn dst (s.knownBy src))
  | .portFaults busErrs hashErrs =>
    .next { s with platform := { s.platform with busErrs := busErrs, hashErrs := hashErrs } }

/-- The next input is served; with none pending the block waits (70_reset_and_hazards.md R246), log 2. -/
def advance (s : State) : Result :=
  match s.inputs with
  | [] => .next s
  | e :: rest => serve e { s with inputs := rest }

/-- The host write that puts a word into ctx[0].CMD (30_encoding.md R96), log 3. -/
def cmdInput (p : Params) (w : Word) : Input :=
  .access 0 ⟨BitVec.ofNat 64 (p.mmioBase.toNat + 0x100), 8, .write w⟩

/-- The state whose next input is a write of w to ctx[0].CMD, with reset released, log 3. -/
def State.withCommand (s : State) (w : Word) : State :=
  { s with inReset := false, inputs := cmdInput s.params w :: s.inputs }

end Sys2Proof.Machine
end

