-- ==== Sys2Proof/Machine/Step.lean ====
section
/-! DEFINITION. The step of the whole machine, and where the next command word stands. -/

namespace Sys2Proof.Machine

/-- One step: the agent the next input names acts (10_state.md R19; 41_commands.md R142). -/
def step (s : State) : Host.Outcome State Fault Refusal := advance s

/-- s with the command word w (its lowest nbits bits) as the next write to ctx[0].CMD, which the very
next step serves, log 3. -/
def State.withFetchWord (s : State) (nbits w : Nat) : State :=
  s.withCommand (BitVec.ofNat 64 (w % 2 ^ nbits))

end Sys2Proof.Machine
end

