-- ==== Sys2Proof/Machine/Fairness.lean ====
section
/-! DEFINITION. Weak fairness (20_memory.md R78; 41_commands.md R142; 70_reset_and_hazards.md R241): a
property of an infinite schedule of the machine's inputs. A claim that a command ends takes it as a
premise; the step does not depend on it. Log 27. -/

namespace Sys2Proof.Machine

/-- An infinite schedule: which input is served at which step. -/
abbrev Schedule := Nat → Input

/-- The step that serves this input. -/
def stepServing (e : Input) (s : State) : Result := step { s with inputs := [e] }

/-- The state after n steps under a schedule. -/
def runUnder (sched : Schedule) (s : State) : Nat → Result
  | 0 => .next s
  | n + 1 => andThen (runUnder sched s n) (stepServing (sched n))

/-- Context c is enabled: its phase is not NONE and reset is not asserted (41_commands.md R142;
70_reset_and_hazards.md R230). Its step is the request of its next transaction and the response together
(41_commands.md R143), so that it is taken means that its request is answered (20_memory.md R78). -/
def State.enabled (s : State) (c : Nat) : Prop := s.inReset = false ∧ (s.ctx c).h.phase ≠ .none

/-- The schedule gives context c its turn in this step. -/
def Schedule.turnOf (sched : Schedule) (c n : Nat) : Prop := ∃ lag, sched n = .sequencer c lag

/-- From step n on the run under the schedule always reaches a state in which context c is enabled. -/
def State.enabledFrom (s : State) (sched : Schedule) (c n : Nat) : Prop :=
  ∀ m, n ≤ m → ∃ t, runUnder sched s m = .next t ∧ t.enabled c

/-- Weak fairness of the contexts, the hash unit and the memory: a context that stays enabled is given its
turn, and its request is answered, eventually (20_memory.md R78; 70_reset_and_hazards.md R241). -/
def State.WeaklyFair (s : State) (sched : Schedule) : Prop :=
  ∀ c n, s.enabledFrom sched c n → ∃ m, n ≤ m ∧ sched.turnOf c m

end Sys2Proof.Machine
end

