-- ==== Sys2Proof/Machine/HostProgram.lean ====
section
/-! DEFINITION. The host-program lines of 30_encoding.md R96 and R97 and the register accesses they
stand for. -/

namespace Sys2Proof.Machine

/-- One line of a host program (30_encoding.md R96, R97). `wait c n` is the loop run with n reads of
STATUS: how often it turns is the schedule's. -/
inductive HostLine where
  | wr (r : Reg) (v : Word)
  | rd (r : Reg)
  | add (c : Nat)
  | query (c : Nat)
  | clear (c : Nat)
  | entry (c : Nat) (p n : Word)
  | wait (c n : Nat)
  | config (b n p sd : Word)
  | enable
  | disable
  deriving DecidableEq, Repr

/-- A 64-bit access to a register at its offset from MMIO_BASE (30_encoding.md R96). -/
def regAccess (p : Params) (r : Reg) (k : AccessKind) : List Access :=
  match regOffset r with
  | some off => [⟨BitVec.ofNat 64 (p.mmioBase.toNat + off), 8, k⟩]
  | none => []

/-- The accesses of a line (30_encoding.md R97). -/
def HostLine.expand (p : Params) : HostLine → List Access
  | .wr r v => regAccess p r (.write v)
  | .rd r => regAccess p r .read
  | .add c => regAccess p (.cmd c) (.write (encode .add))
  | .query c => regAccess p (.cmd c) (.write (encode .query))
  | .clear c => regAccess p (.cmd c) (.write (encode .clear))
  | .entry c ptr n => regAccess p (.entryPtr c) (.write ptr) ++ regAccess p (.entryLen c) (.write n)
  | .wait c n => (List.replicate n (regAccess p (.status c) .read)).flatten
  | .config b n pr sd =>
    regAccess p .base (.write b) ++ regAccess p .slots (.write n) ++
      regAccess p .probes (.write pr) ++ regAccess p .seed (.write sd)
  | .enable => regAccess p .ctrl (.write 1#64)
  | .disable => regAccess p .ctrl (.write 0#64)

/-- The inputs of a host program of host h. -/
def hostProgram (p : Params) (h : Nat) (l : List HostLine) : List Input :=
  (l.map fun x => (x.expand p).map (Input.access h)).flatten

end Sys2Proof.Machine
end

