-- ==== Sys2Proof/Safety.lean ====
section
/-! DEFINITION. What holds of every state a run reaches, when a run has ended, and the terms in which
the consistency claims are stated. -/

namespace Sys2Proof.Machine

/-- The context runs an ADD or a QUERY. -/
def Ctx.probing (x : Ctx) : Prop := x.h.op = Instr.add.opcode ∨ x.h.op = Instr.query.opcode

/-- The sequencer position of a context and the fields it goes with, under the parameters, PROBES.P
and SLOTS (10_state.md R21, R33; 41_commands.md R140 to R151). -/
def Ctx.PositionOk (p : Params) (P slots : Nat) (x : Ctx) : Prop :=
  match x.h.phase with
  | .none => True
  | .hash => x.probing ∧ x.h.nh = p.nh P ∧ x.h.r < x.h.nh ∧ x.h.i = 0 ∧ x.probesDone = 0#8
  | .probe =>
    x.probing ∧ x.h.nh = p.nh P ∧ x.h.r = x.h.nh ∧ x.h.i < P ∧ x.probesDone.toNat = x.h.i ∧
      x.h.slot < slots ∧ x.h.slot = slotIndex p (x.lane 0).low slots
  | .clear => x.h.op = Instr.clear.opcode ∧ x.h.k < slots * p.wps ∧ x.probesDone = 0#8

/-- What holds of every context (10_state.md R33 to R36). -/
structure Ctx.Ok (p : Params) (P slots : Nat) (x : Ctx) : Prop where
  /-- h.phase is NONE exactly when the context is not BUSY (R33) -/
  busy : x.state = .busy ↔ x.h.phase ≠ .none
  /-- ERRCODE is not 0 exactly when STATE = ERROR (R35) -/
  errcode : x.errcode ≠ .none ↔ x.state = .error
  /-- MEMBER is 1 only for a QUERY that ended DONE (R36) -/
  member : x.member = true → x.state = .done ∧ x.h.op = Instr.query.opcode
  /-- IDLE: no command since hardware reset, so STATUS and RESULT are 0 (R35) -/
  idle : x.state = .idle → x.overrun = false ∧ x.h.op = 0#4 ∧ x.probesDone = 0#8
  /-- RESULT stays 0 for a CLEAR (41_commands.md R152) -/
  clear : x.h.op = Instr.clear.opcode → x.probesDone = 0#8
  position : x.PositionOk p P slots
  /-- one lane pair for every r < NHMAX (R33) -/
  lanes : x.h.lanes.length = p.nhMax
  /-- the counters fit the widths of R33 -/
  widths : x.h.nh < 2 ^ 6 ∧ x.h.r < 2 ^ 6 ∧ x.h.slot < 2 ^ 64 ∧ x.h.i < 2 ^ 8 ∧ x.h.k < 2 ^ 64

/-- Every register and hidden field of a context for which 10_state.md R43 and R33 give a reset value has
it. -/
structure Ctx.AtReset (x : Ctx) : Prop where
  state : x.state = .idle
  overrun : x.overrun = false
  errcode : x.errcode = .none
  member : x.member = false
  probesDone : x.probesDone = 0#8
  entryPtr : x.entryPtr = 0#64
  entryLen : x.entryLen = 0#32
  phase : x.h.phase = .none
  op : x.h.op = 0#4

/-- Every register has its reset value (10_state.md R43); the hidden fields that R33 leaves unspecified are
not spoken of (log 10). -/
structure State.AtReset (s : State) : Prop where
  en : s.en = false
  cfgErr : s.cfgErr = false
  lockViol : s.lockViol = false
  base : s.base = 0#64
  slots : s.slots = 0#64
  probes : s.probes = 0#8
  seed : s.seed = 0#64
  ctxs : ∀ x ∈ s.ctxs, x.AtReset

/-- The invariant of the machine. -/
structure State.Inv (s : State) : Prop where
  /-- legal synthesis parameters (00_scope.md R6, R7) -/
  params : s.params.wf = true
  nctx : nctxWf s.nctx = true
  /-- BASE is a multiple of LINE (10_state.md R29) -/
  base : s.base.toNat % s.params.line = 0
  /-- 10_state.md R22 -/
  enabled : s.en = true → s.configOK = true
  /-- no context is BUSY while CTRL.EN = 0 (42_register_access.md R179) -/
  disabled : s.en = false → ∀ x ∈ s.ctxs, x.state ≠ .busy
  ctxs : ∀ x ∈ s.ctxs, x.Ok s.params s.probes.toNat s.slots.toNat
  /-- CLEAR excludes every other command (70_reset_and_hazards.md R240) -/
  exclusive : ∀ c c2, c < s.nctx → c2 < s.nctx → c ≠ c2 →
    (s.ctx c).clearing = true → (s.ctx c2).state ≠ .busy
  /-- both memories are in canonical form -/
  mem : Memory.wf s.mem = true
  entries : Memory.wf s.entries = true
  /-- a command runs only on a bit array in normal memory (20_memory.md R68, R69) -/
  placed : ∀ x ∈ s.ctxs, x.state = .busy → s.placement = none
  /-- ADD and QUERY run only on a bit array that was zeroed first (70_reset_and_hazards.md R236) -/
  cleared : ∀ x ∈ s.ctxs, x.state = .busy → x.h.op ≠ Instr.clear.opcode →
    s.arrayCleared x.hb.known = true
  /-- while reset is asserted every register has its reset value (70_reset_and_hazards.md R230; that they
  have it from the assertion on is the model's choice, log 19) -/
  reset : s.inReset = true → s.AtReset

/-- The lanes a running command has obtained are the hashes of its entry under the perturbed seeds
(40_probe_datapath.md R110, R112). -/
def State.LanesOk (s : State) (c : Nat) : Prop :=
  ((s.ctx c).h.phase = .hash ∨ (s.ctx c).h.phase = .probe) → ∀ r, r < (s.ctx c).h.r →
    (s.ctx c).lane r =
      s.hash128 (seedAt s.params s.seed r) (s.entry (s.ctx c).entryPtr (s.ctx c).entryLen)

/-- The probe list of an entry under the present configuration (40_probe_datapath.md R124). -/
def State.probesOf (s : State) (ptr : Word) (len : BitVec 32) : List (Nat × Word) :=
  probeList s.params s.hash128 s.seed s.probes.toNat s.slots.toNat s.base (s.entry ptr len)

/-- Every value 20_memory.md R72 (a) admits for a load of the word at a, when the commands and stores
in `known` happen-before it, has every bit of m set. -/
def State.Covers (s : State) (known : List Nat) (a : Nat) (m : Word) : Prop :=
  ∀ lag, lag ≤ s.maxLag a known 0 → s.pastWord a lag &&& m = m

/-- The address of the register with this offset from MMIO_BASE. -/
def State.regAddr (s : State) (r : Reg) : Word :=
  BitVec.ofNat 64 (s.params.mmioBase.toNat + (regOffset r).getD 0)

/-- The next input of the state is a 64-bit write of v by host h to register r. -/
abbrev State.writesNext (s : State) (h : Nat) (r : Reg) (v : Word) (rest : List Input) : Prop :=
  s.inputs = .access h ⟨s.regAddr r, 8, .write v⟩ :: rest

/-- The next input of the state is a 64-bit read by host h of register r. -/
abbrev State.readsNext (s : State) (h : Nat) (r : Reg) (rest : List Input) : Prop :=
  s.inputs = .access h ⟨s.regAddr r, 8, .read⟩ :: rest

/-- CTRL.EN stays 1 and no CLEAR runs from s on through n steps: the premises "with CTRL.EN not cleared in
between" and "no CLEAR is issued in between" of 41_commands.md R160. -/
def State.KeepsFilter (s : State) (n : Nat) : Prop :=
  ∀ k t, k ≤ n → core.run k s = .next t → t.en = true ∧ t.clearActive = false

/-- CTRL.EN stays 1 and no ADD runs from s on through n steps: the premise "with no ADD issued since the
CLEAR's DONE" of 41_commands.md R162, and that no other configuration is set. -/
def State.RunsNoAdd (s : State) (n : Nat) : Prop :=
  ∀ k t, k ≤ n → core.run k s = .next t →
    t.en = true ∧ ∀ c, (t.ctx c).state = .busy → (t.ctx c).h.op ≠ Instr.add.opcode

/-- Every command's number is below the next; a context's command, running or ended, counts itself among
what happens-before its events, and all that was before it in its context; and one that ended DONE has
performed an event (20_memory.md R73; 41_commands.md R143; log 13). -/
structure State.IdsOk (s : State) : Prop where
  fresh : ∀ c, c < s.nctx → (s.ctx c).hb.id < s.nextId
  self : ∀ c, (s.ctx c).state ≠ .idle → (s.ctx c).hb.id ∈ (s.ctx c).hb.known
  past : ∀ c n, n ∈ (s.ctx c).hb.past → n ∈ (s.ctx c).hb.known
  acted : ∀ c, (s.ctx c).state = .done → (s.ctx c).hb.acted = true

/-- Outside context c, memory, the coherence order, the history and the numbering, nothing changed;
and in context c the entry registers did not. -/
structure State.FrameOf (s : State) (c : Nat) (t : State) : Prop where
  params : t.params = s.params
  platform : t.platform = s.platform
  en : t.en = s.en
  cfgErr : t.cfgErr = s.cfgErr
  lockViol : t.lockViol = s.lockViol
  base : t.base = s.base
  slots : t.slots = s.slots
  probes : t.probes = s.probes
  seed : t.seed = s.seed
  nctx : t.nctx = s.nctx
  others : ∀ c2, c2 ≠ c → t.ctx c2 = s.ctx c2
  entryPtr : (t.ctx c).entryPtr = (s.ctx c).entryPtr
  entryLen : (t.ctx c).entryLen = (s.ctx c).entryLen
  inReset : t.inReset = s.inReset
  entries : t.entries = s.entries
  observed : t.observed = s.observed
  hostResp : t.hostResp = s.hostResp
  turn : t.turn = s.turn
  inputs : t.inputs = s.inputs

/-- Every byte of memory reads as before. -/
def State.SameBytes (s t : State) : Prop := ∀ x, t.byte x = s.byte x

/-- Every byte of memory outside the word at a reads as before. -/
def State.SameBytesOutside (s : State) (a : Nat) (t : State) : Prop :=
  ∀ x, x < a ∨ a + 8 ≤ x → t.byte x = s.byte x

/-- Context c of t ended with this outcome (41_commands.md R146), its command done n probes. -/
def State.EndedWith (t : State) (c : Nat) (e : ErrCode) : Prop :=
  (t.ctx c).h.phase = .none ∧ (t.ctx c).errcode = e ∧
    (t.ctx c).state = (if e = .none then .done else .error)

/-- Some context is BUSY with a CLEAR, or i is CLEAR and another context than c is BUSY: the
condition of CONFLICT (41_commands.md R140). -/
def State.Conflicts (s : State) (c : Nat) (i : Instr) : Prop :=
  (i = .clear ∧ ∃ c2, c2 < s.nctx ∧ c2 ≠ c ∧ (s.ctx c2).state = .busy) ∨
    ∃ c2, c2 < s.nctx ∧ (s.ctx c2).state = .busy ∧ (s.ctx c2).h.op = Instr.clear.opcode

/-- A run has ended: no access is left and no context is BUSY (70_reset_and_hazards.md R246). -/
def State.Ended (s : State) : Prop := s.inputs = [] ∧ s.anyBusy = false

end Sys2Proof.Machine
end

