-- ==== Sys2Proof/Certificates/Slice0/Obligations.lean ====
section
/-! DEFINITION. The statements for the provers, in the order of OBLIGATIONS.json. -/

open Sys2Proof Sys2Proof.Machine

/-! ## Encoding -/

/-- The command words written out from 30_encoding.md R90 and R91 decode to their commands, and the seven
words of 95_test_vectors.md section 6 that are illegal do not. -/
def Obligations.CommandWordsDecode : Prop :=
  decodeWord 0x0000000000000001#64 = .ok .add ∧
  decodeWord 0x0000000000000002#64 = .ok .query ∧
  decodeWord 0x0000000000000003#64 = .ok .clear ∧
  decodeWord 0x0000000000000000#64 = .error .reservedOp ∧
  decodeWord 0x0000000000000004#64 = .error .reservedOp ∧
  decodeWord 0x000000000000000F#64 = .error .reservedOp ∧
  decodeWord 0x0000000000000011#64 = .error .reservedBits ∧
  decodeWord 0x0000000000000013#64 = .error .reservedBits ∧
  decodeWord 0x8000000000000002#64 = .error .reservedBits ∧
  decodeWord 0xFFFFFFFFFFFFFFFF#64 = .error .reservedBits

/-- 30_encoding.md R95: bits 63..4 zero and the OP field alone select the command; every other word
is illegal, by name. -/
def Obligations.DecodeFollowsPseudocode : Prop :=
  ∀ v : Word,
    (v.extractLsb' 4 60 ≠ 0#60 → decodeWord v = .error .reservedBits) ∧
    (v.extractLsb' 4 60 = 0#60 →
      (v.extractLsb' 0 4 = 0x1#4 → decodeWord v = .ok .add) ∧
      (v.extractLsb' 0 4 = 0x2#4 → decodeWord v = .ok .query) ∧
      (v.extractLsb' 0 4 = 0x3#4 → decodeWord v = .ok .clear) ∧
      (v.extractLsb' 0 4 = 0x0#4 ∨ 0x4#4 ≤ v.extractLsb' 0 4 → decodeWord v = .error .reservedOp))

/-- Decode and encode agree in both directions: a command's bytes decode to it with the rest handed
back, and a legal word is the encoding of what it decodes to. -/
def Obligations.DecodeEncodeAgree : Prop :=
  (∀ (i : Instr) (rest : List Byte), i.wf = true →
    decodeBytes (encodeBytes i ++ rest) = .ok (i, rest)) ∧
  (∀ (v : Word) (i : Instr), decodeWord v = .ok i → encode i = v) ∧
  (∀ v : Word, wordWf v = true ↔ ∃ i, decodeWord v = .ok i)

/-- The register map (10_state.md R23): the offset of every register, every reserved location, and the map
in both directions: every register has one offset, 8-byte aligned in the window, that names it; and an
aligned offset that names a register is its offset. -/
def Obligations.RegisterMapRoundTrip : Prop :=
  (regOffset .id = some 0x000 ∧ regOffset .param = some 0x008 ∧ regOffset .regenK = some 0x010 ∧
    regOffset .ctrl = some 0x018 ∧ regOffset .gstatus = some 0x020 ∧ regOffset .base = some 0x028 ∧
    regOffset .slots = some 0x030 ∧ regOffset .probes = some 0x038 ∧ regOffset .seed = some 0x040) ∧
  (∀ c : Nat, regOffset (.cmd c) = some (0x100 + 0x40 * c + 0x00) ∧
    regOffset (.status c) = some (0x100 + 0x40 * c + 0x08) ∧
    regOffset (.result c) = some (0x100 + 0x40 * c + 0x10) ∧
    regOffset (.entryPtr c) = some (0x100 + 0x40 * c + 0x18) ∧
    regOffset (.entryLen c) = some (0x100 + 0x40 * c + 0x20)) ∧
  (∀ n off : Nat, nctxWf n = true →
    ((0x048 ≤ off ∧ off < 0x100) ∨ (0x100 ≤ off ∧ 0x28 ≤ (off - 0x100) % 0x40) ∨
      0x100 + 0x40 * n ≤ off) → regAt n off = .reserved) ∧
  (∀ (n : Nat) (r : Reg), nctxWf n = true → r.wf n = true →
    ∃ off, regOffset r = some off ∧ off < 4096 ∧ off % 8 = 0 ∧ regAt n off = r) ∧
  (∀ n off : Nat, off < 4096 → off % 8 = 0 → regAt n off ≠ .reserved →
    regOffset (regAt n off) = some off)

/-! ## Register layout -/

/-- Every field of STATUS, RESULT and GSTATUS stands where 10_state.md R28, R35 and R36 put it, the
reserved bits are 0, and STATE and ERRCODE have the codes of R35 and 60_exceptions.md R200. -/
def Obligations.StatusFieldsInPlace : Prop :=
  (∀ x : Ctx,
    x.statusWord.toNat = x.state.code.toNat + 2 ^ 2 * x.overrun.toNat + 2 ^ 8 * x.errcode.code.toNat +
      2 ^ 16 * x.h.op.toNat ∧
    x.resultWord.toNat = x.member.toNat + 2 ^ 8 * x.probesDone.toNat) ∧
  (CtxState.idle.code.toNat = 0 ∧ CtxState.busy.code.toNat = 1 ∧ CtxState.done.code.toNat = 2 ∧
    CtxState.error.code.toNat = 3) ∧
  (ErrCode.none.code.toNat = 0 ∧ ErrCode.illegalOp.code.toNat = 1 ∧ ErrCode.disabled.code.toNat = 2 ∧
    ErrCode.conflict.code.toNat = 3 ∧ ErrCode.hashErr.code.toNat = 4 ∧ ErrCode.busErr.code.toNat = 5) ∧
  (∀ s : State,
    s.gstatusWord.toNat = s.en.toNat + 2 ^ 1 * s.cfgErr.toNat + 2 ^ 2 * s.lockViol.toNat +
      2 ^ 3 * s.anyBusy.toNat + 2 ^ 4 * s.clearActive.toNat ∧
    (s.anyBusy = true ↔ ∃ c, c < s.nctx ∧ (s.ctx c).state = .busy) ∧
    (s.clearActive = true ↔
      ∃ c, c < s.nctx ∧ (s.ctx c).state = .busy ∧ (s.ctx c).h.op = Instr.clear.opcode))

/-- The constants of 10_state.md R24, R25 and R26: ID and REGEN_K read their constant, PARAM its
fields, for all legal synthesis parameters, and at the defaults the values the rules print. -/
def Obligations.ConstantRegisters : Prop :=
  State.reset.readReg .param = 0x000000FF07070406#64 ∧
  State.reset.readReg .regenK = 0x9E3779B97F4A7C15#64 ∧
  ∀ s : State, s.params.wf = true → nctxWf s.nctx = true →
    s.readReg .id = 0x0000000145504246#64 ∧
    s.readReg .regenK = s.params.kRegen ∧
    (s.readReg .param).toNat = s.params.lineLog2 + 2 ^ 8 * s.nctx + 2 ^ 16 * (64 / s.params.log) +
      2 ^ 24 * (64 / s.params.log) + 2 ^ 32 * 255

/-! ## Reset -/

/-- The machine right after reset meets the invariants: State.Inv, the numbering of commands and the
lanes of running commands. The synthesis parameters at reset are the model's choice (log 4). -/
def Obligations.ResetMeetsInvariant : Prop :=
  State.reset.Inv ∧ State.reset.IdsOk ∧ ∀ c, State.reset.LanesOk c

/-- 10_state.md R43: when reset is asserted, whatever outstanding transactions the memory performs,
every register takes its reset value and every command is abandoned. That this happens at the assertion is
the model's choice (log 19): R230 gives the values at release. -/
def Obligations.HardwareResetValues : Prop :=
  ∀ (s t : State) (l : List (Nat × Nat)) (rest : List Input),
    s.inReset = false → s.inputs = .assertReset l :: rest → step s = .next t →
      t.readReg .ctrl = 0#64 ∧ t.readReg .gstatus = 0#64 ∧ t.readReg .base = 0#64 ∧
      t.readReg .slots = 0#64 ∧ t.readReg .probes = 0#64 ∧ t.readReg .seed = 0#64 ∧
      t.readReg .id = s.readReg .id ∧ t.readReg .param = s.readReg .param ∧
      t.readReg .regenK = s.readReg .regenK ∧ t.nctx = s.nctx ∧ t.inReset = true ∧
      ∀ c, t.readReg (.status c) = 0#64 ∧ t.readReg (.result c) = 0#64 ∧
        t.readReg (.entryPtr c) = 0#64 ∧ t.readReg (.entryLen c) = 0#64 ∧
        (t.ctx c).state = .idle ∧ (t.ctx c).h.phase = .none ∧ (t.ctx c).h.op = 0#4

/-- 70_reset_and_hazards.md R232: reset itself does not change memory: with no outstanding transaction
performed, the assertion completes and every byte reads as before. -/
def Obligations.ResetKeepsMemory : Prop :=
  ∀ (s : State) (rest : List Input), s.inReset = false → s.inputs = .assertReset [] :: rest →
    ∃ t, step s = .next t ∧ s.SameBytes t ∧ t.inReset = true ∧ t.inputs = rest ∧
      t.history = s.history ∧ t.writes = s.writes

/-- 70_reset_and_hazards.md R231: the one outstanding transaction of a command may be performed when reset
arrives: of an ADD exactly its word gains its bit, of a CLEAR exactly its word becomes 0, a QUERY changes no
memory, an outstanding hash request is discarded; and the registers are reset all the same. (That it is
not performed: ResetKeepsMemory.) That both happen at the assertion is the model's choice (log 19). -/
def Obligations.OutstandingOrPerformedAtReset : Prop :=
  ∀ (s : State) (c lag : Nat) (rest : List Input),
    s.inReset = false → s.inputs = .assertReset [(c, lag)] :: rest →
    ((s.ctx c).h.phase = .probe → (s.ctx c).h.op = Instr.add.opcode →
      s.reach (s.probeAddr c (s.ctx c).h.i) = .ok →
      ∃ t, step s = .next t ∧
        t.word (s.probeAddr c (s.ctx c).h.i) =
          s.word (s.probeAddr c (s.ctx c).h.i) ||| s.probeMask c (s.ctx c).h.i ∧
        s.SameBytesOutside (s.probeAddr c (s.ctx c).h.i) t ∧ t.AtReset ∧ t.inReset = true) ∧
    ((s.ctx c).h.phase = .clear → (s.ctx c).h.op = Instr.clear.opcode →
      s.reach (s.clearAddr (s.ctx c).h.k) = .ok →
      ∃ t, step s = .next t ∧ t.word (s.clearAddr (s.ctx c).h.k) = 0#64 ∧
        s.SameBytesOutside (s.clearAddr (s.ctx c).h.k) t ∧ t.AtReset ∧ t.inReset = true) ∧
    ((s.ctx c).h.phase = .probe → (s.ctx c).h.op = Instr.query.opcode →
      s.reach (s.probeAddr c (s.ctx c).h.i) = .ok →
      ∃ t, step s = .next t ∧ s.SameBytes t ∧ t.writes = s.writes ∧ t.AtReset ∧ t.inReset = true) ∧
    ((s.ctx c).h.phase = .hash →
      ∃ t, step s = .next t ∧ s.SameBytes t ∧ t.history = s.history ∧ t.writes = s.writes ∧
        t.AtReset ∧ t.inReset = true)

/-- 70_reset_and_hazards.md R230: while reset is asserted a register access gets no answer and a
sequencer takes no step; nothing else of the machine changes; and when it is released every register
of 10_state.md R43 holds its reset value. -/
def Obligations.NothingRunsInReset : Prop :=
  ∀ (s : State) (rest : List Input), s.inReset = true →
    (∀ h a, s.inputs = .access h a :: rest →
      step s = .next { s with inputs := rest, hostResp := .noAnswer }) ∧
    (∀ c lag, s.inputs = .sequencer c lag :: rest → step s = .next { s with inputs := rest }) ∧
    (s.inputs = .releaseReset :: rest →
      step s = .next { s with inputs := rest, inReset := false } ∧
      (s.Inv → ({ s with inputs := rest, inReset := false } : State).AtReset))

/-! ## Register accesses -/

/-- 42_register_access.md R170: an access that is not 8 bytes wide, 8-byte aligned and inside the window
gets an error response, changes no state and sets no flag. -/
def Obligations.IllegalAccessHasNoEffect : Prop :=
  ∀ (s : State) (h : Nat) (a : Access) (rest : List Input),
    s.inReset = false → s.inputs = .access h a :: rest →
    (a.width ≠ 8 ∨ a.addr.toNat % 8 ≠ 0 ∨ a.addr.toNat < s.params.mmioBase.toNat ∨
      s.params.mmioBase.toNat + 4096 ≤ a.addr.toNat) →
    step s = .next { s with inputs := rest, hostResp := .error }

/-- 42_register_access.md R171: a legal read returns the value of the register at its offset
(10_state.md R23 to R38), 0 for CMD, reserved offsets and absent contexts; no register, no memory and no
hidden state changes. The model's own field of what hosts have observed (log 13) grows by a read of STATUS that
shows DONE or ERROR of a command that has performed an event, by what happens-before that command's end, for
the reading host alone; any other read leaves it as it is: nothing else is ordered (20_memory.md R74). -/
def Obligations.ReadReturnsTheRegister : Prop :=
  ∀ (s : State) (h off : Nat) (rest : List Input),
    s.inReset = false → s.params.wf = true → off < 4096 → off % 8 = 0 →
    s.inputs = .access h ⟨BitVec.ofNat 64 (s.params.mmioBase.toNat + off), 8, .read⟩ :: rest →
    ∃ (o : List (Nat × Nat)) (v : Word),
      step s = .next { s with inputs := rest, observed := o, hostResp := .data v } ∧
      (∀ e, e ∈ o ↔ e ∈ s.observed ∨ (e.1 = h ∧ ∃ c, c < s.nctx ∧ off = 0x100 + 0x40 * c + 0x08 ∧
        ((s.ctx c).state = .done ∨ (s.ctx c).state = .error) ∧ (s.ctx c).hb.acted = true ∧
        e.2 ∈ (s.ctx c).hb.known)) ∧
      ((∀ c, c < s.nctx → off = 0x100 + 0x40 * c + 0x08 →
        ¬ (((s.ctx c).state = .done ∨ (s.ctx c).state = .error) ∧ (s.ctx c).hb.acted = true)) →
        o = s.observed) ∧
      (off = 0x000 → v = 0x0000000145504246#64) ∧
      (off = 0x008 → v = s.paramWord) ∧
      (off = 0x010 → v = s.params.kRegen) ∧
      (off = 0x018 → v.toNat = s.en.toNat) ∧
      (off = 0x020 → v = s.gstatusWord) ∧
      (off = 0x028 → v = s.base) ∧
      (off = 0x030 → v = s.slots) ∧
      (off = 0x038 → v.toNat = s.probes.toNat) ∧
      (off = 0x040 → v = s.seed) ∧
      (0x048 ≤ off → off < 0x100 → v = 0#64) ∧
      (∀ c, c < s.nctx →
        (off = 0x100 + 0x40 * c + 0x00 → v = 0#64) ∧
        (off = 0x100 + 0x40 * c + 0x08 → v = (s.ctx c).statusWord) ∧
        (off = 0x100 + 0x40 * c + 0x10 → v = (s.ctx c).resultWord) ∧
        (off = 0x100 + 0x40 * c + 0x18 → v = (s.ctx c).entryPtr) ∧
        (off = 0x100 + 0x40 * c + 0x20 → v.toNat = (s.ctx c).entryLen.toNat) ∧
        (0x100 + 0x40 * c + 0x28 ≤ off → off < 0x100 + 0x40 * c + 0x40 → v = 0#64)) ∧
      (0x100 + 0x40 * s.nctx ≤ off → v = 0#64)

/-- 42_register_access.md R172: a write to a read-only or reserved location is ignored and sets no flag;
and of a write to a writable register the reserved bits are ignored: what differs from it only there does
the same. -/
def Obligations.ReadOnlyWritesIgnored : Prop :=
  (∀ (s : State) (h off : Nat) (v : Word) (rest : List Input),
    s.inReset = false → s.params.wf = true → off < 4096 → off % 8 = 0 →
    s.inputs = .access h ⟨BitVec.ofNat 64 (s.params.mmioBase.toNat + off), 8, .write v⟩ :: rest →
    (off < 0x18 ∨ (0x48 ≤ off ∧ off < 0x100) ∨
      (0x100 ≤ off ∧ ((off - 0x100) % 0x40 = 0x08 ∨ (off - 0x100) % 0x40 = 0x10 ∨
        0x28 ≤ (off - 0x100) % 0x40)) ∨ 0x100 + 0x40 * s.nctx ≤ off) →
    step s = .next { s with inputs := rest, hostResp := .ok }) ∧
  (∀ (s s' : State) (h : Nat) (r : Reg) (v v' : Word) (rest : List Input),
    s.inReset = false → s.params.wf = true → nctxWf s.nctx = true → s.writesNext h r v rest →
    s' = { s with inputs := s'.inputs } → s'.writesNext h r v' rest →
    ((r = .ctrl ∧ v.toNat % 2 = v'.toNat % 2) ∨
      (r = .gstatus ∧ v.toNat / 2 % 4 = v'.toNat / 2 % 4) ∨
      (r = .base ∧ v.toNat / s.params.line = v'.toNat / s.params.line) ∨
      (r = .probes ∧ v.toNat % 2 ^ 8 = v'.toNat % 2 ^ 8) ∨
      ∃ c, r = .entryLen c ∧ c < s.nctx ∧ v.toNat % 2 ^ 32 = v'.toNat % 2 ^ 32) →
    step s' = step s)

/-- 42_register_access.md R173, R174, R175: a write to BASE, SLOTS, PROBES or SEED while CTRL.EN = 1 is
ignored and sets LOCK_VIOL; with CTRL.EN = 0 BASE is aligned down to a multiple of LINE, SLOTS and SEED take
all 64 bits and PROBES the low 8, unchecked. -/
def Obligations.ConfigurationWrites : Prop :=
  ∀ (s : State) (h : Nat) (r : Reg) (v : Word) (rest : List Input),
    s.inReset = false → s.params.wf = true → s.writesNext h r v rest →
    (s.en = true → (r = .base ∨ r = .slots ∨ r = .probes ∨ r = .seed) →
      step s = .next { s with inputs := rest, hostResp := .ok, lockViol := true }) ∧
    (s.en = false →
      (r = .base → step s = .next { s with
        inputs := rest, hostResp := .ok
        base := BitVec.ofNat 64 (v.toNat / s.params.line * s.params.line) }) ∧
      (r = .slots → step s = .next { s with inputs := rest, hostResp := .ok, slots := v }) ∧
      (r = .probes → step s = .next { s with
        inputs := rest, hostResp := .ok, probes := BitVec.ofNat 8 (v.toNat % 2 ^ 8) }) ∧
      (r = .seed → step s = .next { s with inputs := rest, hostResp := .ok, seed := v }))

/-- 42_register_access.md R176, R177, R178: a CTRL write whose bit 0 equals CTRL.EN has no effect, no check
and sets no flag. CTRL.EN becomes 1 if and only if SLOTS >= 1, PROBES.P >= 1 and BASE + SLOTS*LINE <= 2^64
exactly, else it stays 0 and CFG_ERR is set; memory stays. It becomes 0 when no context is BUSY, and then
every command ends at issue with DISABLED, else the write is ignored and sets LOCK_VIOL. -/
def Obligations.CtrlWrites : Prop :=
  ∀ (s : State) (h : Nat) (v : Word) (rest : List Input),
    s.inReset = false → s.params.wf = true → s.writesNext h .ctrl v rest →
    (v.toNat % 2 = s.en.toNat → step s = .next { s with inputs := rest, hostResp := .ok }) ∧
    (s.en = false → v.toNat % 2 = 1 →
      (1 ≤ s.slots.toNat ∧ 1 ≤ s.probes.toNat ∧
          s.base.toNat + s.slots.toNat * s.params.line ≤ 2 ^ 64 →
        step s = .next { s with inputs := rest, hostResp := .ok, en := true }) ∧
      (¬ (1 ≤ s.slots.toNat ∧ 1 ≤ s.probes.toNat ∧
          s.base.toNat + s.slots.toNat * s.params.line ≤ 2 ^ 64) →
        step s = .next { s with inputs := rest, hostResp := .ok, cfgErr := true })) ∧
    (s.en = true → v.toNat % 2 = 0 →
      ((∀ c, c < s.nctx → (s.ctx c).state ≠ .busy) →
        step s = .next { s with inputs := rest, hostResp := .ok, en := false } ∧
        ∀ (h2 c : Nat) (i : Instr), c < s.nctx →
          ∃ t, exec i { s with inputs := rest, hostResp := .ok, en := false, turn := .issue h2 c } =
            .next t ∧ t.EndedWith c .disabled) ∧
      ((∃ c, c < s.nctx ∧ (s.ctx c).state = .busy) →
        step s = .next { s with inputs := rest, hostResp := .ok, lockViol := true }))

/-- 42_register_access.md R180: a GSTATUS write clears CFG_ERR and LOCK_VIOL where the written bit is 1
and nothing else. -/
def Obligations.GstatusWriteOneToClear : Prop :=
  ∀ (s : State) (h : Nat) (v : Word) (rest : List Input),
    s.inReset = false → s.params.wf = true → s.writesNext h .gstatus v rest →
    step s = .next { s with
      inputs := rest, hostResp := .ok
      cfgErr := if v.toNat / 2 % 2 = 1 then false else s.cfgErr
      lockViol := if v.toNat / 4 % 2 = 1 then false else s.lockViol }

/-- 42_register_access.md R181: the entry registers of a context that is not BUSY take the written value,
whatever CTRL.EN holds. -/
def Obligations.EntryRegisterWrites : Prop :=
  ∀ (s : State) (h c : Nat) (v : Word) (rest : List Input),
    s.inReset = false → s.params.wf = true → nctxWf s.nctx = true → c < s.nctx →
    (s.ctx c).state ≠ .busy →
    (s.writesNext h (.entryPtr c) v rest →
      ∃ t, step s = .next t ∧ t.ctx c = { s.ctx c with entryPtr := v } ∧
        t = { s with inputs := rest, hostResp := .ok, ctxs := t.ctxs } ∧
        ∀ c2, c2 ≠ c → t.ctx c2 = s.ctx c2) ∧
    (s.writesNext h (.entryLen c) v rest →
      ∃ t, step s = .next t ∧
        t.ctx c = { s.ctx c with entryLen := BitVec.ofNat 32 (v.toNat % 2 ^ 32) } ∧
        t = { s with inputs := rest, hostResp := .ok, ctxs := t.ctxs } ∧
        ∀ c2, c2 ≠ c → t.ctx c2 = s.ctx c2)

/-- 42_register_access.md R182: a write to CMD, ENTRY_PTR or ENTRY_LEN of a BUSY context is ignored and
sets OVERRUN, whatever is written; and OVERRUN stays 1 until the next command is accepted in the context
(which gives it the next number) or hardware reset. -/
def Obligations.BusyWritesOnlySetOverrun : Prop :=
  (∀ (s : State) (h c : Nat) (r : Reg) (v : Word) (rest : List Input),
    s.inReset = false → s.params.wf = true → nctxWf s.nctx = true → c < s.nctx →
    (s.ctx c).state = .busy → (r = .cmd c ∨ r = .entryPtr c ∨ r = .entryLen c) →
    s.writesNext h r v rest →
    ∃ t, step s = .next t ∧ t.ctx c = { s.ctx c with overrun := true } ∧
      (∀ c2, c2 ≠ c → t.ctx c2 = s.ctx c2) ∧
      t = { s with inputs := rest, hostResp := .ok, turn := t.turn, ctxs := t.ctxs }) ∧
  (∀ (s t : State) (c : Nat), s.Inv → (s.ctx c).overrun = true → step s = .next t →
    (t.ctx c).overrun = true ∨ (t.ctx c).hb.id = s.nextId ∨ t.inReset = true)

/-! ## Issue -/

/-- 30_encoding.md R94: an illegal word written to a context that is not BUSY is accepted and at once ends
with ILLEGAL_OP, whatever CTRL.EN holds; OP records bits 3..0; no request, no transaction. -/
def Obligations.IllegalWordEndsAtOnce : Prop :=
  ∀ (s : State) (h c : Nat) (v : Word) (rest : List Input),
    s.inReset = false → s.params.wf = true → nctxWf s.nctx = true → c < s.nctx →
    (s.ctx c).state ≠ .busy → wordWf v = false → s.writesNext h (.cmd c) v rest →
    ∃ t, step s = .next t ∧ t.EndedWith c .illegalOp ∧ (t.ctx c).h.op = v.extractLsb' 0 4 ∧
      (t.ctx c).overrun = false ∧ (t.ctx c).member = false ∧ (t.ctx c).probesDone = 0#8 ∧
      t.history = s.history ∧ t.writes = s.writes ∧ s.SameBytes t ∧
      ({ s with inputs := rest, hostResp := .ok } : State).FrameOf c t

/-- 41_commands.md R140 and 60_exceptions.md R202: a legal command that is not started ends at issue with
DISABLED when CTRL.EN = 0, else with CONFLICT; it makes no request and no transaction. -/
def Obligations.IssueErrorsInOrder : Prop :=
  ∀ (s : State) (h c : Nat) (i : Instr),
    s.turn = .issue h c → c < s.nctx → (s.ctx c).state ≠ .busy →
    (s.en = false ∨ s.Conflicts c i) →
    ∃ t, exec i s = .next t ∧ t.EndedWith c (if s.en then .conflict else .disabled) ∧
      (t.ctx c).h.op = i.opcode ∧ (t.ctx c).overrun = false ∧ (t.ctx c).member = false ∧
      (t.ctx c).probesDone = 0#8 ∧ t.history = s.history ∧ t.writes = s.writes ∧
      s.SameBytes t ∧ s.FrameOf c t

/-- 41_commands.md R140: an ADD or QUERY written to a context that is not BUSY, with CTRL.EN = 1 and no
CLEAR running, is accepted and starts its hash phase; nothing outside its context changes. The bit array is
in normal memory and has been zeroed; where it is not so, IssueRefusals says what happens. -/
def Obligations.AddAndQueryStart : Prop :=
  ∀ (s : State) (h c : Nat) (i : Instr),
    (i = .add ∨ i = .query) → s.turn = .issue h c → c < s.nctx → (s.ctx c).state ≠ .busy →
    s.en = true → ¬ s.Conflicts c i → s.placement = none →
    s.arrayCleared (s.knownAtIssue h c) = true →
    ∃ t, exec i s = .next t ∧ (t.ctx c).state = .busy ∧ (t.ctx c).errcode = .none ∧
      (t.ctx c).overrun = false ∧ (t.ctx c).member = false ∧ (t.ctx c).probesDone = 0#8 ∧
      (t.ctx c).h.op = i.opcode ∧ (t.ctx c).h.phase = .hash ∧ (t.ctx c).h.r = 0 ∧
      (t.ctx c).h.i = 0 ∧ (t.ctx c).h.nh = s.params.nh s.probes.toNat ∧
      t.history = s.history ∧ t.writes = s.writes ∧ s.SameBytes t ∧ s.FrameOf c t

/-- 41_commands.md R140: a CLEAR written while no other context is BUSY is accepted and starts at word 0. The
bit array is in normal memory; where it is not, IssueRefusals says what happens. -/
def Obligations.ClearStarts : Prop :=
  ∀ (s : State) (h c : Nat),
    s.turn = .issue h c → c < s.nctx → (∀ c2, c2 < s.nctx → (s.ctx c2).state ≠ .busy) →
    s.en = true → s.placement = none →
    ∃ t, exec .clear s = .next t ∧ (t.ctx c).state = .busy ∧ (t.ctx c).errcode = .none ∧
      (t.ctx c).overrun = false ∧ (t.ctx c).member = false ∧ (t.ctx c).probesDone = 0#8 ∧
      (t.ctx c).h.op = Instr.clear.opcode ∧ (t.ctx c).h.phase = .clear ∧ (t.ctx c).h.k = 0 ∧
      t.history = s.history ∧ t.writes = s.writes ∧ s.SameBytes t ∧ s.FrameOf c t

/-- What a model refuses at the issue of an accepted command: any of the three when the bit array overlaps
the register window (20_memory.md R69) or a region with side effects (R68), and an ADD or QUERY when some
word of the bit array has been zeroed neither by a CLEAR nor by a host store that happens-before it
(70_reset_and_hazards.md R235, R236). That the stop stands at the issue is the model's choice (log 9,
log 17). -/
def Obligations.IssueRefusals : Prop :=
  ∀ (s : State) (h c : Nat) (i : Instr),
    s.turn = .issue h c → c < s.nctx → (s.ctx c).state ≠ .busy → s.en = true → ¬ s.Conflicts c i →
    ((∃ x, s.inArray x = true ∧ s.params.mmioBase.toNat ≤ x ∧ x < s.params.mmioBase.toNat + 4096) →
      exec i s = .refused .windowOverlap) ∧
    ((∀ x, s.inArray x = true → ¬ (s.params.mmioBase.toNat ≤ x ∧ x < s.params.mmioBase.toNat + 4096)) →
      ((∃ x r, s.inArray x = true ∧ r ∈ s.platform.devices ∧ r.lo ≤ x ∧ x < r.hi) →
        exec i s = .refused .sideEffectMemory) ∧
      ((∀ x r, s.inArray x = true → r ∈ s.platform.devices → ¬ (r.lo ≤ x ∧ x < r.hi)) →
        i ≠ .clear →
        (∃ k, k < s.slots.toNat * s.params.wps ∧
          s.wordCleared (s.knownAtIssue h c) (s.base.toNat + 8 * k) = false) →
        exec i s = .refused .notCleared))

/-! ## Steps of a command -/

/-- 41_commands.md R141: the hash step of an ADD or QUERY, both outcomes: an error ends the command with
HASH_ERR, an answer is stored as lane r, and the last one chooses the slot and begins the probe phase. That
an answered request is an event, for the history and for happens-before, and a failed one is not is the
model's reading (log 24). -/
def Obligations.HashStepOfAddAndQuery : Prop :=
  ∀ (s : State) (c lag : Nat) (i : Instr),
    (i = .add ∨ i = .query) → s.Inv → s.turn = .advance c lag → (s.ctx c).h.phase = .hash →
    ∃ t, exec i s = .next t ∧ s.FrameOf c t ∧ s.SameBytes t ∧ t.writes = s.writes ∧
      t.cleared = s.cleared ∧
      (s.hashOK (seedAt s.params s.seed (s.ctx c).h.r) (s.ctx c).entryPtr (s.ctx c).entryLen = false →
        t.EndedWith c .hashErr ∧ (t.ctx c).member = false ∧ (t.ctx c).h.op = (s.ctx c).h.op ∧
        (t.ctx c).probesDone = 0#8 ∧ t.history = s.history ∧ (t.ctx c).hb = (s.ctx c).hb) ∧
      (s.hashOK (seedAt s.params s.seed (s.ctx c).h.r) (s.ctx c).entryPtr (s.ctx c).entryLen = true →
        (t.ctx c).state = .busy ∧ (t.ctx c).h.r = (s.ctx c).h.r + 1 ∧
        (t.ctx c).hb = { (s.ctx c).hb with acted := true } ∧
        t.history = .hashReq c (seedAt s.params s.seed (s.ctx c).h.r) (s.ctx c).entryPtr
          (s.ctx c).entryLen ((t.ctx c).lane (s.ctx c).h.r) :: s.history ∧
        (t.ctx c).lane (s.ctx c).h.r =
          s.hash128 (seedAt s.params s.seed (s.ctx c).h.r)
            (s.entry (s.ctx c).entryPtr (s.ctx c).entryLen) ∧
        (∀ r, r ≠ (s.ctx c).h.r → (t.ctx c).lane r = (s.ctx c).lane r) ∧
        ((s.ctx c).h.r + 1 ≠ (s.ctx c).h.nh → (t.ctx c).h.phase = .hash) ∧
        ((s.ctx c).h.r + 1 = (s.ctx c).h.nh → (t.ctx c).h.phase = .probe ∧ (t.ctx c).h.i = 0 ∧
          (t.ctx c).h.slot = ((t.ctx c).lane 0).low.toNat / 2 ^ s.params.log % s.slots.toNat))

/-- 41_commands.md R147: the probe step of ADD at an address where MemOK (00_scope.md R10) holds: exactly the word at
the probe's address gains the probe's bit, the coherence order of that word gains a write of this command
that replaced the old value (20_memory.md R71), and the last probe ends the command DONE. -/
def Obligations.AddProbeSetsItsBit : Prop :=
  ∀ (s : State) (c lag i a : Nat) (m : Word),
    s.Inv → s.turn = .advance c lag → (s.ctx c).h.phase = .probe →
    (s.ctx c).h.i = i → s.probeAddr c i = a → s.probeMask c i = m → s.memOK a = true →
    ∃ t, exec .add s = .next t ∧ t.word a = s.word a ||| m ∧ s.SameBytesOutside a t ∧
      s.FrameOf c t ∧ t.history = .amoOr c a (s.word a ||| m) (s.word a) :: s.history ∧
      t.writes = ⟨a, s.word a, (s.ctx c).hb.id⟩ :: s.writes ∧ t.cleared = s.cleared ∧
      (t.ctx c).hb = { (s.ctx c).hb with acted := true } ∧
      (t.ctx c).probesDone.toNat = i + 1 ∧ (t.ctx c).h.i = i + 1 ∧ (t.ctx c).member = false ∧
      (t.ctx c).overrun = (s.ctx c).overrun ∧ (t.ctx c).h.op = (s.ctx c).h.op ∧
      (i + 1 ≠ s.probes.toNat → (t.ctx c).state = .busy ∧ (t.ctx c).h.phase = .probe) ∧
      (i + 1 = s.probes.toNat → t.EndedWith c .none)

/-- 41_commands.md R149: the probe step of QUERY at an address where MemOK (00_scope.md R10) holds, for every value
its load may return: short-circuit on a clear bit, DONE with MEMBER = 1 after the last set one. The command
has from then on read the word at the position the load returned (20_memory.md R72 (b)). -/
def Obligations.QueryProbeTestsItsBit : Prop :=
  ∀ (s : State) (c lag i a : Nat) (m v : Word),
    s.Inv → s.turn = .advance c lag → (s.ctx c).h.phase = .probe →
    (s.ctx c).h.op = Instr.query.opcode →
    (s.ctx c).h.i = i → s.probeAddr c i = a → s.probeMask c i = m → s.memOK a = true →
    s.loadValue c a lag = v →
    ∃ t, exec .query s = .next t ∧ s.SameBytes t ∧ t.writes = s.writes ∧ s.FrameOf c t ∧
      t.history = .read c a v :: s.history ∧ (t.ctx c).probesDone.toNat = i + 1 ∧
      t.cleared = s.cleared ∧ (t.ctx c).hb.floor a = s.loadPosition c a lag ∧
      (∀ a2, a2 ≠ a → (t.ctx c).hb.floor a2 = (s.ctx c).hb.floor a2) ∧
      (t.ctx c).hb = { (s.ctx c).hb with seen := (t.ctx c).hb.seen, acted := true } ∧
      (t.ctx c).overrun = (s.ctx c).overrun ∧ (t.ctx c).h.op = (s.ctx c).h.op ∧
      (v &&& m = 0#64 → t.EndedWith c .none ∧ (t.ctx c).member = false) ∧
      (v &&& m ≠ 0#64 → i + 1 = s.probes.toNat → t.EndedWith c .none ∧ (t.ctx c).member = true) ∧
      (v &&& m ≠ 0#64 → i + 1 ≠ s.probes.toNat →
        (t.ctx c).state = .busy ∧ (t.ctx c).h.phase = .probe ∧ (t.ctx c).h.i = i + 1 ∧
          (t.ctx c).member = false)

/-- 41_commands.md R151: the step of CLEAR. Where MemOK (00_scope.md R10) holds word k becomes 0 and the next is word k + 1;
the last word ends the command DONE. The coherence order of the word gains a write (20_memory.md R71), and it
counts as zeroed, for every command, from then on (log 9). Where it does not, the command ends with BUS_ERR and no
memory changes. -/
def Obligations.ClearStepZeroesItsWord : Prop :=
  ∀ (s : State) (c lag k : Nat),
    s.Inv → s.turn = .advance c lag → (s.ctx c).h.phase = .clear → (s.ctx c).h.k = k →
    (s.memOK (s.base.toNat + 8 * k) = true →
      ∃ t, exec .clear s = .next t ∧ t.word (s.base.toNat + 8 * k) = 0#64 ∧
        s.SameBytesOutside (s.base.toNat + 8 * k) t ∧ s.FrameOf c t ∧
        t.history = .write c (s.base.toNat + 8 * k) 0#64 :: s.history ∧
        t.writes = ⟨s.base.toNat + 8 * k, s.word (s.base.toNat + 8 * k), (s.ctx c).hb.id⟩ :: s.writes ∧
        (∀ known, t.wordCleared known (s.base.toNat + 8 * k) = true) ∧
        (∀ known a, a ≠ s.base.toNat + 8 * k → t.wordCleared known a = s.wordCleared known a) ∧
        (t.ctx c).hb = { (s.ctx c).hb with acted := true } ∧
        (t.ctx c).h.k = k + 1 ∧ (t.ctx c).h.op = (s.ctx c).h.op ∧
        (t.ctx c).probesDone = 0#8 ∧ (t.ctx c).member = false ∧
        (t.ctx c).overrun = (s.ctx c).overrun ∧
        (k + 1 ≠ s.slots.toNat * s.params.wps →
          (t.ctx c).state = .busy ∧ (t.ctx c).h.phase = .clear) ∧
        (k + 1 = s.slots.toNat * s.params.wps → t.EndedWith c .none)) ∧
    (s.memOK (s.base.toNat + 8 * k) = false →
      ∃ t, exec .clear s = .next t ∧ t.EndedWith c .busErr ∧ s.SameBytes t ∧ s.FrameOf c t ∧
        t.history = s.history ∧ t.writes = s.writes ∧ (t.ctx c).h.k = k)

/-- 60_exceptions.md R200, R204 and 00_scope.md R10: a transaction of any of the three commands at an address
where MemOK does not hold ends it with BUS_ERR and MEMBER = 0; PROBES_DONE keeps the failing probe index, and no memory changes. -/
def Obligations.BusErrorEndsTheCommand : Prop :=
  ∀ (s : State) (c lag a : Nat) (i : Instr),
    s.Inv → s.turn = .advance c lag → (s.ctx c).h.op = i.opcode →
    (((s.ctx c).h.phase = .probe ∧ a = s.probeAddr c (s.ctx c).h.i) ∨
      ((s.ctx c).h.phase = .clear ∧ a = s.clearAddr (s.ctx c).h.k)) →
    s.memOK a = false →
    ∃ t, exec i s = .next t ∧ t.EndedWith c .busErr ∧ (t.ctx c).member = false ∧
      (t.ctx c).probesDone = (s.ctx c).probesDone ∧
      ((s.ctx c).h.phase = .probe → (t.ctx c).probesDone.toNat = (s.ctx c).h.i) ∧
      (t.ctx c).h.op = (s.ctx c).h.op ∧ (t.ctx c).overrun = (s.ctx c).overrun ∧
      (t.ctx c).hb = (s.ctx c).hb ∧ t.cleared = s.cleared ∧
      t.history = s.history ∧ t.writes = s.writes ∧ s.SameBytes t ∧ s.FrameOf c t

/-! ## Frames -/

/-- Whatever step of whatever command exec performs, nothing changes outside its context, memory, the
history and the coherence order; the entry registers stay. -/
def Obligations.CommandsKeepEverythingElse : Prop :=
  ∀ (i : Instr) (s t : State), exec i s = .next t →
    (∀ h c, s.turn = .issue h c → s.FrameOf c t) ∧
    (∀ c lag, s.turn = .advance c lag → s.FrameOf c t)

/-- The memory frame of each command, the stored address computed as the meaning computes it: QUERY and
every issue store nothing; ADD stores only to its probe's word, CLEAR only to its next word, and neither
in any other phase (41_commands.md R164). -/
def Obligations.CommandsStoreOnlyTheirWord : Prop :=
  ∀ (s t : State),
    (exec .query s = .next t → s.SameBytes t) ∧
    (∀ h c i, s.turn = .issue h c → exec i s = .next t → s.SameBytes t) ∧
    (∀ c lag, s.turn = .advance c lag → exec .add s = .next t →
      s.SameBytesOutside (s.probeAddr c (s.ctx c).h.i) t ∧
      ((s.ctx c).h.phase ≠ .probe → s.SameBytes t)) ∧
    (∀ c lag, s.turn = .advance c lag → exec .clear s = .next t →
      s.SameBytesOutside (s.clearAddr (s.ctx c).h.k) t ∧
      ((s.ctx c).h.phase ≠ .clear → s.SameBytes t))

/-! ## The step -/

/-- 42_register_access.md R183: a step that serves a write of a legal word to ctx[c].CMD is exec of the
decoded command, at the state with the input taken, the port's ok response given, and the issue named
in State.turn (log 1). -/
def Obligations.StepRunsTheWrittenCommand : Prop :=
  ∀ (s : State) (h c : Nat) (w : Word) (i : Instr) (rest : List Input),
    s.inReset = false → s.params.wf = true → nctxWf s.nctx = true → c < s.nctx →
    s.writesNext h (.cmd c) w rest → decodeWord w = .ok i →
    step s = exec i { s with inputs := rest, hostResp := .ok, turn := .issue h c }

/-- 41_commands.md R142, 60_exceptions.md R212: a step that serves a context's turn is exec of the command
the context runs, its step and draw named in State.turn (log 1); a context that runs none takes no step. -/
def Obligations.StepRunsTheRunningCommand : Prop :=
  ∀ (s : State) (c lag : Nat) (rest : List Input),
    s.inReset = false → s.inputs = .sequencer c lag :: rest →
    (∀ i : Instr, (s.ctx c).h.phase ≠ .none → (s.ctx c).h.op = i.opcode →
      step s = exec i { s with inputs := rest, turn := .advance c lag }) ∧
    ((s.ctx c).h.phase = .none → step s = .next { s with inputs := rest })

/-- Every step keeps the invariant: R22, R179, the CLEAR exclusion, the counters' bounds, ERRCODE with
STATE, the canonical memories; and three clauses that are the model's choice: that commands run only on a
bit array in normal memory (log 17) and ADD and QUERY only on a zeroed one (log 9), because the model refuses
the others at their issue, where the block stops neither (20_memory.md R69; 70_reset_and_hazards.md R236);
and the reset values of 10_state.md R43 while reset is asserted (log 19: R230 gives them at release). -/
def Obligations.EveryStepKeepsTheInvariant : Prop :=
  ∀ s t : State, s.Inv → step s = .next t → t.Inv

/-- No state with the invariant faults: the machine's two faults are never reached (10_state.md R22,
60_exceptions.md R204: the block has no trap). And no context's turn and no hardware reset is refused there:
a command once started is never stopped. -/
def Obligations.NoFaultUnderTheInvariant : Prop :=
  (∀ (s : State) (f : Fault), s.Inv → step s ≠ .fault f) ∧
  (∀ (s : State) (c lag : Nat) (rest : List Input), s.Inv → s.inputs = .sequencer c lag :: rest →
    ∃ t, step s = .next t) ∧
  (∀ (s : State) (l : List (Nat × Nat)) (rest : List Input), s.Inv →
    s.inputs = .assertReset l :: rest → ∃ t, step s = .next t)

/-- 20_memory.md R81: while CTRL.EN stays 1, no step changes the configuration a running command reads,
and no step changes the entry registers of a context that stays BUSY. -/
def Obligations.RunningCommandsOperandsFixed : Prop :=
  ∀ s t : State, s.Inv → step s = .next t → t.inReset = false →
    (s.en = true → t.en = true → t.base = s.base ∧ t.slots = s.slots ∧ t.probes = s.probes ∧
      t.seed = s.seed ∧ t.params = s.params) ∧
    (∀ c, (s.ctx c).state = .busy →
      (t.ctx c).entryPtr = (s.ctx c).entryPtr ∧ (t.ctx c).entryLen = (s.ctx c).entryLen)

/-! ## The probe datapath -/

/-- 40_probe_datapath.md R112: seed_r = (SEED + r * K_REGEN) mod 2^64, so seed_0 = SEED. -/
def Obligations.SeedPerturbation : Prop :=
  ∀ (p : Params) (seed : Word) (r : Nat),
    (seedAt p seed r).toNat = (seed.toNat + r * p.kRegen.toNat) % 2 ^ 64 ∧
    seedAt p seed 0 = seed ∧ seedAt p seed (r + 1) = seedAt p seed r + p.kRegen

/-- 40_probe_datapath.md R111: NH(P) for every legal LINE and every P from 1 to 255, W being W_H = W_L =
floor(64 / LOG): 1 if P <= 1 + W, else 1 + ceil((P - 1 - W) / (W + W)), the ceiling being the least number q with
P - 1 - W <= q * (W + W) (00_scope.md R11). And the values that the rule and every row of 95_test_vectors.md
2.1 state. -/
def Obligations.HashCounts : Prop :=
  (∀ (p : Params) (P W : Nat), p.wf = true → 1 ≤ P → P ≤ 255 → W = 64 / (3 + p.lineLog2) →
    (P ≤ 1 + W → p.nh P = 1) ∧
    (1 + W < P → ∃ q, p.nh P = 1 + q ∧ P - 1 - W ≤ q * (W + W) ∧
      ∀ r, P - 1 - W ≤ r * (W + W) → q ≤ r)) ∧
  (∀ (p : Params) (P : Nat), p.lineLog2 = 6 →
    (1 ≤ P ∧ P ≤ 8 → p.nh P = 1) ∧ (9 ≤ P ∧ P ≤ 22 → p.nh P = 2) ∧ (23 ≤ P ∧ P ≤ 36 → p.nh P = 3)) ∧
  (∀ p : Params, p.lineLog2 = 3 →
    [1, 7, 8, 9, 21, 22, 23, 36, 37, 255].map p.nh = [1, 1, 1, 1, 2, 2, 2, 3, 3, 14]) ∧
  (∀ p : Params, p.lineLog2 = 6 →
    [1, 7, 8, 9, 21, 22, 23, 36, 37, 255].map p.nh = [1, 1, 1, 2, 2, 2, 3, 3, 4, 19]) ∧
  (∀ p : Params, p.lineLog2 = 12 →
    [1, 7, 8, 9, 21, 22, 23, 36, 37, 255].map p.nh = [1, 2, 2, 2, 3, 4, 4, 5, 5, 33])

/-- Every lane a probe draws from is among the NH(P) hashes, and NH(P) fits the lanes a context holds
(40_probe_datapath.md R111, R115; 10_state.md R33). -/
def Obligations.HashesSufficeForProbes : Prop :=
  ∀ (p : Params) (P i : Nat) (f g : Nat → Lane), p.wf = true → i < P → P ≤ 255 →
    (∀ r, r < p.nh P → f r = g r) → offset p f i = offset p g i ∧ p.nh P ≤ p.nhMax ∧ p.nhMax ≤ 33

/-- 40_probe_datapath.md R115: the lane and the window of every probe. Probe 0 takes the low LOG bits of
low_0; the next W_H probes take the windows of high_0 in order; then each later hash gives W_H windows of
its high lane and W_L of its low lane, in that order. Every offset is below SB. And R116: the window form win
equals the source's iterated division. -/
def Obligations.OffsetSchedule : Prop :=
  ∀ (p : Params) (lanes : Nat → Lane), p.wf = true →
    offset p lanes 0 = (lanes 0).low.toNat % 2 ^ p.log ∧
    (∀ k, k < 64 / p.log →
      offset p lanes (1 + k) = (lanes 0).high.toNat / 2 ^ (p.log * k) % 2 ^ p.log) ∧
    (∀ r k, k < 64 / p.log →
      offset p lanes (1 + 64 / p.log + 2 * (64 / p.log) * r + k) =
        (lanes (r + 1)).high.toNat / 2 ^ (p.log * k) % 2 ^ p.log ∧
      offset p lanes (1 + 64 / p.log + 2 * (64 / p.log) * r + 64 / p.log + k) =
        (lanes (r + 1)).low.toNat / 2 ^ (p.log * k) % 2 ^ p.log) ∧
    (∀ i, offset p lanes i < 2 ^ p.log) ∧
    ∀ (x : Word) (k : Nat), win p x k = ((fun h => h / p.sb)^[k] x.toNat) % p.sb

/-- 40_probe_datapath.md R118 to R121: every probe of an entry is word offset / 64 of the one slot of R113
and bit offset mod 64, and its address lies in that slot, 8-byte aligned, inside the bit array. -/
def Obligations.ProbesStayInTheirSlot : Prop :=
  ∀ (p : Params) (hash : Word → List Byte → Lane) (seed : Word) (P slots : Nat) (base : Word)
    (entry : List Byte) (i a : Nat) (m : Word),
    p.wf = true → 1 ≤ slots → base.toNat % p.line = 0 →
    (probeList p hash seed P slots base entry)[i]? = some (a, m) →
    (∃ b sa, b = offset p (fun r => hash (seedAt p seed r) entry) i ∧
      sa = base.toNat + (hash seed entry).low.toNat / 2 ^ p.log % slots * p.line ∧
      a = sa + 8 * (b / 64) ∧ m.toNat = 2 ^ (b % 64) ∧ sa ≤ a ∧ a + 8 ≤ sa + p.line) ∧
    i < P ∧ a % 8 = 0 ∧ base.toNat ≤ a ∧ a + 8 ≤ base.toNat + slots * p.line

/-- 40_probe_datapath.md R119: the mask has exactly one bit set, bit b mod 64. -/
def Obligations.MaskHasOneBit : Prop :=
  ∀ b j : Nat, (mask b).getLsbD j = true ↔ j = b % 64

/-- 20_memory.md R61: byte A+j of the word at A is bits 8j+7..8j, and bit b of slot s is bit b mod 8 of
the byte at BASE + s*LINE + b/8. -/
def Obligations.LittleEndianBitOrder : Prop :=
  ∀ (s : State) (a b : Nat),
    (s.word (a + 8 * (b / 64))).getLsbD (b % 64) = (s.byte (a + b / 8)).getLsbD (b % 8)

/-- 40_probe_datapath.md R124: in its probe phase a running command's probe i is entry i of the reference
probe list, given that its lanes are the hashes of its entry. -/
def Obligations.RunningCommandUsesTheReferenceList : Prop :=
  ∀ (s : State) (c i : Nat), s.Inv → s.LanesOk c → (s.ctx c).h.phase = .probe → i < s.probes.toNat →
    (s.probesOf (s.ctx c).entryPtr (s.ctx c).entryLen)[i]? = some (s.probeAddr c i, s.probeMask c i)

/-- 40_probe_datapath.md R110, R122: every step keeps the lanes of every running command the hashes of
its entry under the perturbed seeds. -/
def Obligations.EveryStepKeepsTheLanes : Prop :=
  ∀ s t : State, s.Inv → (∀ c, s.LanesOk c) → step s = .next t → ∀ c, t.LanesOk c

/-- Every step keeps the numbering of commands by which happens-before is told (log 13): a fresh number
is above every context's, a command, running or ended, counts itself and what was before it in its context
among what happens-before its events, and a command that ended DONE has performed an event. And what
happens-before a context's next event never shrinks, whatever commands end there without an event: a
context's events are totally ordered (41_commands.md R143). -/
def Obligations.EveryStepKeepsTheNumbering : Prop :=
  ∀ s t : State, s.Inv → s.IdsOk → step s = .next t →
    t.IdsOk ∧ ∀ c n, n ∈ (s.ctx c).hb.carried → n ∈ (t.ctx c).hb.carried

/-! ## Consistency -/

/-- 20_memory.md R71, R72: the value of a word n + 1 writes ago is the one its write number n, counted from
the latest, replaced. Whatever the draw, a QUERY's load returns the value at a position of its word's
coherence order that no write known to happen before it is later than, and not before what the command
has read; and every such position is returned under some draw. That only performed writes are candidates
is read from R71 (log 11); a draw is clipped to them (log 12). -/
def Obligations.LoadReturnsWhatR72Admits : Prop :=
  ∀ (s : State) (c a : Nat),
    (s.pastWord a 0 = s.word a ∧
      ∀ n w, (s.writes.filter fun w => w.addr == a)[n]? = some w → s.pastWord a (n + 1) = w.old) ∧
    (∀ lag, ∃ back, s.loadValue c a lag = s.pastWord a back ∧
      s.loadPosition c a lag = (s.wordWrites a).length - back ∧
      (∀ j, j < back → ∀ w, (s.wordWrites a)[j]? = some w → w.id ∉ (s.ctx c).hb.known) ∧
      back ≤ (s.wordWrites a).length - (s.ctx c).hb.floor a ∧ back ≤ (s.wordWrites a).length) ∧
    (∀ back, (∀ j, j < back → ∀ w, (s.wordWrites a)[j]? = some w → w.id ∉ (s.ctx c).hb.known) →
      back ≤ (s.wordWrites a).length - (s.ctx c).hb.floor a →
      ∃ lag, s.loadValue c a lag = s.pastWord a back) ∧
    s.loadValue c a 0 = s.word a

/-- The litmus tests LT.1 and LT.2 of 95_test_vectors.md at one word (20_memory.md R72, R74). After an ADD's
step, a load of its word by another context's command that does not know of the ADD may return the value
before it and may return the value with the bit. And a QUERY issued in whatever later state, while the word has
had no write since, by a host that has seen the ADD's end (the ADD is among what happens-before the command it
issues), loads only the value with the bit. How an observed end gets there: ObservationOrdersTheNextCommand. -/
def Obligations.ConcurrentAddMayBeMissed : Prop :=
  ∀ (s t : State) (c c2 lag a : Nat) (m : Word),
    s.turn = .advance c lag → (s.ctx c).h.phase = .probe →
    s.probeAddr c (s.ctx c).h.i = a → s.probeMask c (s.ctx c).h.i = m → s.reach a = .ok →
    exec .add s = .next t →
    (c2 ≠ c → (s.ctx c2).hb.floor a ≤ (s.wordWrites a).length →
      (s.ctx c).hb.id ∉ (s.ctx c2).hb.known →
      (∃ l, t.loadValue c2 a l = s.word a) ∧ ∃ l, t.loadValue c2 a l = s.word a ||| m) ∧
    (∀ (u v : State) (h : Nat),
      u.turn = .issue h c2 → c2 < u.nctx → (u.ctx c2).state ≠ .busy →
      u.word a = t.word a → u.wordWrites a = t.wordWrites a →
      (s.ctx c).hb.id ∈ u.knownAtIssue h c2 → exec .query u = .next v →
      ∀ l, v.loadValue c2 a l = s.word a ||| m)

/-- 20_memory.md R73 items 3 and 4, and R74. A host's read of DONE or ERROR, then its accepted CMD write, orders
the events of the ended command, and all that happens-before them, before the new one's; a read of STATUS orders
nothing else, for no other host, and one that shows IDLE or BUSY nothing at all; the hosts' own
synchronisation carries this from host to host; and so are the context's earlier events ordered.
A command that has performed no event passes nothing to the host, and in its context hands on what was before
it (41_commands.md R143). The numbers, the hosts' lists and what counts as an event are the model's form of
R73 (log 13, log 14, log 24). -/
def Obligations.ObservationOrdersTheNextCommand : Prop :=
  (∀ (s : State) (h c : Nat) (rest : List Input),
    s.inReset = false → s.params.wf = true → nctxWf s.nctx = true → c < s.nctx →
    s.readsNext h (.status c) rest →
    ∃ t, step s = .next t ∧
      (∀ n, n ∈ t.knownBy h ↔ n ∈ s.knownBy h ∨
        (((s.ctx c).state = .done ∨ (s.ctx c).state = .error) ∧ (s.ctx c).hb.acted = true ∧
          n ∈ (s.ctx c).hb.known)) ∧
      (∀ h2, h2 ≠ h → t.knownBy h2 = s.knownBy h2) ∧
      (¬ (((s.ctx c).state = .done ∨ (s.ctx c).state = .error) ∧ (s.ctx c).hb.acted = true) →
        t.knownBy h = s.knownBy h) ∧
      (s.IdsOk →
        ((s.ctx c).state = .done ∨ ((s.ctx c).state = .error ∧ (s.ctx c).hb.acted = true)) →
        (s.ctx c).hb.id ∈ t.knownBy h ∧ ∀ n, n ∈ (s.ctx c).hb.known → n ∈ t.knownBy h)) ∧
  (∀ (s : State) (src dst : Nat) (rest : List Input), s.inputs = .sync src dst :: rest →
    ∃ t, step s = .next t ∧ t = { s with inputs := rest, observed := t.observed } ∧
      (∀ n, n ∈ t.knownBy dst ↔ n ∈ s.knownBy dst ∨ n ∈ s.knownBy src) ∧
      ∀ h, h ≠ dst → t.knownBy h = s.knownBy h) ∧
  (∀ (s t : State) (h c : Nat) (i : Instr),
    s.turn = .issue h c → c < s.nctx → (s.ctx c).state ≠ .busy → exec i s = .next t →
    (t.ctx c).hb.id = s.nextId ∧ (t.ctx c).hb.acted = false ∧ (t.ctx c).hb.seen = [] ∧
    (∀ n, n ∈ (t.ctx c).hb.known ↔ n = s.nextId ∨ n ∈ s.knownBy h ∨
      ((s.ctx c).hb.acted = true ∧ n ∈ (s.ctx c).hb.known) ∨
      ((s.ctx c).hb.acted = false ∧ n ∈ (s.ctx c).hb.past)) ∧
    ∀ n, n ∈ (t.ctx c).hb.past ↔
      ((s.ctx c).hb.acted = true ∧ n ∈ (s.ctx c).hb.known) ∨
      ((s.ctx c).hb.acted = false ∧ n ∈ (s.ctx c).hb.past))

/-- 20_memory.md R76: while no CLEAR runs and no other agent writes the bit array, every aligned word only
gains bits in any step. -/
def Obligations.WordsOnlyGainBits : Prop :=
  ∀ (s t : State) (a : Nat), s.Inv → s.clearActive = false →
    (∀ h k v rest, s.inputs ≠ .hostStore h k v :: rest) → a % 8 = 0 → step s = .next t →
    s.word a &&& t.word a = s.word a

/-- 20_memory.md R79: a host store to the bit array while CTRL.EN = 1 is refused; one to normal memory
outside it, or with CTRL.EN = 0, writes its word and no other byte, and no context changes. The rest is the
model's choice: the refusals (log 15, log 17); that the store is a write of the word's coherence order (log 15);
that it happens-before what the same host does next, with no fence asked (log 13, log 14); and that a store
of 0 counts as the zeroing of 70_reset_and_hazards.md R235 for the commands it happens-before, while any other
value takes the word's zeroing back (log 9). -/
def Obligations.OnlyTheBlockWritesTheArray : Prop :=
  ∀ (s : State) (h a : Nat) (k : BitVec 61) (v : Word) (rest : List Input),
    s.inputs = .hostStore h k v :: rest → a = 8 * k.toNat →
    (s.en = true ∧ s.inArray a = true → step s = .refused .otherWriter) ∧
    (¬ (s.en = true ∧ s.inArray a = true) →
      (∀ r, s.refuses a 8 = some r → step s = .refused r) ∧
      (s.refuses a 8 = none →
        ∃ t, step s = .next t ∧ t.word a = v ∧ s.SameBytesOutside a t ∧
          t.ctxs = s.ctxs ∧ t.writes = ⟨a, s.word a, s.nextId⟩ :: s.writes ∧
          s.nextId ∈ t.knownBy h ∧ t.nextId = s.nextId + 1 ∧
          (∀ known, t.wordCleared known a = (decide (v = 0#64) && known.contains s.nextId)) ∧
          ∀ known a2, a2 ≠ a → t.wordCleared known a2 = s.wordCleared known a2))

/-- 20_memory.md R62, R72 (a) and 70_reset_and_hazards.md R244: a host's load of memory, of any width and
alignment, returns for each word it reaches the bytes of one value R72 (a) admits, each where R61 puts it; it
changes nothing; every admitted value is returned under some draw, the latest with no draw given. One that
meets the register window or a region with side effects is refused (log 15, log 17). -/
def Obligations.HostLoadsSeeAdmittedBytes : Prop :=
  (∀ (s : State) (h n : Nat) (addr : Word) (lags : List Nat) (rest : List Input),
    s.inputs = .hostLoad h addr n lags :: rest →
    (∀ r, s.refuses addr.toNat n = some r → step s = .refused r) ∧
    (s.refuses addr.toNat n = none → addr.toNat + n ≤ 2 ^ 64 →
      ∃ bs, step s = .next { s with inputs := rest, hostResp := .bytes bs } ∧ bs.length = n ∧
        (∃ back : Nat → Nat, ∀ j w, j < n → w = (addr.toNat + j) / 8 * 8 →
          bs[j]? = some ((s.pastWord w (back w)).extractLsb' (8 * ((addr.toNat + j) % 8)) 8) ∧
          back w ≤ (s.wordWrites w).length ∧
          ∀ b, b < back w → ∀ e, (s.wordWrites w)[b]? = some e → e.id ∉ s.knownBy h) ∧
        (lags = [] → ∀ j, j < n → bs[j]? = some (s.byte (addr.toNat + j))))) ∧
  (∀ (s : State) (h back : Nat) (addr : Word), s.refuses addr.toNat 8 = none → addr.toNat % 8 = 0 →
    back ≤ (s.wordWrites addr.toNat).length →
    (∀ b, b < back → ∀ e, (s.wordWrites addr.toNat)[b]? = some e → e.id ∉ s.knownBy h) →
    ∃ lag, step { s with inputs := [.hostLoad h addr 8 [lag]] } =
      .next { s with inputs := [], hostResp := .bytes (bytesOf (s.pastWord addr.toNat back)) })

/-- 20_memory.md R80 and 70_reset_and_hazards.md R239: a change of an entry byte inside the span of a BUSY
ADD or QUERY is refused; any other changes that byte of the entry space and nothing else. The refusal is the
model's choice (log 16). -/
def Obligations.EntryBytesKeptWhileHashed : Prop :=
  ∀ (s : State) (a : Word) (b : Byte) (rest : List Input), s.inputs = .entryStore a b :: rest →
    ((∃ c, c < s.nctx ∧ (s.ctx c).state = .busy ∧ (s.ctx c).h.op ≠ Instr.clear.opcode ∧
        (s.ctx c).entryPtr.toNat ≤ a.toNat ∧
        a.toNat < (s.ctx c).entryPtr.toNat + (s.ctx c).entryLen.toNat) →
      step s = .refused .entryChanged) ∧
    ((∀ c, c < s.nctx → (s.ctx c).state = .busy → (s.ctx c).h.op ≠ Instr.clear.opcode →
        ¬ ((s.ctx c).entryPtr.toNat ≤ a.toNat ∧
          a.toNat < (s.ctx c).entryPtr.toNat + (s.ctx c).entryLen.toNat)) →
      ∃ t, step s = .next t ∧ t = { s with inputs := rest, entries := t.entries } ∧
        t.entryByte a.toNat = b ∧ ∀ x, x ≠ a.toNat → t.entryByte x = s.entryByte x)

/-! ## Runs -/

/-- 41_commands.md R153 and R152: a CLEAR just accepted, given one turn for each of the SLOTS*WPS words
and a platform that completes them, is BUSY before the last of them and after it has ended DONE with every
word of the bit array 0, and no byte outside the bit array changed. -/
def Obligations.ClearRunsToDone : Prop :=
  ∀ (s : State) (c : Nat) (lags : List Nat) (rest : List Input),
    s.Inv → (s.ctx c).h.phase = .clear → (s.ctx c).h.k = 0 →
    lags.length = s.slots.toNat * s.params.wps →
    s.inputs = lags.map (Input.sequencer c) ++ rest →
    (∀ k, k < s.slots.toNat * s.params.wps → s.memOK (s.clearAddr k) = true) →
    (∀ n, n < s.slots.toNat * s.params.wps → ∃ u, core.run n s = .next u ∧ (u.ctx c).state = .busy) ∧
    ∃ t, core.run (s.slots.toNat * s.params.wps) s = .next t ∧ t.inputs = rest ∧
      t.EndedWith c .none ∧
      (∀ k, k < s.slots.toNat * s.params.wps → t.word (s.clearAddr k) = 0#64) ∧
      (∀ x, s.inArray x = false → t.byte x = s.byte x)

/-- 41_commands.md R153, R147, R148: an ADD just accepted, given NH(P) + P turns and a platform that
answers them, is BUSY before the last of them and after it has ended DONE with PROBES_DONE = P and every bit of its reference probe list set. -/
def Obligations.AddRunsToDone : Prop :=
  ∀ (s : State) (c : Nat) (lags : List Nat) (rest : List Input),
    s.Inv → (s.ctx c).h.phase = .hash → (s.ctx c).h.r = 0 → (s.ctx c).h.op = Instr.add.opcode →
    lags.length = s.params.nh s.probes.toNat + s.probes.toNat →
    s.inputs = lags.map (Input.sequencer c) ++ rest →
    (∀ r, r < s.params.nh s.probes.toNat →
      s.hashOK (seedAt s.params s.seed r) (s.ctx c).entryPtr (s.ctx c).entryLen = true) →
    (∀ a m, (a, m) ∈ s.probesOf (s.ctx c).entryPtr (s.ctx c).entryLen → s.memOK a = true) →
    (∀ n, n < s.params.nh s.probes.toNat + s.probes.toNat →
      ∃ u, core.run n s = .next u ∧ (u.ctx c).state = .busy) ∧
    ∃ t, core.run (s.params.nh s.probes.toNat + s.probes.toNat) s = .next t ∧ t.inputs = rest ∧
      t.EndedWith c .none ∧ (t.ctx c).probesDone = s.probes ∧
      (∀ a m, (a, m) ∈ s.probesOf (s.ctx c).entryPtr (s.ctx c).entryLen → t.word a &&& m = m)

/-- 41_commands.md R153, R149, R150: a QUERY just accepted, given NH(P) + P turns in which every load
returns the latest value and a platform that answers them, is BUSY through its NH(P) hash steps and at the
end has ended DONE, and MEMBER = 1 exactly when every
bit of its reference probe list is set in memory, which it leaves unchanged. -/
def Obligations.QueryRunsToDone : Prop :=
  ∀ (s : State) (c : Nat) (rest : List Input),
    s.Inv → (s.ctx c).h.phase = .hash → (s.ctx c).h.r = 0 → (s.ctx c).h.op = Instr.query.opcode →
    s.inputs =
      List.replicate (s.params.nh s.probes.toNat + s.probes.toNat) (Input.sequencer c 0) ++ rest →
    (∀ r, r < s.params.nh s.probes.toNat →
      s.hashOK (seedAt s.params s.seed r) (s.ctx c).entryPtr (s.ctx c).entryLen = true) →
    (∀ a m, (a, m) ∈ s.probesOf (s.ctx c).entryPtr (s.ctx c).entryLen → s.memOK a = true) →
    (∀ n, n ≤ s.params.nh s.probes.toNat →
      ∃ u, core.run n s = .next u ∧ (u.ctx c).state = .busy) ∧
    ∃ t, core.run (s.params.nh s.probes.toNat + s.probes.toNat) s = .next t ∧ t.inputs = rest ∧
      t.EndedWith c .none ∧ s.SameBytes t ∧
      ((t.ctx c).member = true ↔
        ∀ a m, (a, m) ∈ s.probesOf (s.ctx c).entryPtr (s.ctx c).entryLen → s.word a &&& m = m)

/-- 41_commands.md R149 and R162: a QUERY just accepted, when every value its loads may return is 0 in every
word of the bit array, reads one word under every draw: it is BUSY through its NH(P) hash steps, and after one turn more it has
ended DONE with MEMBER = 0 and PROBES_DONE = 1, and memory is as before. That a CLEAR brings this about:
QueryAfterClearFindsNothing. -/
def Obligations.QueryOfAClearedArray : Prop :=
  ∀ (s : State) (c : Nat) (lags : List Nat) (rest : List Input),
    s.Inv → (s.ctx c).h.phase = .hash → (s.ctx c).h.r = 0 → (s.ctx c).h.op = Instr.query.opcode →
    lags.length = s.params.nh s.probes.toNat + 1 →
    s.inputs = lags.map (Input.sequencer c) ++ rest →
    (∀ r, r < s.params.nh s.probes.toNat →
      s.hashOK (seedAt s.params s.seed r) (s.ctx c).entryPtr (s.ctx c).entryLen = true) →
    (∀ k, k < s.slots.toNat * s.params.wps → s.memOK (s.clearAddr k) = true ∧
      ∀ lag, lag ≤ s.maxLag (s.clearAddr k) (s.ctx c).hb.known 0 →
        s.pastWord (s.clearAddr k) lag = 0#64) →
    (∀ n, n ≤ s.params.nh s.probes.toNat →
      ∃ u, core.run n s = .next u ∧ (u.ctx c).state = .busy) ∧
    ∃ t, core.run (s.params.nh s.probes.toNat + 1) s = .next t ∧ t.inputs = rest ∧
      t.EndedWith c .none ∧ (t.ctx c).member = false ∧ (t.ctx c).probesDone = 1#8 ∧ s.SameBytes t

/-- 41_commands.md R162, under every schedule and every draw of a load. A CLEAR is just accepted in context a
at state s; the run reaches t, where that CLEAR has ended DONE, then u, where a QUERY is just accepted in context
q and the CLEAR happens-before it (as when its host has read the CLEAR's DONE); then v. In between CTRL.EN
stays 1 and no ADD runs; whatever else the hosts do is allowed. If that QUERY ended DONE at v, then MEMBER = 0
and PROBES_DONE = 1. And at t every word of the bit array is 0. -/
def Obligations.QueryAfterClearFindsNothing : Prop :=
  ∀ (s t u v : State) (a q n1 n2 n3 : Nat),
    s.Inv → s.IdsOk →
    (s.ctx a).h.phase = .clear → (s.ctx a).h.k = 0 →
    core.run n1 s = .next t → (t.ctx a).hb.id = (s.ctx a).hb.id → (t.ctx a).state = .done →
    s.RunsNoAdd n1 →
    (∀ k, k < t.slots.toNat * t.params.wps → t.word (t.clearAddr k) = 0#64) ∧
    (core.run n2 t = .next u →
      (u.ctx q).h.phase = .hash → (u.ctx q).h.r = 0 → (u.ctx q).h.op = Instr.query.opcode →
      (s.ctx a).hb.id ∈ (u.ctx q).hb.known →
      core.run n3 u = .next v → (v.ctx q).hb.id = (u.ctx q).hb.id → (v.ctx q).state = .done →
      t.RunsNoAdd n2 → u.RunsNoAdd n3 →
      (v.ctx q).member = false ∧ (v.ctx q).probesDone = 1#8)

/-- 41_commands.md R160, no false negatives, under every schedule and every draw of a load. An ADD is just
accepted in context a at state s; the run reaches t, where that ADD has ended DONE, then u, where a QUERY
of the same entry bytes is just accepted in context q and the ADD happens-before it; then v. In between
CTRL.EN stays 1 and no CLEAR runs; whatever else the hosts do is allowed (a store to the bit array, or to
an entry a running command hashes, is refused). If that QUERY ended DONE at v, then MEMBER = 1. -/
def Obligations.NoFalseNegatives : Prop :=
  ∀ (s t u v : State) (a q n1 n2 n3 : Nat),
    s.Inv → s.IdsOk → (∀ c, s.LanesOk c) →
    (s.ctx a).h.phase = .hash → (s.ctx a).h.r = 0 → (s.ctx a).h.op = Instr.add.opcode →
    core.run n1 s = .next t → (t.ctx a).hb.id = (s.ctx a).hb.id → (t.ctx a).state = .done →
    core.run n2 t = .next u →
    (u.ctx q).h.phase = .hash → (u.ctx q).h.r = 0 → (u.ctx q).h.op = Instr.query.opcode →
    (s.ctx a).hb.id ∈ (u.ctx q).hb.known →
    u.entry (u.ctx q).entryPtr (u.ctx q).entryLen = s.entry (s.ctx a).entryPtr (s.ctx a).entryLen →
    core.run n3 u = .next v → (v.ctx q).hb.id = (u.ctx q).hb.id → (v.ctx q).state = .done →
    s.KeepsFilter n1 → t.KeepsFilter n2 → u.KeepsFilter n3 →
    (v.ctx q).member = true

/-- 41_commands.md R153, 20_memory.md R78 and 70_reset_and_hazards.md R241, R246: on a weakly fair schedule
that the model does not refuse, no context stays BUSY for ever, from any state with the invariant and
whatever else the schedule does. -/
def Obligations.FairRunsEndEveryCommand : Prop :=
  ∀ (s : State) (sched : Schedule) (c : Nat), s.Inv → s.WeaklyFair sched →
    (∀ n, ∃ t, runUnder sched s n = .next t) →
    ∀ n, ∃ m t, n ≤ m ∧ runUnder sched s m = .next t ∧ (t.ctx c).state ≠ .busy
end

