-- ==== Sys2Proof/Laws/State.lean ====
section
/-! SUPPORT. One lemma per field per update of State, true by rfl, so that no later proof unfolds a
record update; and what a context reads as after an update. -/

namespace Sys2Proof.Machine

variable (s : State)

/-! ### setCtx -/

@[simp] theorem State.setCtx_params (c : Nat) (x : Ctx) : (s.setCtx c x).params = s.params := rfl
@[simp] theorem State.setCtx_platform (c : Nat) (x : Ctx) : (s.setCtx c x).platform = s.platform := rfl
@[simp] theorem State.setCtx_en (c : Nat) (x : Ctx) : (s.setCtx c x).en = s.en := rfl
@[simp] theorem State.setCtx_cfgErr (c : Nat) (x : Ctx) : (s.setCtx c x).cfgErr = s.cfgErr := rfl
@[simp] theorem State.setCtx_lockViol (c : Nat) (x : Ctx) : (s.setCtx c x).lockViol = s.lockViol := rfl
@[simp] theorem State.setCtx_base (c : Nat) (x : Ctx) : (s.setCtx c x).base = s.base := rfl
@[simp] theorem State.setCtx_slots (c : Nat) (x : Ctx) : (s.setCtx c x).slots = s.slots := rfl
@[simp] theorem State.setCtx_probes (c : Nat) (x : Ctx) : (s.setCtx c x).probes = s.probes := rfl
@[simp] theorem State.setCtx_seed (c : Nat) (x : Ctx) : (s.setCtx c x).seed = s.seed := rfl
@[simp] theorem State.setCtx_ctxs (c : Nat) (x : Ctx) : (s.setCtx c x).ctxs = s.ctxs.set c x := rfl
@[simp] theorem State.setCtx_inReset (c : Nat) (x : Ctx) : (s.setCtx c x).inReset = s.inReset := rfl
@[simp] theorem State.setCtx_mem (c : Nat) (x : Ctx) : (s.setCtx c x).mem = s.mem := rfl
@[simp] theorem State.setCtx_entries (c : Nat) (x : Ctx) : (s.setCtx c x).entries = s.entries := rfl
@[simp] theorem State.setCtx_writes (c : Nat) (x : Ctx) : (s.setCtx c x).writes = s.writes := rfl
@[simp] theorem State.setCtx_cleared (c : Nat) (x : Ctx) : (s.setCtx c x).cleared = s.cleared := rfl
@[simp] theorem State.setCtx_history (c : Nat) (x : Ctx) : (s.setCtx c x).history = s.history := rfl
@[simp] theorem State.setCtx_observed (c : Nat) (x : Ctx) : (s.setCtx c x).observed = s.observed := rfl
@[simp] theorem State.setCtx_nextId (c : Nat) (x : Ctx) : (s.setCtx c x).nextId = s.nextId := rfl
@[simp] theorem State.setCtx_hostResp (c : Nat) (x : Ctx) : (s.setCtx c x).hostResp = s.hostResp := rfl
@[simp] theorem State.setCtx_turn (c : Nat) (x : Ctx) : (s.setCtx c x).turn = s.turn := rfl
@[simp] theorem State.setCtx_inputs (c : Nat) (x : Ctx) : (s.setCtx c x).inputs = s.inputs := rfl

/-! ### respond -/

@[simp] theorem State.respond_params (r : HostResp) : (s.respond r).params = s.params := rfl
@[simp] theorem State.respond_platform (r : HostResp) : (s.respond r).platform = s.platform := rfl
@[simp] theorem State.respond_en (r : HostResp) : (s.respond r).en = s.en := rfl
@[simp] theorem State.respond_cfgErr (r : HostResp) : (s.respond r).cfgErr = s.cfgErr := rfl
@[simp] theorem State.respond_lockViol (r : HostResp) : (s.respond r).lockViol = s.lockViol := rfl
@[simp] theorem State.respond_base (r : HostResp) : (s.respond r).base = s.base := rfl
@[simp] theorem State.respond_slots (r : HostResp) : (s.respond r).slots = s.slots := rfl
@[simp] theorem State.respond_probes (r : HostResp) : (s.respond r).probes = s.probes := rfl
@[simp] theorem State.respond_seed (r : HostResp) : (s.respond r).seed = s.seed := rfl
@[simp] theorem State.respond_ctxs (r : HostResp) : (s.respond r).ctxs = s.ctxs := rfl
@[simp] theorem State.respond_inReset (r : HostResp) : (s.respond r).inReset = s.inReset := rfl
@[simp] theorem State.respond_mem (r : HostResp) : (s.respond r).mem = s.mem := rfl
@[simp] theorem State.respond_entries (r : HostResp) : (s.respond r).entries = s.entries := rfl
@[simp] theorem State.respond_writes (r : HostResp) : (s.respond r).writes = s.writes := rfl
@[simp] theorem State.respond_cleared (r : HostResp) : (s.respond r).cleared = s.cleared := rfl
@[simp] theorem State.respond_history (r : HostResp) : (s.respond r).history = s.history := rfl
@[simp] theorem State.respond_observed (r : HostResp) : (s.respond r).observed = s.observed := rfl
@[simp] theorem State.respond_nextId (r : HostResp) : (s.respond r).nextId = s.nextId := rfl
@[simp] theorem State.respond_hostResp (r : HostResp) : (s.respond r).hostResp = r := rfl
@[simp] theorem State.respond_turn (r : HostResp) : (s.respond r).turn = s.turn := rfl
@[simp] theorem State.respond_inputs (r : HostResp) : (s.respond r).inputs = s.inputs := rfl

/-! ### record -/

@[simp] theorem State.record_params (e : PortEvent) : (s.record e).params = s.params := rfl
@[simp] theorem State.record_platform (e : PortEvent) : (s.record e).platform = s.platform := rfl
@[simp] theorem State.record_en (e : PortEvent) : (s.record e).en = s.en := rfl
@[simp] theorem State.record_cfgErr (e : PortEvent) : (s.record e).cfgErr = s.cfgErr := rfl
@[simp] theorem State.record_lockViol (e : PortEvent) : (s.record e).lockViol = s.lockViol := rfl
@[simp] theorem State.record_base (e : PortEvent) : (s.record e).base = s.base := rfl
@[simp] theorem State.record_slots (e : PortEvent) : (s.record e).slots = s.slots := rfl
@[simp] theorem State.record_probes (e : PortEvent) : (s.record e).probes = s.probes := rfl
@[simp] theorem State.record_seed (e : PortEvent) : (s.record e).seed = s.seed := rfl
@[simp] theorem State.record_ctxs (e : PortEvent) : (s.record e).ctxs = s.ctxs := rfl
@[simp] theorem State.record_inReset (e : PortEvent) : (s.record e).inReset = s.inReset := rfl
@[simp] theorem State.record_mem (e : PortEvent) : (s.record e).mem = s.mem := rfl
@[simp] theorem State.record_entries (e : PortEvent) : (s.record e).entries = s.entries := rfl
@[simp] theorem State.record_writes (e : PortEvent) : (s.record e).writes = s.writes := rfl
@[simp] theorem State.record_cleared (e : PortEvent) : (s.record e).cleared = s.cleared := rfl
@[simp] theorem State.record_history (e : PortEvent) : (s.record e).history = e :: s.history := rfl
@[simp] theorem State.record_observed (e : PortEvent) : (s.record e).observed = s.observed := rfl
@[simp] theorem State.record_nextId (e : PortEvent) : (s.record e).nextId = s.nextId := rfl
@[simp] theorem State.record_hostResp (e : PortEvent) : (s.record e).hostResp = s.hostResp := rfl
@[simp] theorem State.record_turn (e : PortEvent) : (s.record e).turn = s.turn := rfl
@[simp] theorem State.record_inputs (e : PortEvent) : (s.record e).inputs = s.inputs := rfl

/-! ### learn -/

@[simp] theorem State.learn_params (h : Nat) (ids : List Nat) : (s.learn h ids).params = s.params := rfl
@[simp] theorem State.learn_platform (h : Nat) (ids : List Nat) : (s.learn h ids).platform = s.platform := rfl
@[simp] theorem State.learn_en (h : Nat) (ids : List Nat) : (s.learn h ids).en = s.en := rfl
@[simp] theorem State.learn_cfgErr (h : Nat) (ids : List Nat) : (s.learn h ids).cfgErr = s.cfgErr := rfl
@[simp] theorem State.learn_lockViol (h : Nat) (ids : List Nat) : (s.learn h ids).lockViol = s.lockViol := rfl
@[simp] theorem State.learn_base (h : Nat) (ids : List Nat) : (s.learn h ids).base = s.base := rfl
@[simp] theorem State.learn_slots (h : Nat) (ids : List Nat) : (s.learn h ids).slots = s.slots := rfl
@[simp] theorem State.learn_probes (h : Nat) (ids : List Nat) : (s.learn h ids).probes = s.probes := rfl
@[simp] theorem State.learn_seed (h : Nat) (ids : List Nat) : (s.learn h ids).seed = s.seed := rfl
@[simp] theorem State.learn_ctxs (h : Nat) (ids : List Nat) : (s.learn h ids).ctxs = s.ctxs := rfl
@[simp] theorem State.learn_inReset (h : Nat) (ids : List Nat) : (s.learn h ids).inReset = s.inReset := rfl
@[simp] theorem State.learn_mem (h : Nat) (ids : List Nat) : (s.learn h ids).mem = s.mem := rfl
@[simp] theorem State.learn_entries (h : Nat) (ids : List Nat) : (s.learn h ids).entries = s.entries := rfl
@[simp] theorem State.learn_writes (h : Nat) (ids : List Nat) : (s.learn h ids).writes = s.writes := rfl
@[simp] theorem State.learn_cleared (h : Nat) (ids : List Nat) : (s.learn h ids).cleared = s.cleared := rfl
@[simp] theorem State.learn_history (h : Nat) (ids : List Nat) : (s.learn h ids).history = s.history := rfl
@[simp] theorem State.learn_nextId (h : Nat) (ids : List Nat) : (s.learn h ids).nextId = s.nextId := rfl
@[simp] theorem State.learn_hostResp (h : Nat) (ids : List Nat) : (s.learn h ids).hostResp = s.hostResp := rfl
@[simp] theorem State.learn_turn (h : Nat) (ids : List Nat) : (s.learn h ids).turn = s.turn := rfl
@[simp] theorem State.learn_inputs (h : Nat) (ids : List Nat) : (s.learn h ids).inputs = s.inputs := rfl

/-! ### writeWord -/

@[simp] theorem State.writeWord_params (a : Nat) (v : Word) (id : Nat) : (s.writeWord a v id).params = s.params := rfl
@[simp] theorem State.writeWord_platform (a : Nat) (v : Word) (id : Nat) : (s.writeWord a v id).platform = s.platform := rfl
@[simp] theorem State.writeWord_en (a : Nat) (v : Word) (id : Nat) : (s.writeWord a v id).en = s.en := rfl
@[simp] theorem State.writeWord_cfgErr (a : Nat) (v : Word) (id : Nat) : (s.writeWord a v id).cfgErr = s.cfgErr := rfl
@[simp] theorem State.writeWord_lockViol (a : Nat) (v : Word) (id : Nat) : (s.writeWord a v id).lockViol = s.lockViol := rfl
@[simp] theorem State.writeWord_base (a : Nat) (v : Word) (id : Nat) : (s.writeWord a v id).base = s.base := rfl
@[simp] theorem State.writeWord_slots (a : Nat) (v : Word) (id : Nat) : (s.writeWord a v id).slots = s.slots := rfl
@[simp] theorem State.writeWord_probes (a : Nat) (v : Word) (id : Nat) : (s.writeWord a v id).probes = s.probes := rfl
@[simp] theorem State.writeWord_seed (a : Nat) (v : Word) (id : Nat) : (s.writeWord a v id).seed = s.seed := rfl
@[simp] theorem State.writeWord_ctxs (a : Nat) (v : Word) (id : Nat) : (s.writeWord a v id).ctxs = s.ctxs := rfl
@[simp] theorem State.writeWord_inReset (a : Nat) (v : Word) (id : Nat) : (s.writeWord a v id).inReset = s.inReset := rfl
@[simp] theorem State.writeWord_mem (a : Nat) (v : Word) (id : Nat) : (s.writeWord a v id).mem = Memory.storeWord s.mem a v := rfl
@[simp] theorem State.writeWord_entries (a : Nat) (v : Word) (id : Nat) : (s.writeWord a v id).entries = s.entries := rfl
@[simp] theorem State.writeWord_writes (a : Nat) (v : Word) (id : Nat) : (s.writeWord a v id).writes = ⟨a, s.word a, id⟩ :: s.writes := rfl
@[simp] theorem State.writeWord_cleared (a : Nat) (v : Word) (id : Nat) : (s.writeWord a v id).cleared = s.cleared := rfl
@[simp] theorem State.writeWord_history (a : Nat) (v : Word) (id : Nat) : (s.writeWord a v id).history = s.history := rfl
@[simp] theorem State.writeWord_observed (a : Nat) (v : Word) (id : Nat) : (s.writeWord a v id).observed = s.observed := rfl
@[simp] theorem State.writeWord_nextId (a : Nat) (v : Word) (id : Nat) : (s.writeWord a v id).nextId = s.nextId := rfl
@[simp] theorem State.writeWord_hostResp (a : Nat) (v : Word) (id : Nat) : (s.writeWord a v id).hostResp = s.hostResp := rfl
@[simp] theorem State.writeWord_turn (a : Nat) (v : Word) (id : Nat) : (s.writeWord a v id).turn = s.turn := rfl
@[simp] theorem State.writeWord_inputs (a : Nat) (v : Word) (id : Nat) : (s.writeWord a v id).inputs = s.inputs := rfl

/-! ### mark -/

@[simp] theorem State.mark_params (a : Nat) (v : Word) (host : Option Nat) : (s.mark a v host).params = s.params := rfl
@[simp] theorem State.mark_platform (a : Nat) (v : Word) (host : Option Nat) : (s.mark a v host).platform = s.platform := rfl
@[simp] theorem State.mark_en (a : Nat) (v : Word) (host : Option Nat) : (s.mark a v host).en = s.en := rfl
@[simp] theorem State.mark_cfgErr (a : Nat) (v : Word) (host : Option Nat) : (s.mark a v host).cfgErr = s.cfgErr := rfl
@[simp] theorem State.mark_lockViol (a : Nat) (v : Word) (host : Option Nat) : (s.mark a v host).lockViol = s.lockViol := rfl
@[simp] theorem State.mark_base (a : Nat) (v : Word) (host : Option Nat) : (s.mark a v host).base = s.base := rfl
@[simp] theorem State.mark_slots (a : Nat) (v : Word) (host : Option Nat) : (s.mark a v host).slots = s.slots := rfl
@[simp] theorem State.mark_probes (a : Nat) (v : Word) (host : Option Nat) : (s.mark a v host).probes = s.probes := rfl
@[simp] theorem State.mark_seed (a : Nat) (v : Word) (host : Option Nat) : (s.mark a v host).seed = s.seed := rfl
@[simp] theorem State.mark_ctxs (a : Nat) (v : Word) (host : Option Nat) : (s.mark a v host).ctxs = s.ctxs := rfl
@[simp] theorem State.mark_inReset (a : Nat) (v : Word) (host : Option Nat) : (s.mark a v host).inReset = s.inReset := rfl
@[simp] theorem State.mark_mem (a : Nat) (v : Word) (host : Option Nat) : (s.mark a v host).mem = s.mem := rfl
@[simp] theorem State.mark_entries (a : Nat) (v : Word) (host : Option Nat) : (s.mark a v host).entries = s.entries := rfl
@[simp] theorem State.mark_writes (a : Nat) (v : Word) (host : Option Nat) : (s.mark a v host).writes = s.writes := rfl
@[simp] theorem State.mark_cleared (a : Nat) (v : Word) (host : Option Nat) : (s.mark a v host).cleared = if v = 0#64 then (a, host) :: s.cleared.filter (fun e => e.1 != a)
        else s.cleared.filter (fun e => e.1 != a) := rfl
@[simp] theorem State.mark_history (a : Nat) (v : Word) (host : Option Nat) : (s.mark a v host).history = s.history := rfl
@[simp] theorem State.mark_observed (a : Nat) (v : Word) (host : Option Nat) : (s.mark a v host).observed = s.observed := rfl
@[simp] theorem State.mark_nextId (a : Nat) (v : Word) (host : Option Nat) : (s.mark a v host).nextId = s.nextId := rfl
@[simp] theorem State.mark_hostResp (a : Nat) (v : Word) (host : Option Nat) : (s.mark a v host).hostResp = s.hostResp := rfl
@[simp] theorem State.mark_turn (a : Nat) (v : Word) (host : Option Nat) : (s.mark a v host).turn = s.turn := rfl
@[simp] theorem State.mark_inputs (a : Nat) (v : Word) (host : Option Nat) : (s.mark a v host).inputs = s.inputs := rfl

/-! ### accept -/

@[simp] theorem State.accept_params (h c : Nat) (op : BitVec 4) : (s.accept h c op).params = s.params := rfl
@[simp] theorem State.accept_platform (h c : Nat) (op : BitVec 4) : (s.accept h c op).platform = s.platform := rfl
@[simp] theorem State.accept_en (h c : Nat) (op : BitVec 4) : (s.accept h c op).en = s.en := rfl
@[simp] theorem State.accept_cfgErr (h c : Nat) (op : BitVec 4) : (s.accept h c op).cfgErr = s.cfgErr := rfl
@[simp] theorem State.accept_lockViol (h c : Nat) (op : BitVec 4) : (s.accept h c op).lockViol = s.lockViol := rfl
@[simp] theorem State.accept_base (h c : Nat) (op : BitVec 4) : (s.accept h c op).base = s.base := rfl
@[simp] theorem State.accept_slots (h c : Nat) (op : BitVec 4) : (s.accept h c op).slots = s.slots := rfl
@[simp] theorem State.accept_probes (h c : Nat) (op : BitVec 4) : (s.accept h c op).probes = s.probes := rfl
@[simp] theorem State.accept_seed (h c : Nat) (op : BitVec 4) : (s.accept h c op).seed = s.seed := rfl
@[simp] theorem State.accept_ctxs (h c : Nat) (op : BitVec 4) : (s.accept h c op).ctxs = s.ctxs.set c ((s.ctx c).accept op s.nextId (s.knownBy h)) := rfl
@[simp] theorem State.accept_inReset (h c : Nat) (op : BitVec 4) : (s.accept h c op).inReset = s.inReset := rfl
@[simp] theorem State.accept_mem (h c : Nat) (op : BitVec 4) : (s.accept h c op).mem = s.mem := rfl
@[simp] theorem State.accept_entries (h c : Nat) (op : BitVec 4) : (s.accept h c op).entries = s.entries := rfl
@[simp] theorem State.accept_writes (h c : Nat) (op : BitVec 4) : (s.accept h c op).writes = s.writes := rfl
@[simp] theorem State.accept_cleared (h c : Nat) (op : BitVec 4) : (s.accept h c op).cleared = s.cleared := rfl
@[simp] theorem State.accept_history (h c : Nat) (op : BitVec 4) : (s.accept h c op).history = s.history := rfl
@[simp] theorem State.accept_observed (h c : Nat) (op : BitVec 4) : (s.accept h c op).observed = s.observed := rfl
@[simp] theorem State.accept_nextId (h c : Nat) (op : BitVec 4) : (s.accept h c op).nextId = s.nextId + 1 := rfl
@[simp] theorem State.accept_hostResp (h c : Nat) (op : BitVec 4) : (s.accept h c op).hostResp = s.hostResp := rfl
@[simp] theorem State.accept_turn (h c : Nat) (op : BitVec 4) : (s.accept h c op).turn = s.turn := rfl
@[simp] theorem State.accept_inputs (h c : Nat) (op : BitVec 4) : (s.accept h c op).inputs = s.inputs := rfl

/-! ### finish -/

@[simp] theorem State.finish_params (c : Nat) (code : ErrCode) : (s.finish c code).params = s.params := rfl
@[simp] theorem State.finish_platform (c : Nat) (code : ErrCode) : (s.finish c code).platform = s.platform := rfl
@[simp] theorem State.finish_en (c : Nat) (code : ErrCode) : (s.finish c code).en = s.en := rfl
@[simp] theorem State.finish_cfgErr (c : Nat) (code : ErrCode) : (s.finish c code).cfgErr = s.cfgErr := rfl
@[simp] theorem State.finish_lockViol (c : Nat) (code : ErrCode) : (s.finish c code).lockViol = s.lockViol := rfl
@[simp] theorem State.finish_base (c : Nat) (code : ErrCode) : (s.finish c code).base = s.base := rfl
@[simp] theorem State.finish_slots (c : Nat) (code : ErrCode) : (s.finish c code).slots = s.slots := rfl
@[simp] theorem State.finish_probes (c : Nat) (code : ErrCode) : (s.finish c code).probes = s.probes := rfl
@[simp] theorem State.finish_seed (c : Nat) (code : ErrCode) : (s.finish c code).seed = s.seed := rfl
@[simp] theorem State.finish_ctxs (c : Nat) (code : ErrCode) : (s.finish c code).ctxs = s.ctxs.set c ((s.ctx c).finish code) := rfl
@[simp] theorem State.finish_inReset (c : Nat) (code : ErrCode) : (s.finish c code).inReset = s.inReset := rfl
@[simp] theorem State.finish_mem (c : Nat) (code : ErrCode) : (s.finish c code).mem = s.mem := rfl
@[simp] theorem State.finish_entries (c : Nat) (code : ErrCode) : (s.finish c code).entries = s.entries := rfl
@[simp] theorem State.finish_writes (c : Nat) (code : ErrCode) : (s.finish c code).writes = s.writes := rfl
@[simp] theorem State.finish_cleared (c : Nat) (code : ErrCode) : (s.finish c code).cleared = s.cleared := rfl
@[simp] theorem State.finish_history (c : Nat) (code : ErrCode) : (s.finish c code).history = s.history := rfl
@[simp] theorem State.finish_observed (c : Nat) (code : ErrCode) : (s.finish c code).observed = s.observed := rfl
@[simp] theorem State.finish_nextId (c : Nat) (code : ErrCode) : (s.finish c code).nextId = s.nextId := rfl
@[simp] theorem State.finish_hostResp (c : Nat) (code : ErrCode) : (s.finish c code).hostResp = s.hostResp := rfl
@[simp] theorem State.finish_turn (c : Nat) (code : ErrCode) : (s.finish c code).turn = s.turn := rfl
@[simp] theorem State.finish_inputs (c : Nat) (code : ErrCode) : (s.finish c code).inputs = s.inputs := rfl

/-! ### overrun -/

@[simp] theorem State.overrun_params (c : Nat) : (s.overrun c).params = s.params := rfl
@[simp] theorem State.overrun_platform (c : Nat) : (s.overrun c).platform = s.platform := rfl
@[simp] theorem State.overrun_en (c : Nat) : (s.overrun c).en = s.en := rfl
@[simp] theorem State.overrun_cfgErr (c : Nat) : (s.overrun c).cfgErr = s.cfgErr := rfl
@[simp] theorem State.overrun_lockViol (c : Nat) : (s.overrun c).lockViol = s.lockViol := rfl
@[simp] theorem State.overrun_base (c : Nat) : (s.overrun c).base = s.base := rfl
@[simp] theorem State.overrun_slots (c : Nat) : (s.overrun c).slots = s.slots := rfl
@[simp] theorem State.overrun_probes (c : Nat) : (s.overrun c).probes = s.probes := rfl
@[simp] theorem State.overrun_seed (c : Nat) : (s.overrun c).seed = s.seed := rfl
@[simp] theorem State.overrun_inReset (c : Nat) : (s.overrun c).inReset = s.inReset := rfl
@[simp] theorem State.overrun_mem (c : Nat) : (s.overrun c).mem = s.mem := rfl
@[simp] theorem State.overrun_entries (c : Nat) : (s.overrun c).entries = s.entries := rfl
@[simp] theorem State.overrun_writes (c : Nat) : (s.overrun c).writes = s.writes := rfl
@[simp] theorem State.overrun_cleared (c : Nat) : (s.overrun c).cleared = s.cleared := rfl
@[simp] theorem State.overrun_history (c : Nat) : (s.overrun c).history = s.history := rfl
@[simp] theorem State.overrun_observed (c : Nat) : (s.overrun c).observed = s.observed := rfl
@[simp] theorem State.overrun_nextId (c : Nat) : (s.overrun c).nextId = s.nextId := rfl
@[simp] theorem State.overrun_hostResp (c : Nat) : (s.overrun c).hostResp = s.hostResp := rfl
@[simp] theorem State.overrun_turn (c : Nat) : (s.overrun c).turn = s.turn := rfl
@[simp] theorem State.overrun_inputs (c : Nat) : (s.overrun c).inputs = s.inputs := rfl

/-! ### startProbe -/

@[simp] theorem State.startProbe_params (c : Nat) : (s.startProbe c).params = s.params := rfl
@[simp] theorem State.startProbe_platform (c : Nat) : (s.startProbe c).platform = s.platform := rfl
@[simp] theorem State.startProbe_en (c : Nat) : (s.startProbe c).en = s.en := rfl
@[simp] theorem State.startProbe_cfgErr (c : Nat) : (s.startProbe c).cfgErr = s.cfgErr := rfl
@[simp] theorem State.startProbe_lockViol (c : Nat) : (s.startProbe c).lockViol = s.lockViol := rfl
@[simp] theorem State.startProbe_base (c : Nat) : (s.startProbe c).base = s.base := rfl
@[simp] theorem State.startProbe_slots (c : Nat) : (s.startProbe c).slots = s.slots := rfl
@[simp] theorem State.startProbe_probes (c : Nat) : (s.startProbe c).probes = s.probes := rfl
@[simp] theorem State.startProbe_seed (c : Nat) : (s.startProbe c).seed = s.seed := rfl
@[simp] theorem State.startProbe_inReset (c : Nat) : (s.startProbe c).inReset = s.inReset := rfl
@[simp] theorem State.startProbe_mem (c : Nat) : (s.startProbe c).mem = s.mem := rfl
@[simp] theorem State.startProbe_entries (c : Nat) : (s.startProbe c).entries = s.entries := rfl
@[simp] theorem State.startProbe_writes (c : Nat) : (s.startProbe c).writes = s.writes := rfl
@[simp] theorem State.startProbe_cleared (c : Nat) : (s.startProbe c).cleared = s.cleared := rfl
@[simp] theorem State.startProbe_history (c : Nat) : (s.startProbe c).history = s.history := rfl
@[simp] theorem State.startProbe_observed (c : Nat) : (s.startProbe c).observed = s.observed := rfl
@[simp] theorem State.startProbe_nextId (c : Nat) : (s.startProbe c).nextId = s.nextId := rfl
@[simp] theorem State.startProbe_hostResp (c : Nat) : (s.startProbe c).hostResp = s.hostResp := rfl
@[simp] theorem State.startProbe_turn (c : Nat) : (s.startProbe c).turn = s.turn := rfl
@[simp] theorem State.startProbe_inputs (c : Nat) : (s.startProbe c).inputs = s.inputs := rfl

/-! ### startClear -/

@[simp] theorem State.startClear_params (c : Nat) : (s.startClear c).params = s.params := rfl
@[simp] theorem State.startClear_platform (c : Nat) : (s.startClear c).platform = s.platform := rfl
@[simp] theorem State.startClear_en (c : Nat) : (s.startClear c).en = s.en := rfl
@[simp] theorem State.startClear_cfgErr (c : Nat) : (s.startClear c).cfgErr = s.cfgErr := rfl
@[simp] theorem State.startClear_lockViol (c : Nat) : (s.startClear c).lockViol = s.lockViol := rfl
@[simp] theorem State.startClear_base (c : Nat) : (s.startClear c).base = s.base := rfl
@[simp] theorem State.startClear_slots (c : Nat) : (s.startClear c).slots = s.slots := rfl
@[simp] theorem State.startClear_probes (c : Nat) : (s.startClear c).probes = s.probes := rfl
@[simp] theorem State.startClear_seed (c : Nat) : (s.startClear c).seed = s.seed := rfl
@[simp] theorem State.startClear_inReset (c : Nat) : (s.startClear c).inReset = s.inReset := rfl
@[simp] theorem State.startClear_mem (c : Nat) : (s.startClear c).mem = s.mem := rfl
@[simp] theorem State.startClear_entries (c : Nat) : (s.startClear c).entries = s.entries := rfl
@[simp] theorem State.startClear_writes (c : Nat) : (s.startClear c).writes = s.writes := rfl
@[simp] theorem State.startClear_cleared (c : Nat) : (s.startClear c).cleared = s.cleared := rfl
@[simp] theorem State.startClear_history (c : Nat) : (s.startClear c).history = s.history := rfl
@[simp] theorem State.startClear_observed (c : Nat) : (s.startClear c).observed = s.observed := rfl
@[simp] theorem State.startClear_nextId (c : Nat) : (s.startClear c).nextId = s.nextId := rfl
@[simp] theorem State.startClear_hostResp (c : Nat) : (s.startClear c).hostResp = s.hostResp := rfl
@[simp] theorem State.startClear_turn (c : Nat) : (s.startClear c).turn = s.turn := rfl
@[simp] theorem State.startClear_inputs (c : Nat) : (s.startClear c).inputs = s.inputs := rfl

/-! ### amoOr -/

@[simp] theorem State.amoOr_params (c a : Nat) (m : Word) : (s.amoOr c a m).params = s.params := rfl
@[simp] theorem State.amoOr_platform (c a : Nat) (m : Word) : (s.amoOr c a m).platform = s.platform := rfl
@[simp] theorem State.amoOr_en (c a : Nat) (m : Word) : (s.amoOr c a m).en = s.en := rfl
@[simp] theorem State.amoOr_cfgErr (c a : Nat) (m : Word) : (s.amoOr c a m).cfgErr = s.cfgErr := rfl
@[simp] theorem State.amoOr_lockViol (c a : Nat) (m : Word) : (s.amoOr c a m).lockViol = s.lockViol := rfl
@[simp] theorem State.amoOr_base (c a : Nat) (m : Word) : (s.amoOr c a m).base = s.base := rfl
@[simp] theorem State.amoOr_slots (c a : Nat) (m : Word) : (s.amoOr c a m).slots = s.slots := rfl
@[simp] theorem State.amoOr_probes (c a : Nat) (m : Word) : (s.amoOr c a m).probes = s.probes := rfl
@[simp] theorem State.amoOr_seed (c a : Nat) (m : Word) : (s.amoOr c a m).seed = s.seed := rfl
@[simp] theorem State.amoOr_ctxs (c a : Nat) (m : Word) : (s.amoOr c a m).ctxs = s.ctxs := rfl
@[simp] theorem State.amoOr_inReset (c a : Nat) (m : Word) : (s.amoOr c a m).inReset = s.inReset := rfl
@[simp] theorem State.amoOr_mem (c a : Nat) (m : Word) : (s.amoOr c a m).mem = Memory.storeWord s.mem a (s.word a ||| m) := rfl
@[simp] theorem State.amoOr_entries (c a : Nat) (m : Word) : (s.amoOr c a m).entries = s.entries := rfl
@[simp] theorem State.amoOr_writes (c a : Nat) (m : Word) : (s.amoOr c a m).writes = ⟨a, s.word a, (s.ctx c).hb.id⟩ :: s.writes := rfl
@[simp] theorem State.amoOr_cleared (c a : Nat) (m : Word) : (s.amoOr c a m).cleared = s.cleared := rfl
@[simp] theorem State.amoOr_history (c a : Nat) (m : Word) : (s.amoOr c a m).history = PortEvent.amoOr c a (s.word a ||| m) (s.word a) :: s.history := rfl
@[simp] theorem State.amoOr_observed (c a : Nat) (m : Word) : (s.amoOr c a m).observed = s.observed := rfl
@[simp] theorem State.amoOr_nextId (c a : Nat) (m : Word) : (s.amoOr c a m).nextId = s.nextId := rfl
@[simp] theorem State.amoOr_hostResp (c a : Nat) (m : Word) : (s.amoOr c a m).hostResp = s.hostResp := rfl
@[simp] theorem State.amoOr_turn (c a : Nat) (m : Word) : (s.amoOr c a m).turn = s.turn := rfl
@[simp] theorem State.amoOr_inputs (c a : Nat) (m : Word) : (s.amoOr c a m).inputs = s.inputs := rfl

/-! ### memWrite -/

@[simp] theorem State.memWrite_params (c a : Nat) (v : Word) : (s.memWrite c a v).params = s.params := rfl
@[simp] theorem State.memWrite_platform (c a : Nat) (v : Word) : (s.memWrite c a v).platform = s.platform := rfl
@[simp] theorem State.memWrite_en (c a : Nat) (v : Word) : (s.memWrite c a v).en = s.en := rfl
@[simp] theorem State.memWrite_cfgErr (c a : Nat) (v : Word) : (s.memWrite c a v).cfgErr = s.cfgErr := rfl
@[simp] theorem State.memWrite_lockViol (c a : Nat) (v : Word) : (s.memWrite c a v).lockViol = s.lockViol := rfl
@[simp] theorem State.memWrite_base (c a : Nat) (v : Word) : (s.memWrite c a v).base = s.base := rfl
@[simp] theorem State.memWrite_slots (c a : Nat) (v : Word) : (s.memWrite c a v).slots = s.slots := rfl
@[simp] theorem State.memWrite_probes (c a : Nat) (v : Word) : (s.memWrite c a v).probes = s.probes := rfl
@[simp] theorem State.memWrite_seed (c a : Nat) (v : Word) : (s.memWrite c a v).seed = s.seed := rfl
@[simp] theorem State.memWrite_ctxs (c a : Nat) (v : Word) : (s.memWrite c a v).ctxs = s.ctxs := rfl
@[simp] theorem State.memWrite_inReset (c a : Nat) (v : Word) : (s.memWrite c a v).inReset = s.inReset := rfl
@[simp] theorem State.memWrite_mem (c a : Nat) (v : Word) : (s.memWrite c a v).mem = Memory.storeWord s.mem a v := rfl
@[simp] theorem State.memWrite_entries (c a : Nat) (v : Word) : (s.memWrite c a v).entries = s.entries := rfl
@[simp] theorem State.memWrite_writes (c a : Nat) (v : Word) : (s.memWrite c a v).writes = ⟨a, s.word a, (s.ctx c).hb.id⟩ :: s.writes := rfl
@[simp] theorem State.memWrite_cleared (c a : Nat) (v : Word) : (s.memWrite c a v).cleared = (s.mark a v none).cleared := rfl
@[simp] theorem State.memWrite_history (c a : Nat) (v : Word) : (s.memWrite c a v).history = PortEvent.write c a v :: s.history := rfl
@[simp] theorem State.memWrite_observed (c a : Nat) (v : Word) : (s.memWrite c a v).observed = s.observed := rfl
@[simp] theorem State.memWrite_nextId (c a : Nat) (v : Word) : (s.memWrite c a v).nextId = s.nextId := rfl
@[simp] theorem State.memWrite_hostResp (c a : Nat) (v : Word) : (s.memWrite c a v).hostResp = s.hostResp := rfl
@[simp] theorem State.memWrite_turn (c a : Nat) (v : Word) : (s.memWrite c a v).turn = s.turn := rfl
@[simp] theorem State.memWrite_inputs (c a : Nat) (v : Word) : (s.memWrite c a v).inputs = s.inputs := rfl

/-! ### memRead -/

@[simp] theorem State.memRead_params (c a lag : Nat) : (s.memRead c a lag).params = s.params := rfl
@[simp] theorem State.memRead_platform (c a lag : Nat) : (s.memRead c a lag).platform = s.platform := rfl
@[simp] theorem State.memRead_en (c a lag : Nat) : (s.memRead c a lag).en = s.en := rfl
@[simp] theorem State.memRead_cfgErr (c a lag : Nat) : (s.memRead c a lag).cfgErr = s.cfgErr := rfl
@[simp] theorem State.memRead_lockViol (c a lag : Nat) : (s.memRead c a lag).lockViol = s.lockViol := rfl
@[simp] theorem State.memRead_base (c a lag : Nat) : (s.memRead c a lag).base = s.base := rfl
@[simp] theorem State.memRead_slots (c a lag : Nat) : (s.memRead c a lag).slots = s.slots := rfl
@[simp] theorem State.memRead_probes (c a lag : Nat) : (s.memRead c a lag).probes = s.probes := rfl
@[simp] theorem State.memRead_seed (c a lag : Nat) : (s.memRead c a lag).seed = s.seed := rfl
@[simp] theorem State.memRead_ctxs (c a lag : Nat) : (s.memRead c a lag).ctxs = s.ctxs := rfl
@[simp] theorem State.memRead_inReset (c a lag : Nat) : (s.memRead c a lag).inReset = s.inReset := rfl
@[simp] theorem State.memRead_mem (c a lag : Nat) : (s.memRead c a lag).mem = s.mem := rfl
@[simp] theorem State.memRead_entries (c a lag : Nat) : (s.memRead c a lag).entries = s.entries := rfl
@[simp] theorem State.memRead_writes (c a lag : Nat) : (s.memRead c a lag).writes = s.writes := rfl
@[simp] theorem State.memRead_cleared (c a lag : Nat) : (s.memRead c a lag).cleared = s.cleared := rfl
@[simp] theorem State.memRead_history (c a lag : Nat) : (s.memRead c a lag).history = PortEvent.read c a (s.loadValue c a lag) :: s.history := rfl
@[simp] theorem State.memRead_observed (c a lag : Nat) : (s.memRead c a lag).observed = s.observed := rfl
@[simp] theorem State.memRead_nextId (c a lag : Nat) : (s.memRead c a lag).nextId = s.nextId := rfl
@[simp] theorem State.memRead_hostResp (c a lag : Nat) : (s.memRead c a lag).hostResp = s.hostResp := rfl
@[simp] theorem State.memRead_turn (c a lag : Nat) : (s.memRead c a lag).turn = s.turn := rfl
@[simp] theorem State.memRead_inputs (c a lag : Nat) : (s.memRead c a lag).inputs = s.inputs := rfl

/-! ### hwReset -/

@[simp] theorem State.hwReset_params : s.hwReset.params = s.params := rfl
@[simp] theorem State.hwReset_platform : s.hwReset.platform = s.platform := rfl
@[simp] theorem State.hwReset_en : s.hwReset.en = false := rfl
@[simp] theorem State.hwReset_cfgErr : s.hwReset.cfgErr = false := rfl
@[simp] theorem State.hwReset_lockViol : s.hwReset.lockViol = false := rfl
@[simp] theorem State.hwReset_base : s.hwReset.base = 0#64 := rfl
@[simp] theorem State.hwReset_slots : s.hwReset.slots = 0#64 := rfl
@[simp] theorem State.hwReset_probes : s.hwReset.probes = 0#8 := rfl
@[simp] theorem State.hwReset_seed : s.hwReset.seed = 0#64 := rfl
@[simp] theorem State.hwReset_ctxs : s.hwReset.ctxs = s.ctxs.map fun x => x.hwReset s.params := rfl
@[simp] theorem State.hwReset_inReset : s.hwReset.inReset = true := rfl
@[simp] theorem State.hwReset_mem : s.hwReset.mem = s.mem := rfl
@[simp] theorem State.hwReset_entries : s.hwReset.entries = s.entries := rfl
@[simp] theorem State.hwReset_writes : s.hwReset.writes = s.writes := rfl
@[simp] theorem State.hwReset_cleared : s.hwReset.cleared = s.cleared := rfl
@[simp] theorem State.hwReset_history : s.hwReset.history = s.history := rfl
@[simp] theorem State.hwReset_observed : s.hwReset.observed = s.observed := rfl
@[simp] theorem State.hwReset_nextId : s.hwReset.nextId = s.nextId := rfl
@[simp] theorem State.hwReset_hostResp : s.hwReset.hostResp = s.hostResp := rfl
@[simp] theorem State.hwReset_turn : s.hwReset.turn = s.turn := rfl
@[simp] theorem State.hwReset_inputs : s.hwReset.inputs = s.inputs := rfl

/-! ### Contexts -/

theorem State.ctx_setCtx_same (c : Nat) (x : Ctx) (h : c < s.nctx) : (s.setCtx c x).ctx c = x := by
  simp [State.ctx, State.nctx] at *
  simp [h]

theorem State.ctx_setCtx_ne (c c2 : Nat) (x : Ctx) (h : c2 ≠ c) : (s.setCtx c x).ctx c2 = s.ctx c2 := by
  simp [State.ctx, h.symm]

@[simp] theorem State.nctx_setCtx (c : Nat) (x : Ctx) : (s.setCtx c x).nctx = s.nctx := by
  simp [State.nctx]

/-- A context that exists is one of the list. -/
theorem State.ctx_mem (c : Nat) (h : c < s.nctx) : s.ctx c ∈ s.ctxs := by
  unfold State.nctx at h
  simp only [State.ctx, List.getD_eq_getElem?_getD, List.getElem?_eq_getElem h, Option.getD_some]
  exact List.getElem_mem h

/-- A context that does not exist reads as one after reset. -/
theorem State.ctx_absent (c : Nat) (h : s.nctx ≤ c) : s.ctx c = Ctx.reset s.params := by
  unfold State.nctx at h
  simp [State.ctx, List.getElem?_eq_none h]

/-- Every context of the list has a number. -/
theorem State.exists_ctx (x : Ctx) (h : x ∈ s.ctxs) : ∃ c, c < s.nctx ∧ s.ctx c = x := by
  obtain ⟨c, hc, rfl⟩ := List.getElem_of_mem h
  exact ⟨c, hc, by simp [State.ctx, List.getElem?_eq_getElem hc]⟩

/-- The contexts decide what a context reads as. -/
theorem State.ctx_congr (t : State) (c : Nat) (hp : t.params = s.params) (hc : t.ctxs = s.ctxs) :
    t.ctx c = s.ctx c := by
  simp [State.ctx, hp, hc]

@[simp] theorem Ctx.act_h (x : Ctx) : x.act.h = x.h := rfl
@[simp] theorem Ctx.act_state (x : Ctx) : x.act.state = x.state := rfl
@[simp] theorem Ctx.act_member (x : Ctx) : x.act.member = x.member := rfl
@[simp] theorem Ctx.act_errcode (x : Ctx) : x.act.errcode = x.errcode := rfl
@[simp] theorem Ctx.act_overrun (x : Ctx) : x.act.overrun = x.overrun := rfl
@[simp] theorem Ctx.act_probesDone (x : Ctx) : x.act.probesDone = x.probesDone := rfl
@[simp] theorem Ctx.act_entryPtr (x : Ctx) : x.act.entryPtr = x.entryPtr := rfl
@[simp] theorem Ctx.act_entryLen (x : Ctx) : x.act.entryLen = x.entryLen := rfl
@[simp] theorem Ctx.act_hb (x : Ctx) : x.act.hb = { x.hb with acted := true } := rfl
@[simp] theorem Ctx.saw_hb (x : Ctx) (a n : Nat) :
    (x.saw a n).hb = { x.hb with seen := (a, n) :: x.hb.seen, acted := true } := rfl
@[simp] theorem Ctx.withLane_hb (x : Ctx) (l : Lane) : (x.withLane l).hb = { x.hb with acted := true } := rfl
@[simp] theorem Ctx.toProbe_hb (x : Ctx) (p : Params) (n : Nat) : (x.toProbe p n).hb = x.hb := rfl
@[simp] theorem Ctx.accept_hb (x : Ctx) (op : BitVec 4) (id : Nat) (seen : List Nat) :
    (x.accept op id seen).hb = ⟨id, addNew (union x.hb.carried seen) id, x.hb.carried, [], false⟩ := rfl
@[simp] theorem Ctx.hwReset_hb (x : Ctx) (p : Params) : (x.hwReset p).hb = x.hb := rfl

@[simp] theorem Ctx.finish_none (x : Ctx) : x.finish .none =
    { x with h := { x.h with phase := .none }, state := .done, errcode := .none } := rfl

theorem Ctx.finish_error (x : Ctx) (e : ErrCode) (h : e ≠ .none) : x.finish e =
    { x with h := { x.h with phase := .none }, state := .error, errcode := e, member := false } := by
  simp [Ctx.finish, h]

end Sys2Proof.Machine
end

