-- ==== Sys2Proof/Laws/Cleared.lean ====
section
/-! SUPPORT. Where the bit array lies, and which of its words have been zeroed: what the operations do to
both (20_memory.md R68, R69; 70_reset_and_hazards.md R235, R236). -/

namespace Sys2Proof.Machine

theorem allBelow_iff (p : Nat → Bool) (n : Nat) : allBelow p n = true ↔ ∀ k, k < n → p k = true := by
  induction n with
  | zero => simp [allBelow]
  | succ n ih =>
    simp only [allBelow, Bool.and_eq_true, ih]
    constructor
    · rintro ⟨h0, h⟩ k hk
      rcases Nat.lt_succ_iff_lt_or_eq.mp hk with hk | rfl
      · exact h k hk
      · exact h0
    · intro h
      exact ⟨h n (Nat.lt_succ_self n), fun k hk => h k (Nat.lt_succ_of_lt hk)⟩

/-- Two spans of bytes meet exactly when they have an address in common. -/
theorem Range.meets_iff (r : Range) (a n : Nat) :
    Range.meets r a n = true ↔ ∃ x, (a ≤ x ∧ x < a + n) ∧ r.lo ≤ x ∧ x < r.hi := by
  unfold Range.meets
  rw [decide_eq_true_iff]
  constructor
  · intro h
    exact ⟨max r.lo a, by omega, by omega⟩
  · rintro ⟨x, hx⟩
    omega

variable (s : State)

theorem State.arrayCleared_iff (known : List Nat) : s.arrayCleared known = true ↔
    ∀ k, k < s.arrayWords → s.wordCleared known (s.clearAddr k) = true := by
  simp [State.arrayCleared, allBelow_iff]

/-- The window, the regions with side effects, BASE, SLOTS and LINE decide the placement. -/
theorem State.placement_congr (t : State) (hp : t.params = s.params)
    (hd : t.platform.devices = s.platform.devices) (hb : t.base = s.base) (hs : t.slots = s.slots) :
    t.placement = s.placement := by
  simp [State.placement, State.refuses, State.window, State.arrayBytes, hp, hd, hb, hs]

/-- The configuration and the zeroed words decide whether the bit array has been zeroed. -/
theorem State.arrayCleared_congr (t : State) (hp : t.params = s.params) (hb : t.base = s.base)
    (hs : t.slots = s.slots) (hc : t.cleared = s.cleared) (known : List Nat) :
    t.arrayCleared known = s.arrayCleared known := by
  simp [State.arrayCleared, State.wordCleared, State.clearAddr, State.arrayWords, hp, hb, hs, hc]

/-- A store that zeroes a word: by a CLEAR for every command, by a host for those it happens-before. -/
theorem State.wordCleared_mark_same (known : List Nat) (a : Nat) (v : Word) (host : Option Nat) :
    (s.mark a v host).wordCleared known a =
      (decide (v = 0#64) && (host.all fun id => known.contains id)) := by
  by_cases hv : v = 0#64
  · cases host <;> simp [State.wordCleared, hv]
  · have hf : (s.cleared.filter fun e => e.1 != a).find? (fun e => e.1 == a) = none := by
      simp [List.find?_eq_none]
    simp only [State.wordCleared, State.mark_cleared, hv, if_false, hf, decide_false, Bool.false_and]

/-- It leaves the other words alone. -/
theorem State.wordCleared_mark_ne (known : List Nat) (a a2 : Nat) (v : Word) (host : Option Nat)
    (h : a2 ≠ a) : (s.mark a v host).wordCleared known a2 = s.wordCleared known a2 := by
  have hf : (s.cleared.filter fun e => e.1 != a).find? (fun e => e.1 == a2) =
      s.cleared.find? fun e => e.1 == a2 := by
    rw [List.find?_filter]
    congr 1
    funext e
    by_cases he : e.1 = a2
    · simp [he, h]
    · simp [he]
  unfold State.wordCleared
  by_cases hv : v = 0#64
  · simp only [State.mark_cleared, hv, if_true]
    rw [List.find?_cons_of_neg (by simp [h.symm]), hf]
  · simp only [State.mark_cleared, hv, if_false, hf]

/-- A word that a CLEAR stores to only makes more of the bit array zeroed. -/
theorem State.arrayCleared_mark_zero (known : List Nat) (a : Nat) (h : s.arrayCleared known = true) :
    (s.mark a 0#64 none).arrayCleared known = true := by
  rw [State.arrayCleared_iff] at *
  intro k hk
  change (s.mark a 0#64 none).wordCleared known (s.clearAddr k) = true
  by_cases ha : s.clearAddr k = a
  · rw [ha, State.wordCleared_mark_same]
    simp
  · rw [State.wordCleared_mark_ne _ _ _ _ _ _ ha]
    exact h k hk

/-- A store outside the bit array does not matter to it. -/
theorem State.arrayCleared_mark_outside (known : List Nat) (a : Nat) (v : Word) (host : Option Nat)
    (ha : ∀ k, k < s.arrayWords → s.clearAddr k ≠ a) :
    (s.mark a v host).arrayCleared known = s.arrayCleared known := by
  rw [Bool.eq_iff_iff, State.arrayCleared_iff, State.arrayCleared_iff]
  refine forall_congr' fun k => forall_congr' fun hk => ?_
  change (s.mark a v host).wordCleared known (s.clearAddr k) = true ↔ _
  rw [State.wordCleared_mark_ne _ _ _ _ _ _ (ha k hk)]

/-- What the start of an accepted command answers. -/
theorem State.starts_next {s t u : State} {c : Nat} {i : Instr} (h : s.starts c i t = .next u) :
    u = t ∧ s.placement = none ∧ (i ≠ .clear → s.arrayCleared (s.ctx c).hb.known = true) := by
  unfold State.starts State.refusal at h
  cases hp : s.placement with
  | some r => simp [hp] at h
  | none =>
    simp only [hp] at h
    by_cases hi : i = .clear
    · subst hi
      simp only [bne_self_eq_false, Bool.false_and, Bool.false_eq_true, if_false] at h
      cases h
      exact ⟨rfl, rfl, fun h => absurd rfl h⟩
    · by_cases hc : s.arrayCleared (s.ctx c).hb.known = true
      · simp only [hc, Bool.not_true, Bool.and_false, Bool.false_eq_true, if_false] at h
        cases h
        exact ⟨rfl, rfl, fun _ => hc⟩
      · simp [hi, hc] at h

end Sys2Proof.Machine
end

