-- ==== Sys2Proof/Laws/Datapath.lean ====
section
/-! SUPPORT. The derived constants under legal parameters, and the ranges of the probe datapath. -/

namespace Sys2Proof

theorem Params.wf_iff (p : Params) : p.wf = true ↔
    3 ≤ p.lineLog2 ∧ p.lineLog2 ≤ 12 ∧ p.mmioBase.toNat % 4096 = 0 := by
  simp [Params.wf, and_assoc]

/-- A legal LINE has 4 to 10 windows in a lane. -/
theorem Params.wH_range (p : Params) (h : p.wf = true) : 4 ≤ p.wH ∧ p.wH ≤ 10 := by
  rw [Params.wf_iff] at h
  obtain ⟨h1, h2, -⟩ := h
  unfold Params.wH Params.log
  generalize p.lineLog2 = l at h1 h2
  interval_cases l <;> decide

theorem Params.wL_eq (p : Params) : p.wL = p.wH := rfl

/-- A command needs at least one hash. -/
theorem Params.one_le_nh (p : Params) (P : Nat) : 1 ≤ p.nh P := by
  unfold Params.nh
  split <;> omega

/-- NH(P) is the least number of hashes whose windows reach probe P - 1 (40_probe_datapath.md R111). -/
theorem Params.nh_le_iff (p : Params) (h : p.wf = true) (P r : Nat) :
    p.nh P ≤ 1 + r ↔ P - 1 - p.wH ≤ r * (p.wH + p.wL) := by
  have hw := p.wH_range h
  have hl := p.wL_eq
  unfold Params.nh ceilDiv
  rw [hl]
  split
  · constructor <;> intro _ <;> omega
  · rw [Nat.add_le_add_iff_left, ← Nat.lt_succ_iff, Nat.div_lt_iff_lt_mul (by omega), Nat.succ_mul]
    omega

/-- At most NHMAX hashes for a legal probe count, and NHMAX is at most 33 (10_state.md R33). -/
theorem Params.nh_bounds (p : Params) (h : p.wf = true) (P : Nat) (hP : P ≤ 255) :
    p.nh P ≤ p.nhMax ∧ p.nhMax ≤ 33 := by
  have hw := p.wH_range h
  unfold Params.nhMax Params.nh ceilDiv Config.pmax
  rw [Params.wL_eq]
  generalize p.wH = w at hw
  obtain ⟨h1, h2⟩ := hw
  interval_cases w <;> (constructor <;> (repeat' split) <;> omega)

/-- Probe i of P draws from a hash with number below NH(P) (40_probe_datapath.md R111, R115). -/
theorem Params.lane_lt_nh (p : Params) (h : p.wf = true) (P i : Nat) (hi : i < P)
    (hw : ¬ i ≤ p.wH) : 1 + (i - 1 - p.wH) / (p.wH + p.wL) < p.nh P := by
  have hr := p.wH_range h
  unfold Params.nh ceilDiv
  rw [Params.wL_eq]
  generalize p.wH = w at hr hw
  obtain ⟨h1, h2⟩ := hr
  interval_cases w <;> (split <;> omega)

theorem Params.line_pos (p : Params) : 0 < p.line := Nat.two_pow_pos _

theorem Params.sb_pos (p : Params) : 0 < p.sb := by
  unfold Params.sb
  have := p.line_pos
  omega

/-- SB = 2 ^ LOG. -/
theorem Params.sb_eq (p : Params) : p.sb = 2 ^ p.log := by
  unfold Params.sb Params.log Params.line
  rw [Nat.pow_add]
  omega

/-- LINE = 8 * WPS for a legal LINE. -/
theorem Params.line_eq (p : Params) (h : p.wf = true) : p.line = 8 * p.wps := by
  rw [Params.wf_iff] at h
  unfold Params.wps
  have : 8 ∣ p.line := by
    unfold Params.line
    exact Nat.pow_dvd_pow 2 h.1 (m := 3)
  omega

theorem Params.wps_pos (p : Params) (h : p.wf = true) : 0 < p.wps := by
  have := p.line_eq h
  have := p.line_pos
  omega

namespace Machine

theorem win_lt (p : Params) (x : Word) (k : Nat) : win p x k < p.sb := Nat.mod_lt _ p.sb_pos

/-- offset(i) is a bit of the slot (40_probe_datapath.md R115). -/
theorem offset_lt (p : Params) (lanes : Nat → Lane) (i : Nat) : offset p lanes i < p.sb := by
  unfold offset
  dsimp only
  split
  · exact win_lt ..
  · split
    · exact win_lt ..
    · split <;> exact win_lt ..

/-- The offset depends only on the lanes of the hashes it draws from. -/
theorem offset_congr (p : Params) (h : p.wf = true) (f g : Nat → Lane) (P i : Nat) (hi : i < P)
    (hfg : ∀ r, r < p.nh P → f r = g r) : offset p f i = offset p g i := by
  have h0 := hfg 0 (p.one_le_nh P)
  unfold offset
  dsimp only
  split
  · rw [h0]
  · split
    · rw [h0]
    · rename_i hw
      rw [hfg _ (p.lane_lt_nh h P i hi hw)]

/-- The slot index is a slot (40_probe_datapath.md R113). -/
theorem slotIndex_lt (p : Params) (x : Word) (slots : Nat) (h : 1 ≤ slots) :
    slotIndex p x slots < slots := Nat.mod_lt _ h

/-- A probe's word lies inside its slot (40_probe_datapath.md R120). -/
theorem wordAddr_range (p : Params) (h : p.wf = true) (base : Word) (slot b : Nat) (hb : b < p.sb) :
    slotBase p base slot ≤ wordAddr p base slot b ∧
      wordAddr p base slot b + 8 ≤ slotBase p base slot + p.line := by
  have hl := p.line_eq h
  unfold Params.sb at hb
  unfold wordAddr
  constructor
  · omega
  · have : b / 64 < p.wps := by
      rw [Nat.div_lt_iff_lt_mul (by omega)]
      omega
    omega

/-- A slot lies inside the bit array (20_memory.md R60). -/
theorem slotBase_range (p : Params) (base : Word) (slot slots : Nat) (h : slot < slots) :
    slotBase p base slot + p.line ≤ base.toNat + slots * p.line := by
  unfold slotBase
  have : (slot + 1) * p.line ≤ slots * p.line := Nat.mul_le_mul_right _ h
  rw [Nat.add_mul] at this
  omega

/-- The mask has one bit set (40_probe_datapath.md R119). -/
theorem getLsbD_mask (b j : Nat) (hj : j < 64) :
    (mask b).getLsbD j = decide (j = b % 64) := by
  have hb : b % 64 < 64 := Nat.mod_lt _ (by omega)
  unfold mask
  simp only [BitVec.getLsbD_shiftLeft, hj, decide_true, Bool.true_and]
  by_cases h : j = b % 64
  · subst h
    simp
  · simp only [h, decide_false]
    by_cases h2 : j < b % 64
    · simp [h2]
    · have : j - b % 64 ≠ 0 := by omega
      simp [this]

end Machine

end Sys2Proof
end

