-- ==== Sys2Proof/Laws/Memory.lean ====
section
/-! SUPPORT. Bytes, words and the memory: read after write, what a write leaves alone, and that every
memory operation keeps the canonical form. -/

namespace Sys2Proof.Machine

/-! ### Bytes and words -/

theorem getLsbD_wordOf (f : Nat → Byte) (n : Nat) (h : n < 64) :
    (wordOf f).getLsbD n = (f (n / 8)).getLsbD (n % 8) := by
  unfold wordOf
  simp only [BitVec.getLsbD_append]
  have hd : n = 8 * (n / 8) + n % 8 := by omega
  have hm : n % 8 < 8 := Nat.mod_lt _ (by omega)
  have hq : n / 8 < 8 := by omega
  generalize n / 8 = q at hd hq ⊢
  generalize n % 8 = m at hd hm ⊢
  subst hd
  interval_cases q <;> simp [show ¬ (8 + m < 8) by omega] <;> (try omega) <;>
    (repeat' (split <;> try omega)) <;> (congr 1) <;> omega

@[simp] theorem getLsbD_byteOf (w : Word) (j n : Nat) :
    (byteOf w j).getLsbD n = (decide (n < 8) && w.getLsbD (8 * j + n)) := by
  simp [byteOf]

/-- A word is the word of its bytes (20_memory.md R61). -/
theorem wordOf_byteOf (w : Word) : (wordOf fun j => byteOf w j) = w := by
  apply BitVec.eq_of_getLsbD_eq
  intro n hn
  rw [getLsbD_wordOf _ _ hn, getLsbD_byteOf, Nat.div_add_mod]
  simp [Nat.mod_lt]

/-- A word's value is decided by its eight bytes. -/
theorem wordOf_congr (f g : Nat → Byte) (h : ∀ j, j < 8 → f j = g j) : wordOf f = wordOf g := by
  simp [wordOf, h]

/-! ### One byte -/

@[simp] theorem Memory.lookup_store_same (m : Memory) (a : Nat) (b : Byte) :
    Memory.lookup (Memory.store m a b) a = some b := by
  induction m with
  | nil => simp [Memory.store, Memory.lookup]
  | cons e m ih =>
    obtain ⟨x, y⟩ := e
    simp only [Memory.store]
    split
    · simp [Memory.lookup]
    · split
      · simp [Memory.lookup]
      · simp only [Memory.lookup]
        rw [if_neg (by omega)]
        exact ih

theorem Memory.lookup_store_ne (m : Memory) (a a' : Nat) (b : Byte) (h : a' ≠ a) :
    Memory.lookup (Memory.store m a b) a' = Memory.lookup m a' := by
  induction m with
  | nil => simp [Memory.store, Memory.lookup, h.symm]
  | cons e m ih =>
    obtain ⟨x, y⟩ := e
    simp only [Memory.store]
    split
    · simp [Memory.lookup, h.symm]
    · split
      · rename_i hx
        subst hx
        simp [Memory.lookup, h.symm]
      · simp [Memory.lookup, ih]

theorem Memory.risesFrom_store (m : Memory) (lo a : Nat) (b : Byte) (hm : Memory.risesFrom lo m = true)
    (h : lo < a) : Memory.risesFrom lo (Memory.store m a b) = true := by
  induction m generalizing lo with
  | nil => simp [Memory.store, Memory.risesFrom, h]
  | cons e m ih =>
    obtain ⟨x, y⟩ := e
    simp only [Memory.risesFrom, Bool.and_eq_true, decide_eq_true_eq] at hm
    simp only [Memory.store]
    split
    · simp [Memory.risesFrom, hm.2, *]
    · split
      · rename_i hx
        subst hx
        simp [Memory.risesFrom, hm.1, hm.2]
      · simp only [Memory.risesFrom, Bool.and_eq_true, decide_eq_true_eq]
        exact ⟨hm.1, ih x hm.2 (by omega)⟩

/-- Storing a byte keeps the canonical form. -/
theorem Memory.wf_store (m : Memory) (a : Nat) (b : Byte) (hm : Memory.wf m = true) :
    Memory.wf (Memory.store m a b) = true := by
  cases m with
  | nil => simp [Memory.store, Memory.wf, Memory.risesFrom]
  | cons e m =>
    obtain ⟨x, y⟩ := e
    simp only [Memory.wf] at hm
    simp only [Memory.store]
    split
    · simp [Memory.wf, Memory.risesFrom, *]
    · split
      · rename_i hx
        subst hx
        simpa [Memory.wf] using hm
      · exact Memory.risesFrom_store m x a b hm (by omega)

/-! ### Words -/

/-- The bytes of a word after a list of them has been stored. -/
theorem Memory.lookup_foldl_store (m : Memory) (a : Nat) (v : Word) (l : List Nat) (x : Nat) :
    Memory.lookup (l.foldl (fun m j => Memory.store m (a + j) (byteOf v j)) m) x =
      if a ≤ x ∧ x - a ∈ l then some (byteOf v (x - a)) else Memory.lookup m x := by
  induction l generalizing m with
  | nil => simp
  | cons j l ih =>
    rw [List.foldl_cons, ih]
    by_cases hx : x = a + j
    · subst hx
      simp
    · rw [Memory.lookup_store_ne _ _ _ _ hx]
      have : ¬ (a ≤ x ∧ x - a = j) := by omega
      by_cases h1 : a ≤ x <;> simp [h1] at this ⊢
      simp [this]

theorem Memory.lookup_storeWord (m : Memory) (a : Nat) (v : Word) (x : Nat) :
    Memory.lookup (Memory.storeWord m a v) x =
      if a ≤ x ∧ x < a + 8 then some (byteOf v (x - a)) else Memory.lookup m x := by
  unfold Memory.storeWord
  rw [Memory.lookup_foldl_store]
  have : (a ≤ x ∧ x - a ∈ List.range 8) ↔ (a ≤ x ∧ x < a + 8) := by
    simp only [List.mem_range]; omega
  simp only [this]

theorem Memory.wf_foldl_store (l : List Nat) (m : Memory) (a : Nat) (v : Word)
    (hm : Memory.wf m = true) :
    Memory.wf (l.foldl (fun m j => Memory.store m (a + j) (byteOf v j)) m) = true := by
  induction l generalizing m with
  | nil => exact hm
  | cons j l ih => exact ih _ (Memory.wf_store m _ _ hm)

/-- Storing a word keeps the canonical form. -/
theorem Memory.wf_storeWord (m : Memory) (a : Nat) (v : Word) (hm : Memory.wf m = true) :
    Memory.wf (Memory.storeWord m a v) = true :=
  Memory.wf_foldl_store _ m a v hm

/-! ### Memory as the state sees it -/

variable (s : State)

theorem State.byte_writeWord (a : Nat) (v : Word) (id x : Nat) :
    (s.writeWord a v id).byte x = if a ≤ x ∧ x < a + 8 then byteOf v (x - a) else s.byte x := by
  simp only [State.byte, State.writeWord_mem, Memory.lookup_storeWord]
  split <;> rfl

/-- A write leaves every byte outside its word alone. -/
theorem State.byte_writeWord_outside (a : Nat) (v : Word) (id x : Nat) (h : x < a ∨ a + 8 ≤ x) :
    (s.writeWord a v id).byte x = s.byte x := by
  rw [State.byte_writeWord, if_neg (by omega)]

/-- A read after a write to the same word gives the value written. -/
@[simp] theorem State.word_writeWord_same (a : Nat) (v : Word) (id : Nat) :
    (s.writeWord a v id).word a = v := by
  have h : (s.writeWord a v id).word a = wordOf fun j => byteOf v j := by
    apply wordOf_congr
    intro j hj
    rw [State.byte_writeWord, if_pos (by omega), Nat.add_sub_cancel_left]
  rw [h, wordOf_byteOf]

/-- A write leaves every word that does not overlap alone. -/
theorem State.word_writeWord_disjoint (a a' : Nat) (v : Word) (id : Nat)
    (h : a' + 8 ≤ a ∨ a + 8 ≤ a') : (s.writeWord a v id).word a' = s.word a' := by
  apply wordOf_congr
  intro j hj
  exact s.byte_writeWord_outside a v id _ (by omega)

/-- The memory decides every byte. -/
theorem State.byte_congr (t : State) (h : t.mem = s.mem) (a : Nat) : t.byte a = s.byte a := by
  simp [State.byte, h]

/-- The memory decides every word. -/
theorem State.word_congr (t : State) (h : t.mem = s.mem) (a : Nat) : t.word a = s.word a := by
  simp [State.word, State.byte, h]

end Sys2Proof.Machine
end

