-- ==== Sys2Proof/Laws/Invariant.lean ====
section
/-! SUPPORT. Each shared operation keeps the invariant. -/

namespace Sys2Proof.Machine

/-! ### Contexts -/

section
variable {p : Params} {P slots : Nat} {x : Ctx}

/-- A context that runs nothing has a legal position under every configuration. -/
theorem Ctx.Ok.reconfigure (h : x.Ok p P slots) (hb : x.state ≠ .busy) (P' slots' : Nat) :
    x.Ok p P' slots' := by
  have hp : x.h.phase = .none := by
    by_contra hne
    exact hb (h.busy.mpr hne)
  exact { h with position := by simp [Ctx.PositionOk, hp] }

theorem Ctx.Ok.overrun (h : x.Ok p P slots) (hb : x.state = .busy) :
    ({ x with overrun := true } : Ctx).Ok p P slots :=
  { h with idle := by intro hi; simp [hb] at hi }

theorem Ctx.Ok.finish (h : x.Ok p P slots) (e : ErrCode) (hm : x.member = false) :
    (x.finish e).Ok p P slots := by
  by_cases he : e = .none
  · subst he
    exact {
      busy := by simp
      errcode := by simp
      member := by simp [hm]
      idle := by simp
      clear := h.clear
      position := by simp [Ctx.PositionOk]
      lanes := h.lanes
      widths := h.widths }
  · rw [Ctx.finish_error _ _ he]
    exact {
      busy := by simp
      errcode := by simp [he]
      member := by simp
      idle := by simp
      clear := h.clear
      position := by simp [Ctx.PositionOk]
      lanes := h.lanes
      widths := h.widths }

/-- A BUSY context has MEMBER = 0. -/
theorem Ctx.Ok.member_busy (h : x.Ok p P slots) (hb : x.state = .busy) : x.member = false := by
  by_contra hm
  simp only [Bool.not_eq_false] at hm
  have := (h.member hm).1
  simp [hb] at this

/-- The state of a context in a phase. -/
theorem Ctx.Ok.state_of_phase (h : x.Ok p P slots) {ph : Phase} (hp : x.h.phase = ph)
    (hne : ph ≠ .none) : x.state = .busy := h.busy.mpr (by rw [hp]; exact hne)

theorem Ctx.reset_ok (p : Params) (P slots : Nat) (g : Hb) :
    ({ Ctx.reset p with hb := g } : Ctx).Ok p P slots where
  busy := by simp [Ctx.reset, Hidden.reset]
  errcode := by simp [Ctx.reset]
  member := by simp [Ctx.reset]
  idle := by simp [Ctx.reset, Hidden.reset]
  clear := by simp [Ctx.reset]
  position := by simp [Ctx.PositionOk, Ctx.reset, Hidden.reset]
  lanes := by simp [Ctx.reset, Hidden.reset]
  widths := by simp [Ctx.reset, Hidden.reset]

/-- The fields finish leaves alone. -/
theorem Ctx.finish_fields (x : Ctx) (e : ErrCode) :
    (x.finish e).state ≠ .busy ∧ (x.finish e).h.op = x.h.op ∧ (x.finish e).hb = x.hb ∧
      (x.finish e).probesDone = x.probesDone ∧ (x.finish e).overrun = x.overrun ∧
      (x.finish e).entryPtr = x.entryPtr ∧ (x.finish e).entryLen = x.entryLen ∧
      (x.finish e).h.phase = .none := by
  unfold Ctx.finish
  split <;> simp

end

/-! ### The state -/

/-- CTRL.EN is 1 while a context is BUSY. -/
theorem State.Inv.en_of_busy_mem {s : State} (hs : s.Inv) {x : Ctx} (hx : x ∈ s.ctxs)
    (hb : x.state = .busy) : s.en = true := by
  by_contra h
  exact hs.disabled (by simpa using h) x hx hb

/-- A state with the same registers, and memories in canonical form. -/
theorem State.Inv.of_same {s t : State} (hs : s.Inv) (hp : t.params = s.params) (he : t.en = s.en)
    (hb : t.base = s.base) (hsl : t.slots = s.slots) (hpr : t.probes = s.probes)
    (hc : t.ctxs = s.ctxs) (hd : t.platform.devices = s.platform.devices)
    (hcl : s.en = true → ∀ known, s.arrayCleared known = true → t.arrayCleared known = true)
    (hr : t.inReset = true → t.AtReset) (hm : Memory.wf t.mem = true)
    (hen : Memory.wf t.entries = true) : t.Inv := by
  have hcx : ∀ c, t.ctx c = s.ctx c := fun c => State.ctx_congr s t c hp hc
  exact {
    params := by rw [hp]; exact hs.params
    nctx := by unfold State.nctx; rw [hc]; exact hs.nctx
    base := by rw [hp, hb]; exact hs.base
    enabled := by
      intro h
      have := hs.enabled (he ▸ h)
      unfold State.configOK State.arrayBytes at *
      rw [hp, hb, hsl, hpr]
      exact this
    disabled := by rw [he, hc]; exact hs.disabled
    ctxs := by rw [hp, hsl, hpr, hc]; exact hs.ctxs
    exclusive := by
      intro c c2 h1 h2 h3
      rw [hcx, hcx]
      unfold State.nctx at h1 h2
      rw [hc] at h1 h2
      exact hs.exclusive c c2 h1 h2 h3
    mem := hm
    entries := hen
    placed := by
      rw [hc, State.placement_congr s t hp hd hb hsl]
      exact hs.placed
    cleared := by
      rw [hc]
      intro x hx hb hop
      exact hcl (hs.en_of_busy_mem hx hb) _ (hs.cleared x hx hb hop)
    reset := hr }

/-- What the invariant asks of a context that replaces context c. -/
structure State.Fits (s : State) (c : Nat) (x : Ctx) : Prop where
  ok : x.Ok s.params s.probes.toNat s.slots.toNat
  busy : x.state = .busy → s.en = true
  alone : x.state = .busy → ∀ c2, c2 < s.nctx → c2 ≠ c → (s.ctx c2).state = .busy →
    x.h.op ≠ 3#4 ∧ (s.ctx c2).h.op ≠ 3#4
  placed : x.state = .busy → s.placement = none
  cleared : x.state = .busy → x.h.op ≠ Instr.clear.opcode → s.arrayCleared x.hb.known = true

theorem Ctx.clearing_iff (x : Ctx) : x.clearing = true ↔ x.state = .busy ∧ x.h.op = 3#4 := by
  simp [Ctx.clearing, Ctx.busy]

theorem State.Inv.setCtx' {s : State} (hs : s.Inv) {c : Nat} (hc : c < s.nctx) {x : Ctx}
    (hr : s.inReset = true → x.AtReset) (hx : s.Fits c x) : (s.setCtx c x).Inv where
  params := hs.params
  nctx := by rw [State.nctx_setCtx]; exact hs.nctx
  base := hs.base
  enabled := hs.enabled
  disabled := by
    intro h y hy
    rcases List.mem_or_eq_of_mem_set hy with hy | rfl
    · exact hs.disabled h y hy
    · intro hb
      have := hx.busy hb
      simp at h
      simp [h] at this
  ctxs := by
    intro y hy
    rcases List.mem_or_eq_of_mem_set hy with hy | rfl
    · exact hs.ctxs y hy
    · exact hx.ok
  exclusive := by
    intro c1 c2 h1 h2 h3 h4
    rw [State.nctx_setCtx] at h1 h2
    by_cases e1 : c1 = c
    · subst e1
      rw [State.ctx_setCtx_same _ _ _ h1, Ctx.clearing_iff] at h4
      rw [State.ctx_setCtx_ne _ _ _ _ (Ne.symm h3)]
      intro hb
      exact (hx.alone h4.1 c2 h2 (Ne.symm h3) hb).1 h4.2
    · rw [State.ctx_setCtx_ne _ _ _ _ e1] at h4
      by_cases e2 : c2 = c
      · subst e2
        rw [State.ctx_setCtx_same _ _ _ h2]
        intro hb
        rw [Ctx.clearing_iff] at h4
        exact (hx.alone hb c1 h1 h3 h4.1).2 h4.2
      · rw [State.ctx_setCtx_ne _ _ _ _ e2]
        exact hs.exclusive c1 c2 h1 h2 h3 h4
  mem := hs.mem
  entries := hs.entries
  placed := by
    intro y hy hb
    rcases List.mem_or_eq_of_mem_set hy with hy | rfl
    · exact hs.placed y hy hb
    · exact hx.placed hb
  cleared := by
    intro y hy hb hop
    rcases List.mem_or_eq_of_mem_set hy with hy | rfl
    · exact hs.cleared y hy hb hop
    · exact hx.cleared hb hop
  reset := by
    intro h
    have r := hs.reset h
    refine ⟨r.en, r.cfgErr, r.lockViol, r.base, r.slots, r.probes, r.seed, ?_⟩
    intro y hy
    rcases List.mem_or_eq_of_mem_set hy with hy | rfl
    · exact r.ctxs y hy
    · exact hr h

theorem State.Inv.setCtx {s : State} (hs : s.Inv) (hr : s.inReset = false) {c : Nat}
    (hc : c < s.nctx) {x : Ctx} (hx : s.Fits c x) : (s.setCtx c x).Inv :=
  hs.setCtx' hc (fun h => absurd h (by simp [hr])) hx

/-- A context in a phase exists. -/
theorem State.exists_of_phase {s : State} {c : Nat} (h : (s.ctx c).h.phase ≠ .none) : c < s.nctx := by
  by_contra hc
  rw [s.ctx_absent c (by omega)] at h
  exact h rfl

theorem State.Inv.ctx {s : State} (hs : s.Inv) {c : Nat} (hc : c < s.nctx) :
    (s.ctx c).Ok s.params s.probes.toNat s.slots.toNat := hs.ctxs _ (s.ctx_mem c hc)

theorem State.Inv.en_of_busy {s : State} (hs : s.Inv) {c : Nat} (hc : c < s.nctx)
    (hb : (s.ctx c).state = .busy) : s.en = true := hs.en_of_busy_mem (s.ctx_mem c hc) hb

/-- A running context's successor with the same opcode fits when its own fields do. -/
theorem State.Inv.fits_of_busy {s : State} (hs : s.Inv) {c : Nat} (hc : c < s.nctx)
    (hb : (s.ctx c).state = .busy) {x : Ctx} (hop : x.h.op = (s.ctx c).h.op)
    (hk : x.hb.known = (s.ctx c).hb.known) (hx : x.Ok s.params s.probes.toNat s.slots.toNat) :
    s.Fits c x where
  ok := hx
  busy := fun _ => hs.en_of_busy hc hb
  alone := by
    intro _ c2 h2 hne hb2
    constructor
    · intro h
      exact hs.exclusive c c2 hc h2 (Ne.symm hne)
        ((Ctx.clearing_iff _).mpr ⟨hb, hop ▸ h⟩) hb2
    · intro h
      exact hs.exclusive c2 c h2 hc hne ((Ctx.clearing_iff _).mpr ⟨hb2, h⟩) hb
  placed := fun _ => hs.placed _ (s.ctx_mem c hc) hb
  cleared := fun _ h => by
    rw [hk]
    exact hs.cleared _ (s.ctx_mem c hc) hb (hop ▸ h)

/-- A context that is not BUSY fits when its own fields do. -/
theorem State.fits_of_not_busy {s : State} {c : Nat} {x : Ctx} (hb : x.state ≠ .busy)
    (hx : x.Ok s.params s.probes.toNat s.slots.toNat) : s.Fits c x where
  ok := hx
  busy := fun h => absurd h hb
  alone := fun h => absurd h hb
  placed := fun h => absurd h hb
  cleared := fun h => absurd h hb

/-- Only the memory, the coherence order and the history change. -/
theorem State.Inv.writeWord {s : State} (hs : s.Inv) (a : Nat) (v : Word) (id : Nat) :
    (s.writeWord a v id).Inv :=
  hs.of_same rfl rfl rfl rfl rfl rfl rfl (fun _ _ h => h)
    (fun h => let r := hs.reset h; ⟨r.en, r.cfgErr, r.lockViol, r.base, r.slots, r.probes, r.seed, r.ctxs⟩)
    (Memory.wf_storeWord _ _ _ hs.mem) hs.entries

theorem State.Inv.record {s : State} (hs : s.Inv) (e : PortEvent) : (s.record e).Inv :=
  hs.of_same rfl rfl rfl rfl rfl rfl rfl (fun _ _ h => h)
    (fun h => let r := hs.reset h; ⟨r.en, r.cfgErr, r.lockViol, r.base, r.slots, r.probes, r.seed, r.ctxs⟩)
    hs.mem hs.entries

theorem State.Inv.respond {s : State} (hs : s.Inv) (r : HostResp) : (s.respond r).Inv :=
  hs.of_same rfl rfl rfl rfl rfl rfl rfl (fun _ _ h => h)
    (fun h => let r := hs.reset h; ⟨r.en, r.cfgErr, r.lockViol, r.base, r.slots, r.probes, r.seed, r.ctxs⟩)
    hs.mem hs.entries

theorem State.Inv.learn {s : State} (hs : s.Inv) (h : Nat) (l : List Nat) : (s.learn h l).Inv :=
  hs.of_same rfl rfl rfl rfl rfl rfl rfl (fun _ _ h => h)
    (fun h => let r := hs.reset h; ⟨r.en, r.cfgErr, r.lockViol, r.base, r.slots, r.probes, r.seed, r.ctxs⟩)
    hs.mem hs.entries

/-- The scheduling fields are not part of the invariant. -/
theorem State.Inv.schedule {s : State} (hs : s.Inv) (l : List Input) (tn : Turn) :
    ({ s with inputs := l, turn := tn } : State).Inv :=
  hs.of_same rfl rfl rfl rfl rfl rfl rfl (fun _ _ h => h)
    (fun h => let r := hs.reset h; ⟨r.en, r.cfgErr, r.lockViol, r.base, r.slots, r.probes, r.seed, r.ctxs⟩)
    hs.mem hs.entries

theorem State.Inv.withNextId {s : State} (hs : s.Inv) (n : Nat) : ({ s with nextId := n } : State).Inv :=
  hs.of_same rfl rfl rfl rfl rfl rfl rfl (fun _ _ h => h)
    (fun h => let r := hs.reset h; ⟨r.en, r.cfgErr, r.lockViol, r.base, r.slots, r.probes, r.seed, r.ctxs⟩)
    hs.mem hs.entries

/-! ### finish, acceptance and issue -/

theorem State.Inv.finish {s : State} (hs : s.Inv) (hr : s.inReset = false) {c : Nat} (hc : c < s.nctx)
    (e : ErrCode) (hm : (s.ctx c).member = false) : (s.finish c e).Inv :=
  hs.setCtx hr hc (State.fits_of_not_busy (Ctx.finish_fields _ e).1
    ((hs.ctx hc).finish e hm))

theorem Ctx.Ok.accept_finish {p : Params} {P slots : Nat} {x : Ctx} (h : x.Ok p P slots)
    (hnb : x.state ≠ .busy) (op : BitVec 4) (id : Nat) (seen : List Nat) (e : ErrCode) :
    ((x.accept op id seen).finish e).Ok p P slots := by
  have hp : x.h.phase = .none := by
    by_contra hne
    exact hnb (h.busy.mpr hne)
  by_cases he : e = .none
  · subst he
    exact {
      busy := by simp
      errcode := by simp
      member := by simp [Ctx.accept]
      idle := by simp
      clear := by simp [Ctx.accept]
      position := by simp [Ctx.PositionOk]
      lanes := h.lanes
      widths := h.widths }
  · rw [Ctx.finish_error _ _ he]
    exact {
      busy := by simp
      errcode := by simp [he]
      member := by simp
      idle := by simp
      clear := by simp [Ctx.accept]
      position := by simp [Ctx.PositionOk]
      lanes := h.lanes
      widths := h.widths }


theorem State.ctx_accept_same (s : State) (h c : Nat) (op : BitVec 4) (hc : c < s.nctx) :
    (s.accept h c op).ctx c = (s.ctx c).accept op s.nextId (s.knownBy h) := by
  have := State.ctx_setCtx_same s c ((s.ctx c).accept op s.nextId (s.knownBy h)) hc
  exact this

theorem State.ctx_accept_ne (s : State) (h c c2 : Nat) (op : BitVec 4) (hne : c2 ≠ c) :
    (s.accept h c op).ctx c2 = s.ctx c2 :=
  State.ctx_setCtx_ne s c c2 _ hne

@[simp] theorem State.nctx_accept (s : State) (h c : Nat) (op : BitVec 4) :
    (s.accept h c op).nctx = s.nctx := by
  simp [State.nctx]

/-- A context written after an acceptance. -/
theorem State.setCtx_accept (s : State) (h c : Nat) (op : BitVec 4) (x : Ctx) :
    (s.accept h c op).setCtx c x = { s.setCtx c x with nextId := s.nextId + 1 } := by
  simp [State.accept, State.setCtx]

theorem State.issue_absent (s : State) (h c : Nat) (op : BitVec 4) (cmd : Option Instr)
    (start : State → Result) (hc : s.nctx ≤ c) : s.issue h c op cmd start = .next s := by
  simp [State.issue, hc]

theorem State.issue_busy (s : State) (h c : Nat) (op : BitVec 4) (cmd : Option Instr)
    (start : State → Result) (hc : c < s.nctx) (hb : (s.ctx c).state = .busy) :
    s.issue h c op cmd start = .next (s.overrun c) := by
  simp [State.issue, Nat.not_le.mpr hc, Ctx.busy, hb]

theorem State.issue_error (s : State) (h c : Nat) (op : BitVec 4) (cmd : Option Instr)
    (start : State → Result) (e : ErrCode) (hc : c < s.nctx) (hb : (s.ctx c).state ≠ .busy)
    (he : (s.accept h c op).issueError c cmd = some e) :
    s.issue h c op cmd start = .next ((s.accept h c op).finish c e) := by
  simp [State.issue, Nat.not_le.mpr hc, Ctx.busy, hb, he]

theorem State.issue_start (s : State) (h c : Nat) (op : BitVec 4) (cmd : Option Instr)
    (start : State → Result) (hc : c < s.nctx) (hb : (s.ctx c).state ≠ .busy)
    (he : (s.accept h c op).issueError c cmd = none) :
    s.issue h c op cmd start = start (s.accept h c op) := by
  simp [State.issue, Nat.not_le.mpr hc, Ctx.busy, hb, he]

/-- Some context is BUSY with a CLEAR. -/
theorem State.clearActive_iff (s : State) : s.clearActive = true ↔
    ∃ c, c < s.nctx ∧ (s.ctx c).state = .busy ∧ (s.ctx c).h.op = 3#4 := by
  unfold State.clearActive
  rw [List.any_eq_true]
  constructor
  · rintro ⟨x, hx, hxc⟩
    obtain ⟨c, hc, rfl⟩ := s.exists_ctx x hx
    exact ⟨c, hc, (Ctx.clearing_iff _).mp hxc⟩
  · rintro ⟨c, hc, h⟩
    exact ⟨_, s.ctx_mem c hc, (Ctx.clearing_iff _).mpr h⟩

theorem State.anyBusy_iff (s : State) : s.anyBusy = true ↔
    ∃ c, c < s.nctx ∧ (s.ctx c).state = .busy := by
  unfold State.anyBusy
  rw [List.any_eq_true]
  constructor
  · rintro ⟨x, hx, hxc⟩
    obtain ⟨c, hc, rfl⟩ := s.exists_ctx x hx
    exact ⟨c, hc, by simpa [Ctx.busy] using hxc⟩
  · rintro ⟨c, hc, h⟩
    exact ⟨_, s.ctx_mem c hc, by simp [Ctx.busy, h]⟩

theorem State.otherBusy_iff (s : State) (c : Nat) : s.otherBusy c = true ↔
    ∃ c2, c2 < s.nctx ∧ c2 ≠ c ∧ (s.ctx c2).state = .busy := by
  simp [State.otherBusy, Ctx.busy]

/-- What an accepted legal command knows when no check fails (41_commands.md R140). -/
theorem State.issueError_none {s : State} {h c : Nat} {op : BitVec 4} {i : Instr}
    (he : (s.accept h c op).issueError c (some i) = none) :
    s.en = true ∧ ∀ c2, c2 < s.nctx → c2 ≠ c → (s.ctx c2).state = .busy →
      i ≠ .clear ∧ (s.ctx c2).h.op ≠ 3#4 := by
  unfold State.issueError at he
  simp only [State.accept_en] at he
  by_cases hen : s.en = true
  · simp only [hen, Bool.not_true, Bool.false_eq_true, if_false] at he
    split at he
    · simp at he
    · rename_i hcf
      refine ⟨hen, fun c2 h2 hne hb => ?_⟩
      simp only [Bool.or_eq_true, Bool.and_eq_true, beq_iff_eq, not_or, not_and,
        State.otherBusy_iff, State.clearActive_iff, State.nctx_accept] at hcf
      constructor
      · intro hi
        exact hcf.1 hi ⟨c2, h2, hne, by rw [State.ctx_accept_ne _ _ _ _ _ hne]; exact hb⟩
      · intro hop
        exact hcf.2 ⟨c2, h2, by rw [State.ctx_accept_ne _ _ _ _ _ hne]; exact ⟨hb, hop⟩⟩
  · simp [hen] at he

theorem State.Inv.overrun {s : State} (hs : s.Inv) (hr : s.inReset = false) {c : Nat}
    (hc : c < s.nctx) (hb : (s.ctx c).state = .busy) : (s.overrun c).Inv :=
  hs.setCtx hr hc (hs.fits_of_busy hc hb rfl rfl ((hs.ctx hc).overrun hb))

/-- A command that ends at issue keeps the invariant. -/
theorem State.Inv.acceptFinish {s : State} (hs : s.Inv) (hr : s.inReset = false) (h : Nat) {c : Nat}
    (hc : c < s.nctx) (hb : (s.ctx c).state ≠ .busy) (op : BitVec 4) (e : ErrCode) :
    ((s.accept h c op).finish c e).Inv := by
  unfold State.finish
  rw [State.ctx_accept_same _ _ _ _ hc, State.setCtx_accept]
  exact (hs.setCtx hr hc (State.fits_of_not_busy (Ctx.finish_fields _ e).1
    ((hs.ctx hc).accept_finish hb op _ _ e))).withNextId _

/-- An accepted ADD or QUERY keeps the invariant. -/
theorem State.Inv.startProbe {s : State} (hs : s.Inv) (hr : s.inReset = false) (h : Nat) {c : Nat}
    (hc : c < s.nctx) (i : Instr) (hi : i ≠ .clear)
    (he : (s.accept h c i.opcode).issueError c (some i) = none)
    (hpl : (s.accept h c i.opcode).placement = none)
    (hcl : (s.accept h c i.opcode).arrayCleared ((s.accept h c i.opcode).ctx c).hb.known = true) :
    ((s.accept h c i.opcode).startProbe c).Inv := by
  obtain ⟨hen, hal⟩ := State.issueError_none he
  have hok := hs.ctx hc
  have hcf := hs.enabled hen
  have hnh := Params.nh_bounds s.params hs.params s.probes.toNat (by
    have := s.probes.isLt
    omega)
  have h1 := Params.one_le_nh s.params s.probes.toNat
  have hop : i.opcode ≠ 3#4 := by cases i <;> simp_all [Instr.opcode]
  unfold State.startProbe
  dsimp only
  rw [State.ctx_accept_same _ _ _ _ hc] at hcl ⊢
  rw [State.setCtx_accept]
  refine (hs.setCtx hr hc ⟨?_, fun _ => hen, ?_, fun _ => hpl, fun _ _ => by exact hcl⟩).withNextId _
  · exact {
      busy := by simp
      errcode := by simp
      member := by simp [Ctx.accept]
      idle := by simp
      clear := by simp [Ctx.accept]
      position := by
        refine ⟨?_, by simp, by simp; omega, by simp, by simp [Ctx.accept]⟩
        cases i
        · exact .inl rfl
        · exact .inr rfl
        · exact absurd rfl hi
      lanes := hok.lanes
      widths := by
        have := hok.widths
        simp [Ctx.accept]
        omega }
  · intro _ c2 h2 hne hb2
    exact ⟨hop, (hal c2 h2 hne hb2).2⟩

/-- An accepted CLEAR keeps the invariant. -/
theorem State.Inv.startClear {s : State} (hs : s.Inv) (hr : s.inReset = false) (h : Nat) {c : Nat}
    (hc : c < s.nctx) (he : (s.accept h c Instr.clear.opcode).issueError c (some .clear) = none)
    (hpl : (s.accept h c Instr.clear.opcode).placement = none) :
    ((s.accept h c Instr.clear.opcode).startClear c).Inv := by
  obtain ⟨hen, hal⟩ := State.issueError_none he
  have hok := hs.ctx hc
  have hcf := hs.enabled hen
  unfold State.startClear
  dsimp only
  rw [State.ctx_accept_same _ _ _ _ hc, State.setCtx_accept]
  refine (hs.setCtx hr hc ⟨?_, fun _ => hen, ?_, fun _ => hpl, fun _ h => absurd rfl h⟩).withNextId _
  · exact {
      busy := by simp
      errcode := by simp
      member := by simp [Ctx.accept]
      idle := by simp
      clear := by simp [Ctx.accept]
      position := by
        refine ⟨rfl, ?_, by simp [Ctx.accept]⟩
        have := Params.wps_pos s.params hs.params
        simp only [State.configOK, Bool.and_eq_true, decide_eq_true_eq] at hcf
        exact Nat.mul_pos (by omega) this
      lanes := hok.lanes
      widths := by
        have := hok.widths
        simp [Ctx.accept]
        omega }
  · intro _ c2 h2 hne hb2
    exact absurd rfl (hal c2 h2 hne hb2).1

/-- An issue keeps the invariant when what an accepted command does keeps it. -/
theorem State.Inv.issue {s t : State} (hs : s.Inv) (hr : s.inReset = false) (h c : Nat) (op : BitVec 4)
    (cmd : Option Instr) (start : State → Result)
    (hst : c < s.nctx → (s.accept h c op).issueError c cmd = none → start (s.accept h c op) = .next t →
      t.Inv)
    (ht : s.issue h c op cmd start = .next t) : t.Inv := by
  by_cases hc : s.nctx ≤ c
  · rw [State.issue_absent _ _ _ _ _ _ hc] at ht
    cases ht
    exact hs
  · have hc' : c < s.nctx := by omega
    by_cases hb : (s.ctx c).state = .busy
    · rw [State.issue_busy _ _ _ _ _ _ hc' hb] at ht
      cases ht
      exact hs.overrun hr hc' hb
    · cases he : (s.accept h c op).issueError c cmd with
      | some e =>
        rw [State.issue_error _ _ _ _ _ _ e hc' hb he] at ht
        cases ht
        exact hs.acceptFinish hr h hc' hb op e
      | none =>
        rw [State.issue_start _ _ _ _ _ _ hc' hb he] at ht
        exact hst hc' he ht

/-- An illegal command word keeps the invariant. -/
theorem State.Inv.issueIllegal {s t : State} (hs : s.Inv) (hr : s.inReset = false) (h c : Nat)
    (op : BitVec 4) (ht : s.issueIllegal h c op = .next t) : t.Inv :=
  hs.issue hr h c op none .next (by intro _ he; simp [State.issueError] at he) ht

/-! ### The ports -/

/-- What a memory step answers (00_scope.md R10; 41_commands.md R147, R149, R151). -/
theorem State.memStep_next {s : State} {c a : Nat} {ok t : State} (h : s.memStep c a ok = .next t) :
    (s.reach a = .ok ∧ t = ok) ∨ (s.reach a = .busErr ∧ t = s.finish c .busErr) := by
  unfold State.memStep at h
  split at h <;> simp_all

/-- What a hash step answers (41_commands.md R141). -/
theorem State.hashStep_next {s : State} {c : Nat} {t : State} (h : s.hashStep c = .next t) :
    (s.hashOK (s.nextSeed c) (s.ctx c).entryPtr (s.ctx c).entryLen = false ∧ t = s.finish c .hashErr) ∨
    (s.hashOK (s.nextSeed c) (s.ctx c).entryPtr (s.ctx c).entryLen = true ∧
      (((s.ctx c).h.r + 1 ≠ (s.ctx c).h.nh ∧
          t = (s.record (s.hashEvent c)).setCtx c ((s.ctx c).withLane (s.nextLane c))) ∨
        ((s.ctx c).h.r + 1 = (s.ctx c).h.nh ∧ s.slots.toNat ≠ 0 ∧
          t = (s.record (s.hashEvent c)).setCtx c
            (((s.ctx c).withLane (s.nextLane c)).toProbe s.params s.slots.toNat)))) := by
  unfold State.hashStep at h
  dsimp only at h
  cases hok : s.hashOK (s.nextSeed c) (s.ctx c).entryPtr (s.ctx c).entryLen with
  | false =>
    simp [hok] at h
    exact .inl ⟨rfl, h.symm⟩
  | true =>
    refine .inr ⟨rfl, ?_⟩
    simp only [hok, Bool.not_true, Bool.false_eq_true, if_false] at h
    split at h
    · rename_i hr
      split at h
      · cases h
      · exact .inr ⟨by simpa [Ctx.withLane] using hr, by assumption, by simpa using h.symm⟩
    · rename_i hr
      exact .inl ⟨by simpa [Ctx.withLane] using hr, by simpa using h.symm⟩

theorem State.Inv.hashStep {s t : State} (hs : s.Inv) (hr : s.inReset = false) {c : Nat}
    (hp : (s.ctx c).h.phase = .hash) (h : s.hashStep c = .next t) : t.Inv := by
  have hc : c < s.nctx := State.exists_of_phase (by rw [hp]; simp)
  have hok := hs.ctx hc
  have hb := hok.state_of_phase hp (by simp)
  have hpos := hok.position
  simp only [Ctx.PositionOk, hp] at hpos
  obtain ⟨hop, hnh, hlt, hi0, hpd⟩ := hpos
  have hw := hok.widths
  have hen := hs.enabled (hs.en_of_busy hc hb)
  simp only [State.configOK, Bool.and_eq_true, decide_eq_true_eq] at hen
  rcases State.hashStep_next h with ⟨-, rfl⟩ | ⟨-, ⟨hne, rfl⟩ | ⟨heq, hsl, rfl⟩⟩
  · exact hs.finish hr hc _ (hok.member_busy hb)
  · refine (hs.record _).setCtx hr hc ((hs.record _).fits_of_busy hc hb rfl rfl ?_)
    exact {
      busy := by simp [Ctx.withLane, hb, hp]
      errcode := hok.errcode
      member := hok.member
      idle := hok.idle
      clear := hok.clear
      position := by
        simp only [Ctx.PositionOk, Ctx.withLane, hp, State.record_params, State.record_probes]
        exact ⟨hop, hnh, by omega, hi0, hpd⟩
      lanes := by simpa [Ctx.withLane] using hok.lanes
      widths := by simp [Ctx.withLane]; omega }
  · refine (hs.record _).setCtx hr hc ((hs.record _).fits_of_busy hc hb rfl rfl ?_)
    exact {
      busy := by simp [Ctx.withLane, Ctx.toProbe, hb]
      errcode := hok.errcode
      member := hok.member
      idle := hok.idle
      clear := hok.clear
      position := by
        simp only [Ctx.PositionOk, Ctx.withLane, Ctx.toProbe, State.record_params,
          State.record_probes, State.record_slots]
        exact ⟨hop, hnh, by omega, by omega, by simp [hpd], slotIndex_lt _ _ _ hen.1.1, rfl⟩
      lanes := by simpa [Ctx.withLane, Ctx.toProbe] using hok.lanes
      widths := by
        have : slotIndex s.params (((s.ctx c).withLane (s.nextLane c)).lane 0).low s.slots.toNat
          < 2 ^ 64 := Nat.lt_trans (slotIndex_lt _ _ _ hen.1.1) s.slots.isLt
        simp only [Ctx.withLane, Ctx.toProbe] at this ⊢
        omega }

end Sys2Proof.Machine
end

