-- ==== Sys2Proof/Laws/Steps.lean ====
section
/-! SUPPORT. Everything the commands' steps can do: one lemma per step, in terms of the memory
operation it performs and the context it leaves; and that each command keeps the invariant. -/

namespace Sys2Proof.Machine

variable (s : State)

/-! ### Contexts through the memory operations -/

@[simp] theorem State.ctx_record (e : PortEvent) (c : Nat) : (s.record e).ctx c = s.ctx c := rfl
@[simp] theorem State.ctx_mark (a : Nat) (v : Word) (host : Option Nat) (c : Nat) :
    (s.mark a v host).ctx c = s.ctx c := rfl
@[simp] theorem State.ctx_respond (r : HostResp) (c : Nat) : (s.respond r).ctx c = s.ctx c := rfl
@[simp] theorem State.ctx_learn (h : Nat) (l : List Nat) (c : Nat) : (s.learn h l).ctx c = s.ctx c := rfl
@[simp] theorem State.ctx_writeWord (a : Nat) (v : Word) (id c : Nat) :
    (s.writeWord a v id).ctx c = s.ctx c := rfl
@[simp] theorem State.ctx_amoOr (c a : Nat) (m : Word) (c2 : Nat) : (s.amoOr c a m).ctx c2 = s.ctx c2 := rfl
@[simp] theorem State.ctx_memWrite (c a : Nat) (v : Word) (c2 : Nat) :
    (s.memWrite c a v).ctx c2 = s.ctx c2 := rfl
@[simp] theorem State.nctx_amoOr (c a : Nat) (m : Word) : (s.amoOr c a m).nctx = s.nctx := rfl
@[simp] theorem State.nctx_memWrite (c a : Nat) (v : Word) : (s.memWrite c a v).nctx = s.nctx := rfl
@[simp] theorem State.nctx_record (e : PortEvent) : (s.record e).nctx = s.nctx := rfl

@[simp] theorem State.setCtx_setCtx (c : Nat) (x y : Ctx) :
    (s.setCtx c x).setCtx c y = s.setCtx c y := by
  simp [State.setCtx]

/-- A context that does not exist cannot be written. -/
theorem State.setCtx_absent (c : Nat) (x : Ctx) (h : s.nctx ≤ c) : s.setCtx c x = s := by
  unfold State.nctx at h
  simp [State.setCtx, List.set_eq_of_length_le h]

/-- The history and the contexts are separate. -/
theorem State.record_setCtx (e : PortEvent) (c : Nat) (x : Ctx) :
    (s.setCtx c x).record e = (s.record e).setCtx c x := rfl

/-! ### What a step answers -/

theorem addProbe_next {c : Nat} {s t : State} (h : addProbe c s = .next t) :
    (s.reach (s.probeAddr c (s.ctx c).h.i) = .busErr ∧ t = s.finish c .busErr) ∨
    (s.reach (s.probeAddr c (s.ctx c).h.i) = .ok ∧
      t = (s.amoOr c (s.probeAddr c (s.ctx c).h.i) (s.probeMask c (s.ctx c).h.i)).setCtx c
        (if (s.ctx c).h.i + 1 = s.probes.toNat
          then (((s.ctx c).act.probed ((s.ctx c).h.i + 1)).atProbe ((s.ctx c).h.i + 1)).finish .none
          else ((s.ctx c).act.probed ((s.ctx c).h.i + 1)).atProbe ((s.ctx c).h.i + 1))) :=
  (State.memStep_next h).symm

/-- The context a QUERY's probe step leaves (41_commands.md R149). -/
theorem queryProbe_next {c lag : Nat} {s t : State} (h : queryProbe c lag s = .next t) :
    (s.reach (s.probeAddr c (s.ctx c).h.i) = .busErr ∧ t = s.finish c .busErr) ∨
    (s.reach (s.probeAddr c (s.ctx c).h.i) = .ok ∧
      ∃ y, y = ((s.ctx c).saw (s.probeAddr c (s.ctx c).h.i)
          (s.loadPosition c (s.probeAddr c (s.ctx c).h.i) lag)).probed ((s.ctx c).h.i + 1) ∧
      t = (s.memRead c (s.probeAddr c (s.ctx c).h.i) lag).setCtx c
        (if s.loadValue c (s.probeAddr c (s.ctx c).h.i) lag &&& s.probeMask c (s.ctx c).h.i = 0#64
          then (y.withMember false).finish .none
          else if (s.ctx c).h.i + 1 = s.probes.toNat
            then ((y.atProbe ((s.ctx c).h.i + 1)).finish .none).withMember true
            else y.atProbe ((s.ctx c).h.i + 1))) := by
  rcases State.memStep_next h with ⟨hr, rfl⟩ | ⟨hr, rfl⟩
  · exact .inr ⟨hr, _, rfl, rfl⟩
  · exact .inl ⟨hr, rfl⟩

theorem clearWord_next {c : Nat} {s t : State} (h : clearWord c s = .next t) :
    (s.reach (s.clearAddr (s.ctx c).h.k) = .busErr ∧ t = s.finish c .busErr) ∨
    (s.reach (s.clearAddr (s.ctx c).h.k) = .ok ∧
      t = (s.memWrite c (s.clearAddr (s.ctx c).h.k) 0#64).setCtx c
        (if (s.ctx c).h.k + 1 = s.arrayWords
          then ((s.ctx c).act.atWord ((s.ctx c).h.k + 1)).finish .none
          else (s.ctx c).act.atWord ((s.ctx c).h.k + 1))) :=
  (State.memStep_next h).symm

/-! ### The invariant -/

theorem State.Inv.amoOr {s : State} (hs : s.Inv) (c a : Nat) (m : Word) : (s.amoOr c a m).Inv :=
  (hs.writeWord _ _ _).record _

theorem State.Inv.mark {s : State} (hs : s.Inv) (a : Nat) (v : Word) (host : Option Nat)
    (hcl : s.en = true → ∀ known, s.arrayCleared known = true →
      (s.mark a v host).arrayCleared known = true) : (s.mark a v host).Inv :=
  hs.of_same rfl rfl rfl rfl rfl rfl rfl hcl
    (fun h => let r := hs.reset h; ⟨r.en, r.cfgErr, r.lockViol, r.base, r.slots, r.probes, r.seed, r.ctxs⟩)
    hs.mem hs.entries

theorem State.Inv.memWrite {s : State} (hs : s.Inv) (c a : Nat) : (s.memWrite c a 0#64).Inv :=
  ((hs.writeWord _ _ _).mark a 0#64 none
    fun _ known h => State.arrayCleared_mark_zero _ known a h).record _

theorem Ctx.Ok.act {p : Params} {P slots : Nat} {x : Ctx} (h : x.Ok p P slots) : x.act.Ok p P slots :=
  ⟨h.busy, h.errcode, h.member, h.idle, h.clear, h.position, h.lanes, h.widths⟩

theorem Ctx.Ok.saw {p : Params} {P slots : Nat} {x : Ctx} (h : x.Ok p P slots) (a n : Nat) :
    (x.saw a n).Ok p P slots :=
  ⟨h.busy, h.errcode, h.member, h.idle, h.clear, h.position, h.lanes, h.widths⟩

/-- A probing context one probe further. -/
theorem Ctx.Ok.nextProbe {p : Params} {P slots : Nat} {x : Ctx} (h : x.Ok p P slots)
    (hp : x.h.phase = .probe) (hP : P ≤ 255) (hlt : x.h.i + 1 ≠ P) :
    ((x.probed (x.h.i + 1)).atProbe (x.h.i + 1)).Ok p P slots := by
  have hb := h.state_of_phase hp (by simp)
  have hpos := h.position
  simp only [Ctx.PositionOk, hp] at hpos
  obtain ⟨hop, hnh, hr, hi, hpd, hsl, hse⟩ := hpos
  have hw := h.widths
  exact {
    busy := by simp [Ctx.probed, Ctx.atProbe, hb, hp]
    errcode := h.errcode
    member := h.member
    idle := by simp [Ctx.probed, Ctx.atProbe, hb]
    clear := by
      intro hcl
      rcases hop with h1 | h1 <;> simp [Ctx.probed, Ctx.atProbe, h1, Instr.opcode] at hcl
    position := by
      simp only [Ctx.PositionOk, Ctx.probed, Ctx.atProbe, hp]
      refine ⟨hop, hnh, hr, by omega, ?_, hsl, hse⟩
      rw [BitVec.toNat_ofNat]
      omega
    lanes := h.lanes
    widths := by simp only [Ctx.probed, Ctx.atProbe]; omega }

/-- A context that ended DONE. -/
theorem Ctx.ok_of_done {p : Params} {P slots : Nat} {x : Ctx} (hd : x.state = .done)
    (he : x.errcode = .none) (hp : x.h.phase = .none)
    (hm : x.member = true → x.h.op = Instr.query.opcode)
    (hc : x.h.op = Instr.clear.opcode → x.probesDone = 0#8) (hl : x.h.lanes.length = p.nhMax)
    (hw : x.h.nh < 2 ^ 6 ∧ x.h.r < 2 ^ 6 ∧ x.h.slot < 2 ^ 64 ∧ x.h.i < 2 ^ 8 ∧ x.h.k < 2 ^ 64) :
    x.Ok p P slots where
  busy := by simp [hd, hp]
  errcode := by simp [hd, he]
  member := fun h => ⟨hd, hm h⟩
  idle := by simp [hd]
  clear := hc
  position := by simp [Ctx.PositionOk, hp]
  lanes := hl
  widths := hw

theorem probing_not_clear {x : Ctx} (h : x.probing) : x.h.op ≠ Instr.clear.opcode := by
  rcases h with h | h <;> simp [h, Instr.opcode]

theorem State.Inv.addProbe {s t : State} (hs : s.Inv) (hr : s.inReset = false) {c : Nat}
    (hp : (s.ctx c).h.phase = .probe) (h : addProbe c s = .next t) : t.Inv := by
  have hc : c < s.nctx := State.exists_of_phase (by rw [hp]; simp)
  have hok := hs.ctx hc
  have hb := hok.state_of_phase hp (by simp)
  have hw := hok.widths
  have hpos := hok.position
  simp only [Ctx.PositionOk, hp] at hpos
  have hP := s.probes.isLt
  rcases addProbe_next h with ⟨-, rfl⟩ | ⟨-, rfl⟩
  · exact hs.finish hr hc _ (hok.member_busy hb)
  · split
    · refine (hs.amoOr _ _ _).setCtx hr hc (State.fits_of_not_busy (Ctx.finish_fields _ _).1 ?_)
      exact Ctx.ok_of_done rfl rfl rfl
        (by simp [Ctx.probed, Ctx.atProbe, hok.member_busy hb])
        (fun hcl => absurd hcl (probing_not_clear hpos.1)) hok.lanes
        (by simp only [Ctx.probed, Ctx.atProbe, Ctx.finish_none, Ctx.act_h]; omega)
    · rename_i hne
      exact (hs.amoOr _ _ _).setCtx hr hc ((hs.amoOr _ _ _).fits_of_busy hc hb rfl rfl
        (hok.act.nextProbe hp (by omega) hne))

theorem State.Inv.queryProbe {s t : State} (hs : s.Inv) (hr : s.inReset = false) {c lag : Nat}
    (hp : (s.ctx c).h.phase = .probe) (hq : (s.ctx c).h.op = Instr.query.opcode)
    (h : queryProbe c lag s = .next t) : t.Inv := by
  have hc : c < s.nctx := State.exists_of_phase (by rw [hp]; simp)
  have hok := hs.ctx hc
  have hb := hok.state_of_phase hp (by simp)
  have hw := hok.widths
  have hpos := hok.position
  simp only [Ctx.PositionOk, hp] at hpos
  have hP := s.probes.isLt
  rcases queryProbe_next h with ⟨-, rfl⟩ | ⟨-, y, hy, rfl⟩
  · exact hs.finish hr hc _ (hok.member_busy hb)
  · generalize hx : (s.ctx c).saw _ _ = x at hy
    have hxok : x.Ok s.params s.probes.toNat s.slots.toNat := hx ▸ hok.saw _ _
    have hxh : x.h = (s.ctx c).h := by rw [← hx]; rfl
    have hm : (s.memRead c (s.probeAddr c (s.ctx c).h.i) lag).Inv := hs.record _
    subst hy
    split
    · refine hm.setCtx hr hc (State.fits_of_not_busy (Ctx.finish_fields _ _).1 ?_)
      exact Ctx.ok_of_done rfl rfl rfl (by simp [Ctx.withMember])
        (fun hcl => absurd (by simpa [Ctx.withMember, Ctx.probed, hxh] using hcl) (probing_not_clear hpos.1))
        (by simpa [Ctx.withMember, Ctx.probed, hxh] using hok.lanes)
        (by simp only [Ctx.withMember, Ctx.probed, Ctx.finish_none, hxh]; omega)
    · split
      · refine hm.setCtx hr hc (State.fits_of_not_busy (Ctx.finish_fields _ _).1 ?_)
        exact Ctx.ok_of_done rfl rfl rfl
          (by intro _; simpa [Ctx.withMember, Ctx.probed, Ctx.atProbe, hxh] using hq)
          (fun hcl => absurd (by simpa [Ctx.withMember, Ctx.probed, Ctx.atProbe, hxh] using hcl)
            (probing_not_clear hpos.1))
          (by simpa [Ctx.withMember, Ctx.probed, Ctx.atProbe, hxh] using hok.lanes)
          (by simp only [Ctx.withMember, Ctx.probed, Ctx.atProbe, Ctx.finish_none, hxh]; omega)
      · rename_i hne
        refine hm.setCtx hr hc (hm.fits_of_busy hc hb (by simp [Ctx.probed, Ctx.atProbe, hxh, State.memRead])
          (by rw [← hx]; rfl) ?_)
        rw [← hxh]
        exact hxok.nextProbe (by rw [hxh, hp]) (by omega) (by rw [hxh]; exact hne)

theorem State.Inv.clearWord {s t : State} (hs : s.Inv) (hr : s.inReset = false) {c : Nat}
    (hp : (s.ctx c).h.phase = .clear) (h : clearWord c s = .next t) : t.Inv := by
  have hc : c < s.nctx := State.exists_of_phase (by rw [hp]; simp)
  have hok := hs.ctx hc
  have hb := hok.state_of_phase hp (by simp)
  have hw := hok.widths
  have hpos := hok.position
  simp only [Ctx.PositionOk, hp] at hpos
  have hen := hs.enabled (hs.en_of_busy hc hb)
  simp only [State.configOK, Bool.and_eq_true, decide_eq_true_eq] at hen
  have hk : (s.ctx c).h.k + 1 < 2 ^ 64 := by
    have hl := s.params.line_eq hs.params
    have h2 := hen.2
    unfold State.arrayBytes addressSpace at h2
    rw [hl] at h2
    have : s.slots.toNat * (8 * s.params.wps) = 8 * (s.slots.toNat * s.params.wps) := by ring
    omega
  have hm := hs.memWrite c (s.clearAddr (s.ctx c).h.k)
  have hmr : (s.memWrite c (s.clearAddr (s.ctx c).h.k) 0#64).inReset = false := by
    rw [State.memWrite_inReset]; exact hr
  have hmc : c < (s.memWrite c (s.clearAddr (s.ctx c).h.k) 0#64).nctx := by
    rw [State.nctx_memWrite]; exact hc
  rcases clearWord_next h with ⟨-, rfl⟩ | ⟨-, rfl⟩
  · exact hs.finish hr hc _ (hok.member_busy hb)
  · split
    · refine hm.setCtx hmr hmc (State.fits_of_not_busy (Ctx.finish_fields _ _).1 ?_)
      exact Ctx.ok_of_done rfl rfl rfl
        (by simp [Ctx.atWord, hok.member_busy hb]) (fun _ => hpos.2.2) hok.lanes
        (by simp only [Ctx.atWord, Ctx.finish_none, Ctx.act_h]; omega)
    · rename_i hne
      refine hm.setCtx hmr hmc (hm.fits_of_busy hmc (by rw [State.ctx_memWrite]; exact hb)
        (by rw [State.ctx_memWrite]; rfl) (by rw [State.ctx_memWrite]; rfl) ?_)
      exact {
        busy := by simp [Ctx.atWord, hb, hp]
        errcode := hok.errcode
        member := hok.member
        idle := hok.idle
        clear := hok.clear
        position := by
          simp only [Ctx.PositionOk, Ctx.atWord, Ctx.act_h, Ctx.act_probesDone, hp, State.memWrite_params,
            State.memWrite_slots]
          refine ⟨hpos.1, ?_, hpos.2.2⟩
          have := hpos.2.1
          unfold State.arrayWords at hne
          omega
        lanes := hok.lanes
        widths := by simp only [Ctx.atWord, Ctx.act_h]; omega }

/-! ### The commands keep the invariant -/

/-- execAdd as exec runs it: an issue, or the step of a context whose command is an ADD. -/
theorem State.Inv.execAdd {s t : State} (hs : s.Inv) (hr : s.inReset = false)
    (h : execAdd s = .next t) : t.Inv := by
  unfold Machine.execAdd at h
  split at h
  · refine hs.issue hr _ _ _ _ _ (fun hc he hst => ?_) h
    obtain ⟨rfl, hpl, hcl⟩ := State.starts_next hst
    exact hs.startProbe hr _ hc .add (by simp) he hpl (hcl (by simp))
  · unfold addStep at h
    split at h
    · exact hs.hashStep hr (by assumption) h
    · exact hs.addProbe hr (by assumption) h
    · cases h; exact hs
    · cases h; exact hs

theorem State.Inv.execQuery {s t : State} (hs : s.Inv) (hr : s.inReset = false)
    (hq : ∀ c lag, s.turn = .advance c lag → (s.ctx c).h.op = Instr.query.opcode)
    (h : execQuery s = .next t) : t.Inv := by
  unfold Machine.execQuery at h
  split at h
  · refine hs.issue hr _ _ _ _ _ (fun hc he hst => ?_) h
    obtain ⟨rfl, hpl, hcl⟩ := State.starts_next hst
    exact hs.startProbe hr _ hc .query (by simp) he hpl (hcl (by simp))
  · rename_i c lag htn
    unfold queryStep at h
    split at h
    · exact hs.hashStep hr (by assumption) h
    · exact hs.queryProbe hr (by assumption) (hq _ _ htn) h
    · cases h; exact hs
    · cases h; exact hs

theorem State.Inv.execClear {s t : State} (hs : s.Inv) (hr : s.inReset = false)
    (h : execClear s = .next t) : t.Inv := by
  unfold Machine.execClear at h
  split at h
  · refine hs.issue hr _ _ _ _ _ (fun hc he hst => ?_) h
    obtain ⟨rfl, hpl, -⟩ := State.starts_next hst
    exact hs.startClear hr _ hc he hpl
  · unfold clearStep at h
    split at h
    · exact hs.clearWord hr (by assumption) h
    · cases h; exact hs
    · cases h; exact hs
    · cases h; exact hs

end Sys2Proof.Machine
end

