-- ==== Sys2Proof/Laws/Access.lean ====
section
/-! SUPPORT. What register accesses, a context's turn and hardware reset keep of the invariant. -/

namespace Sys2Proof.Machine


/-- The command a running context runs is the one its h.op names (60_exceptions.md R212). -/
theorem running_some {s : State} {c : Nat} {i : Instr} (h : s.running c = some i) :
    (s.ctx c).h.phase ≠ .none ∧ (s.ctx c).h.op = i.opcode := by
  unfold State.running at h
  have key : ∀ op : BitVec 4, decodeOp op = some i → op = i.opcode := by
    intro op; unfold decodeOp
    intro h
    split at h
    · cases h; assumption
    · split at h
      · cases h; assumption
      · split at h
        · cases h; assumption
        · cases h
  split at h
  · cases h
  all_goals (rename_i hp; exact ⟨by rw [hp]; simp, key _ h⟩)

/-- A context's turn keeps the invariant. -/
theorem State.Inv.sequencerStep {s t : State} (hs : s.Inv) {c lag : Nat}
    (h : sequencerStep c lag s = .next t) : t.Inv := by
  unfold Machine.sequencerStep at h
  split at h
  · cases h; exact hs
  · rename_i hr
    have hr : s.inReset = false := by simpa using hr
    split at h
    · rename_i i hi
      have hs' : ({ s with turn := .advance c lag } : State).Inv := hs.schedule s.inputs _
      have hop := (running_some hi).2
      cases i with
      | add => exact hs'.execAdd hr h
      | query =>
        refine hs'.execQuery hr ?_ h
        intro c2 lag2 he
        cases he
        exact hop
      | clear => exact hs'.execClear hr h
    · cases h; exact hs

/-- BASE is a multiple of LINE after a write (10_state.md R29). -/
theorem alignDown_mod (p : Params) (h : p.wf = true) (v : Word) : (alignDown p v).toNat % p.line = 0 := by
  rw [Params.wf_iff] at h
  obtain ⟨h1, h2, -⟩ := h
  unfold alignDown Params.line
  have hl : 2 ^ p.lineLog2 - 1 < 2 ^ 64 := by
    have : 2 ^ p.lineLog2 ≤ 2 ^ 12 := Nat.pow_le_pow_right (by omega) h2
    omega
  rw [← Nat.and_two_pow_sub_one_eq_mod]
  apply Nat.eq_of_testBit_eq
  intro i
  simp only [Nat.testBit_and, Nat.zero_testBit, Nat.testBit_two_pow_sub_one, BitVec.testBit_toNat,
    BitVec.getLsbD_and, BitVec.getLsbD_not, BitVec.getLsbD_ofNat]
  by_cases hi : i < p.lineLog2
  · have : i < 64 := by omega
    simp [hi, this]
  · simp [hi]

/-- Hardware reset gives a context the values of 10_state.md R43. -/
theorem Ctx.hwReset_atReset (x : Ctx) (p : Params) : (x.hwReset p).AtReset :=
  ⟨rfl, rfl, rfl, rfl, rfl, rfl, rfl, rfl, rfl⟩

/-- Hardware reset keeps the invariant. -/
theorem State.Inv.hwReset {s : State} (hs : s.Inv) : s.hwReset.Inv where
  params := hs.params
  nctx := by have := hs.nctx; simpa [State.nctx] using this
  base := by simp
  enabled := by simp
  disabled := by
    intro _ x hx
    simp at hx
    obtain ⟨y, -, rfl⟩ := hx
    simp [Ctx.hwReset, Ctx.reset]
  ctxs := by
    intro x hx
    simp at hx
    obtain ⟨y, -, rfl⟩ := hx
    exact Ctx.reset_ok _ _ _ _
  exclusive := by
    intro c c2 h1 h2 _ h4
    have := (s.hwReset.ctx_mem c h1)
    simp only [State.hwReset_ctxs, List.mem_map] at this
    obtain ⟨y, -, hy⟩ := this
    rw [← hy] at h4
    simp [Ctx.clearing, Ctx.busy, Ctx.hwReset, Ctx.reset] at h4
  mem := hs.mem
  entries := hs.entries
  placed := by
    intro x hx hb
    simp at hx
    obtain ⟨y, -, rfl⟩ := hx
    simp [Ctx.hwReset, Ctx.reset] at hb
  cleared := by
    intro x hx hb
    simp at hx
    obtain ⟨y, -, rfl⟩ := hx
    simp [Ctx.hwReset, Ctx.reset] at hb
  reset := by
    intro _
    refine ⟨rfl, rfl, rfl, rfl, rfl, rfl, rfl, ?_⟩
    intro x hx
    simp at hx
    obtain ⟨y, -, rfl⟩ := hx
    exact y.hwReset_atReset _

/-- What andThen answers next. -/
theorem andThen_next {o : Result} {f : State → Result} {t : State} (h : andThen o f = .next t) :
    ∃ u, o = .next u ∧ f u = .next t := by
  unfold andThen at h
  split at h
  · exact ⟨_, rfl, h⟩
  · cases h
  · cases h

/-- Dropping one context to its reset value keeps the invariant. -/
theorem State.Inv.dropCtx {s : State} (hs : s.Inv) (c : Nat) :
    (s.setCtx c ((s.ctx c).hwReset s.params)).Inv := by
  by_cases hc : c < s.nctx
  · exact hs.setCtx' hc (fun _ => (s.ctx c).hwReset_atReset _)
      (State.fits_of_not_busy (by simp [Ctx.hwReset, Ctx.reset]) (Ctx.reset_ok _ _ _ _))
  · rw [s.setCtx_absent _ _ (by omega)]; exact hs

/-- Performing an outstanding transaction and dropping its command keeps the invariant. -/
theorem State.Inv.abandon {s t : State} (hs : s.Inv) {c lag : Nat}
    (h : abandon c lag s = .next t) : t.Inv := by
  unfold Machine.abandon at h
  dsimp only at h
  split at h
  · obtain ⟨u, hu, h⟩ := andThen_next h
    cases h
    exact State.Inv.dropCtx (State.Inv.sequencerStep hs hu) c
  · obtain ⟨u, hu, h⟩ := andThen_next h
    cases h
    exact State.Inv.dropCtx (State.Inv.sequencerStep hs hu) c
  · cases h; exact hs
  · cases h; exact hs

/-- Asserting reset keeps the invariant. -/
theorem State.Inv.assertReset {l : List (Nat × Nat)} {s t : State} (hs : s.Inv)
    (h : assertReset l s = .next t) : t.Inv := by
  induction l generalizing s with
  | nil => cases h; exact State.Inv.hwReset hs
  | cons e l ih =>
    obtain ⟨c, lag⟩ := e
    obtain ⟨u, hu, h⟩ := andThen_next h
    exact ih (State.Inv.abandon hs hu) h

/-- The sticky flags are free of the invariant. -/
theorem State.Inv.withFlags {s : State} (hs : s.Inv) (hr : s.inReset = false) (a b : Bool) :
    ({ s with cfgErr := a, lockViol := b } : State).Inv :=
  hs.of_same rfl rfl rfl rfl rfl rfl rfl (fun _ _ h => h) (by intro h; simp [hr] at h) hs.mem hs.entries

/-- The configuration may be rewritten while CTRL.EN = 0 (42_register_access.md R174, R175). -/
theorem State.Inv.withConfig {s : State} (hs : s.Inv) (hr : s.inReset = false) (hen : s.en = false)
   (b : Word) (hb : b.toNat % s.params.line = 0) (sl : Word) (P : BitVec 8) (sd : Word) :
   ({ s with base := b, slots := sl, probes := P, seed := sd } : State).Inv where
  params := hs.params
  nctx := hs.nctx
  base := hb
  enabled := by intro h; simp [hen] at h
  disabled := hs.disabled
  ctxs := fun x hx => (hs.ctxs x hx).reconfigure (hs.disabled hen x hx) _ _
  exclusive := hs.exclusive
  mem := hs.mem
  entries := hs.entries
  placed := fun x hx hb => absurd hb (hs.disabled hen x hx)
  cleared := fun x hx hb => absurd hb (hs.disabled hen x hx)
  reset := by intro h; simp [hr] at h

/-- A legal register write keeps the invariant. -/
theorem State.Inv.writeReg {s : State} (hs : s.Inv) (hr : s.inReset = false) (v : Word) (r : Reg)
    (hreg : ∀ c, (r = .entryPtr c ∨ r = .entryLen c) → c < s.nctx) :
    (s.writeReg v r).Inv := by
  have hcfg : ∀ s', (s.en = false → s'.Inv) → (s.configWrite s').Inv := by
    intro s' h
    unfold State.configWrite
    split
    · exact State.Inv.withFlags hs hr s.cfgErr true
    · exact h (by simp_all)
  have hent : ∀ c, c < s.nctx → ∀ x : Ctx,
      ((s.ctx c).state ≠ .busy →
        x.state ≠ .busy ∧ x.Ok s.params s.probes.toNat s.slots.toNat) → (s.entryWrite c x).Inv := by
    intro c hc x hx
    unfold State.entryWrite
    split
    · rename_i hb
      exact hs.overrun hr hc (by simpa [Ctx.busy] using hb)
    · rename_i hb
      have := hx (by simpa [Ctx.busy] using hb)
      exact hs.setCtx hr hc (State.fits_of_not_busy this.1 this.2)
  cases r with
  | ctrl =>
    simp only [State.writeReg, State.writeCtrl]
    split
    · exact hs
    · split
      · split
        · rename_i hne _ hok
          have hen : s.en = false := by
            cases h : s.en <;> simp_all
          exact { hs with
            enabled := fun _ => hok
            disabled := by intro h; simp at h
            reset := by intro h; simp [hr] at h }
        · exact State.Inv.withFlags hs hr true s.lockViol
      · split
        · exact State.Inv.withFlags hs hr s.cfgErr true
        · rename_i hb
          exact { hs with
            enabled := by intro h; simp at h
            disabled := by
              intro _ x hx hxb
              obtain ⟨c, hc, rfl⟩ := s.exists_ctx x hx
              exact hb ((State.anyBusy_iff _).mpr ⟨c, hc, hxb⟩)
            reset := by intro h; simp [hr] at h }
  | gstatus => exact State.Inv.withFlags hs hr _ _
  | base => exact hcfg _ fun hen => State.Inv.withConfig hs hr hen _ (alignDown_mod _ hs.params v) _ _ _
  | slots => exact hcfg _ fun hen => State.Inv.withConfig hs hr hen _ hs.base _ _ _
  | probes => exact hcfg _ fun hen => State.Inv.withConfig hs hr hen _ hs.base _ _ _
  | seed => exact hcfg _ fun hen => State.Inv.withConfig hs hr hen _ hs.base _ _ _
  | entryPtr c =>
    have hc := hreg c (.inl rfl)
    have hk := hs.ctx hc
    exact hent c hc _ fun hb => ⟨hb,
      ⟨hk.busy, hk.errcode, hk.member, hk.idle, hk.clear, hk.position, hk.lanes, hk.widths⟩⟩
  | entryLen c =>
    have hc := hreg c (.inr rfl)
    have hk := hs.ctx hc
    exact hent c hc _ fun hb => ⟨hb,
      ⟨hk.busy, hk.errcode, hk.member, hk.idle, hk.clear, hk.position, hk.lanes, hk.widths⟩⟩
  | id => exact hs
  | param => exact hs
  | regenK => exact hs
  | cmd c => exact hs
  | status c => exact hs
  | result c => exact hs
  | reserved => exact hs

/-- A register the map names exists, or is reserved (10_state.md R23). -/
theorem regAt_wf (n off : Nat) (r : Reg) (h : regAt n off = r) : r = .reserved ∨ r.wf n = true := by
  subst h
  unfold regAt
  dsimp only
  repeat' split
  all_goals simp_all [Reg.wf]

/-- A write to CMD keeps the invariant. -/
theorem State.Inv.cmdWrite {s t : State} (hs : s.Inv) (hr : s.inReset = false) {h c : Nat} {v : Word}
    (hh : cmdWrite h c v s = .next t) : t.Inv := by
  unfold Machine.cmdWrite at hh
  split at hh
  · rename_i i hi
    have hs' : ({ s with turn := .issue h c } : State).Inv := hs.schedule s.inputs _
    cases i with
    | add => exact hs'.execAdd hr hh
    | query => exact hs'.execQuery hr (by intro c2 l2 he; cases he) hh
    | clear => exact hs'.execClear hr hh
  · exact hs.issueIllegal hr _ _ _ hh

/-- A read keeps the invariant. -/
theorem State.Inv.observe {s : State} (hs : s.Inv) (h : Nat) (r : Reg) : (s.observe h r).Inv := by
  unfold State.observe
  split
  · split
    · exact hs.learn _ _
    · exact hs
  all_goals exact hs

/-- A register access keeps the invariant. -/
theorem State.Inv.hostAccess {s t : State} (hs : s.Inv) {h : Nat} {a : Access}
    (hh : hostAccess h a s = .next t) : t.Inv := by
  unfold Machine.hostAccess at hh
  split at hh
  · cases hh; exact hs.respond _
  · rename_i hr
    have hr : s.inReset = false := by simpa using hr
    split at hh
    · unfold legalAccess at hh
      dsimp only at hh
      split at hh
      · cases hh
        exact (State.Inv.observe hs _ _).respond _
      · split at hh
        · exact State.Inv.cmdWrite (s := s.respond .ok) (hs.respond _) hr hh
        · cases hh
          refine (State.Inv.writeReg hs hr _ _ ?_).respond _
          intro c hc
          have := regAt_wf _ _ _ (rfl : regAt s.nctx (Access.offset a s.params) = _)
          rcases hc with hc | hc <;> rw [hc] at this <;> simpa [Reg.wf] using this
    · cases hh; exact hs.respond _

end Sys2Proof.Machine
end

