-- ==== Sys2Proof/Laws/Frame.lean ====
section
/-! SUPPORT. What the shared operations leave unchanged, and which register a legal access reaches. -/

namespace Sys2Proof.Machine

/-! ### State.FrameOf -/

theorem State.FrameOf.refl (s : State) (c : Nat) : s.FrameOf c s := by
  constructor <;> intros <;> rfl

theorem State.FrameOf.trans {s t u : State} {c : Nat} (h : s.FrameOf c t) (k : t.FrameOf c u) :
    s.FrameOf c u where
  params := k.params.trans h.params
  platform := k.platform.trans h.platform
  en := k.en.trans h.en
  cfgErr := k.cfgErr.trans h.cfgErr
  lockViol := k.lockViol.trans h.lockViol
  base := k.base.trans h.base
  slots := k.slots.trans h.slots
  probes := k.probes.trans h.probes
  seed := k.seed.trans h.seed
  nctx := k.nctx.trans h.nctx
  others := fun c2 hc => (k.others c2 hc).trans (h.others c2 hc)
  entryPtr := k.entryPtr.trans h.entryPtr
  entryLen := k.entryLen.trans h.entryLen
  inReset := k.inReset.trans h.inReset
  entries := k.entries.trans h.entries
  observed := k.observed.trans h.observed
  hostResp := k.hostResp.trans h.hostResp
  turn := k.turn.trans h.turn
  inputs := k.inputs.trans h.inputs

/-- Replacing context c by one with the same entry registers changes nothing outside it. -/
theorem State.frame_setCtx (s : State) (c : Nat) (x : Ctx) (h1 : x.entryPtr = (s.ctx c).entryPtr)
    (h2 : x.entryLen = (s.ctx c).entryLen) : s.FrameOf c (s.setCtx c x) := by
  have hx : ((s.setCtx c x).ctx c).entryPtr = (s.ctx c).entryPtr ∧
      ((s.setCtx c x).ctx c).entryLen = (s.ctx c).entryLen := by
    by_cases hc : c < s.nctx
    · rw [State.ctx_setCtx_same _ _ _ hc]
      exact ⟨h1, h2⟩
    · rw [s.setCtx_absent _ _ (by omega)]
      exact ⟨rfl, rfl⟩
  constructor
  case nctx => simp [State.nctx]
  case others => exact fun c2 hc => State.ctx_setCtx_ne _ _ _ _ hc
  case entryPtr => exact hx.1
  case entryLen => exact hx.2
  all_goals rfl

theorem State.frame_record (s : State) (e : PortEvent) (c : Nat) : s.FrameOf c (s.record e) := by
  constructor <;> intros <;> rfl

theorem State.frame_writeWord (s : State) (a : Nat) (v : Word) (id c : Nat) :
    s.FrameOf c (s.writeWord a v id) := by
  constructor <;> intros <;> rfl

theorem State.frame_amoOr (s : State) (c a : Nat) (m : Word) : s.FrameOf c (s.amoOr c a m) :=
  (s.frame_writeWord _ _ _ c).trans (State.frame_record _ _ c)

theorem State.frame_mark (s : State) (a : Nat) (v : Word) (host : Option Nat) (c : Nat) :
    s.FrameOf c (s.mark a v host) := by
  constructor <;> intros <;> rfl

theorem State.frame_memWrite (s : State) (c a : Nat) (v : Word) : s.FrameOf c (s.memWrite c a v) :=
  ((s.frame_writeWord _ _ _ c).trans (State.frame_mark _ _ _ _ c)).trans (State.frame_record _ _ c)

theorem State.frame_memRead (s : State) (c a lag : Nat) : s.FrameOf c (s.memRead c a lag) :=
  s.frame_record _ c

theorem State.frame_accept (s : State) (h c : Nat) (op : BitVec 4) :
    s.FrameOf c (s.accept h c op) := by
  have k := s.frame_setCtx c ((s.ctx c).accept op s.nextId (s.knownBy h)) rfl rfl
  exact { k with }

theorem Ctx.finish_entry (x : Ctx) (e : ErrCode) :
    (x.finish e).entryPtr = x.entryPtr ∧ (x.finish e).entryLen = x.entryLen := by
  unfold Ctx.finish
  split <;> exact ⟨rfl, rfl⟩

theorem State.frame_finish (s : State) (c : Nat) (e : ErrCode) : s.FrameOf c (s.finish c e) :=
  s.frame_setCtx _ _ (Ctx.finish_entry _ _).1 (Ctx.finish_entry _ _).2

/-- A write to CMD changes nothing outside its context (41_commands.md R140). -/
theorem State.frame_issue {s t : State} (h c : Nat) (op : BitVec 4) (cmd : Option Instr)
    (start : State → Result) (hs : ∀ u v : State, start u = .next v → u.FrameOf c v)
    (ht : s.issue h c op cmd start = .next t) : s.FrameOf c t := by
  unfold State.issue at ht
  split at ht
  · cases ht
    exact .refl _ _
  · split at ht
    · cases ht
      exact s.frame_setCtx _ _ rfl rfl
    · dsimp only at ht
      split at ht
      · cases ht
        exact (s.frame_accept h c op).trans (State.frame_finish _ _ _)
      · exact (s.frame_accept h c op).trans (hs _ _ ht)

/-- A write to CMD touches neither memory nor its coherence order nor the history. -/
theorem State.mem_issue {s t : State} (h c : Nat) (op : BitVec 4) (cmd : Option Instr)
    (start : State → Result)
    (hs : ∀ u v : State, start u = .next v →
      v.mem = u.mem ∧ v.writes = u.writes ∧ v.cleared = u.cleared ∧ v.history = u.history)
    (ht : s.issue h c op cmd start = .next t) :
    t.mem = s.mem ∧ t.writes = s.writes ∧ t.cleared = s.cleared ∧ t.history = s.history := by
  unfold State.issue at ht
  split at ht
  · cases ht
    exact ⟨rfl, rfl, rfl, rfl⟩
  · split at ht
    · cases ht
      exact ⟨rfl, rfl, rfl, rfl⟩
    · dsimp only at ht
      split at ht
      · cases ht
        exact ⟨rfl, rfl, rfl, rfl⟩
      · have k := hs (s.accept h c op) t ht
        exact k

theorem State.frame_hashStep {s t : State} {c : Nat} (h : s.hashStep c = .next t) :
    s.FrameOf c t := by
  rcases State.hashStep_next h with ⟨-, rfl⟩ | ⟨-, ⟨-, rfl⟩ | ⟨-, -, rfl⟩⟩
  · exact s.frame_finish _ _
  · exact (s.frame_record _ c).trans (State.frame_setCtx _ _ _ rfl rfl)
  · exact (s.frame_record _ c).trans (State.frame_setCtx _ _ _ rfl rfl)

/-! ### The register window -/

/-- The window ends inside the address space, so an offset adds without wrapping (10_state.md R23). -/
theorem window_toNat (p : Params) (hp : p.wf = true) (off : Nat) (ho : off < 4096) :
    (BitVec.ofNat 64 (p.mmioBase.toNat + off)).toNat = p.mmioBase.toNat + off := by
  rw [Params.wf_iff] at hp
  have := p.mmioBase.isLt
  rw [BitVec.toNat_ofNat]
  omega

/-- A 64-bit access at an aligned offset of the window is legal and reaches that offset
(42_register_access.md R170). -/
theorem Access.legal_at (p : Params) (hp : p.wf = true) (off : Nat) (ho : off < 4096)
    (ha : off % 8 = 0) (k : AccessKind) :
    Access.legal ⟨BitVec.ofNat 64 (p.mmioBase.toNat + off), 8, k⟩ p = true ∧
      Access.offset ⟨BitVec.ofNat 64 (p.mmioBase.toNat + off), 8, k⟩ p = off := by
  have hw := window_toNat p hp off ho
  rw [Params.wf_iff] at hp
  unfold Access.legal Access.offset
  simp only [hw]
  refine ⟨?_, by omega⟩
  simp only [decide_true, Bool.true_and, Bool.and_eq_true, decide_eq_true_eq]
  omega

/-- A step that serves a 64-bit access at an aligned offset of the window is the legal access. -/
theorem step_access (s : State) (h off : Nat) (k : AccessKind) (rest : List Input)
    (hr : s.inReset = false) (hp : s.params.wf = true) (ho : off < 4096) (ha : off % 8 = 0)
    (hi : s.inputs = .access h ⟨BitVec.ofNat 64 (s.params.mmioBase.toNat + off), 8, k⟩ :: rest) :
    step s = legalAccess h ⟨BitVec.ofNat 64 (s.params.mmioBase.toNat + off), 8, k⟩
      { s with inputs := rest } := by
  have hl := (Access.legal_at s.params hp off ho ha k).1
  unfold step advance
  rw [hi]
  simp only [serve, hostAccess]
  rw [if_neg (by simp [hr]), if_pos hl]

end Sys2Proof.Machine
end

