-- ==== Sys2Proof/Laws/Coherence.lean ====
section
/-! SUPPORT. The coherence order of a word after a write, the values a load may return after it, and that
an atomic OR keeps what every admitted load shows (20_memory.md R71, R72, R76). -/

namespace Sys2Proof.Machine

variable (s : State)

/-! ### The writes of a word -/

@[simp] theorem State.wordWrites_writeWord_same (a : Nat) (v : Word) (id : Nat) :
    (s.writeWord a v id).wordWrites a = ⟨a, s.word a, id⟩ :: s.wordWrites a := by
  simp [State.wordWrites]

theorem State.wordWrites_writeWord_ne (a a' : Nat) (v : Word) (id : Nat) (h : a' ≠ a) :
    (s.writeWord a v id).wordWrites a' = s.wordWrites a' := by
  simp [State.wordWrites, h.symm]

/-- The value lag + 1 writes ago is the value lag writes ago before the write. -/
theorem State.pastWord_writeWord_same (a : Nat) (v : Word) (id lag : Nat)
    (h : lag ≤ (s.wordWrites a).length) :
    (s.writeWord a v id).pastWord a (lag + 1) = s.pastWord a lag := by
  cases lag with
  | zero => simp [State.pastWord]
  | succ n =>
    have hn : n < (s.wordWrites a).length := h
    simp [State.pastWord, hn]

/-- A write to another aligned word changes nothing for this one. -/
theorem State.pastWord_writeWord_ne (a a' : Nat) (v : Word) (id lag : Nat)
    (h : a' + 8 ≤ a ∨ a + 8 ≤ a') : (s.writeWord a v id).pastWord a' lag = s.pastWord a' lag := by
  have hw := s.wordWrites_writeWord_ne a a' v id (by omega)
  have hv := s.word_writeWord_disjoint a a' v id h
  cases lag with
  | zero => exact hv
  | succ n =>
    simp only [State.pastWord, hw, hv]

/-- A load looks back no further than the word has writes. -/
theorem State.maxLag_le (a : Nat) (known : List Nat) (floor : Nat) :
    s.maxLag a known floor ≤ (s.wordWrites a).length := by
  unfold State.maxLag
  omega

theorem le_takeWhile_length_iff {α : Type} (p : α → Bool) (l : List α) (n : Nat) :
    n ≤ (l.takeWhile p).length ↔
      n ≤ l.length ∧ ∀ j, j < n → ∀ w, l[j]? = some w → p w = true := by
  induction l generalizing n with
  | nil => simp
  | cons x l ih =>
    cases n with
    | zero => simp
    | succ n =>
      by_cases hx : p x = true
      · rw [List.takeWhile_cons_of_pos hx, List.length_cons, List.length_cons, Nat.succ_le_succ_iff,
          Nat.succ_le_succ_iff, ih]
        refine and_congr_right fun _ => ⟨fun h j hj w hw => ?_, fun h j hj w hw => ?_⟩
        · cases j with
          | zero =>
            cases hw
            exact hx
          | succ j => exact h j (Nat.lt_of_succ_lt_succ hj) w hw
        · exact h (j + 1) (Nat.succ_lt_succ hj) w hw
      · rw [List.takeWhile_cons_of_neg hx]
        constructor
        · intro h
          exact absurd h (Nat.not_succ_le_zero n)
        · rintro ⟨-, h⟩
          exact absurd (h 0 (Nat.succ_pos n) x rfl) hx

/-- How far back a load may look: past writes that do not happen-before it, and not past what the command
has read (20_memory.md R72 (a), (b)). -/
theorem State.le_maxLag_iff (a : Nat) (known : List Nat) (floor n : Nat) :
    n ≤ s.maxLag a known floor ↔
      n ≤ (s.wordWrites a).length - floor ∧ n ≤ (s.wordWrites a).length ∧
        ∀ j, j < n → ∀ w, (s.wordWrites a)[j]? = some w → w.id ∉ known := by
  unfold State.maxLag
  rw [Nat.le_min, le_takeWhile_length_iff]
  simp only [Bool.not_eq_true', List.contains_eq_mem, decide_eq_false_iff_not]
  tauto

/-- After a write the load knows of, only its value is admitted. -/
theorem State.maxLag_writeWord_known (a : Nat) (v : Word) (id : Nat) (known : List Nat) (floor : Nat)
    (h : id ∈ known) : (s.writeWord a v id).maxLag a known floor = 0 := by
  simp [State.maxLag, h]

/-- After a write the load does not know of, one value more is admitted at most. -/
theorem State.maxLag_writeWord_same (a : Nat) (v : Word) (id : Nat) (known : List Nat) :
    (s.writeWord a v id).maxLag a known 0 ≤ s.maxLag a known 0 + 1 := by
  unfold State.maxLag
  rw [State.wordWrites_writeWord_same, List.takeWhile_cons]
  split
  · simp only [List.length_cons]
    omega
  · simp

theorem State.maxLag_writeWord_ne (a a' : Nat) (v : Word) (id : Nat) (known : List Nat)
    (floor : Nat) (h : a' ≠ a) :
    (s.writeWord a v id).maxLag a' known floor = s.maxLag a' known floor := by
  unfold State.maxLag
  rw [State.wordWrites_writeWord_ne _ _ _ _ _ h]

/-- Knowing of more admits less. -/
theorem State.maxLag_mono (a : Nat) (known known' : List Nat) (floor floor' : Nat)
    (h : ∀ n, n ∈ known → n ∈ known') (hf : floor ≤ floor') :
    s.maxLag a known' floor' ≤ s.maxLag a known floor := by
  have key : ∀ l : List WriteRec, (l.takeWhile fun w => !known'.contains w.id).length ≤
      (l.takeWhile fun w => !known.contains w.id).length := by
    intro l
    induction l with
    | nil => simp
    | cons w l ih =>
      simp only [List.takeWhile_cons]
      by_cases hw : w.id ∈ known
      · simp [hw, h _ hw]
      · by_cases hw' : w.id ∈ known'
        · simp [hw']
        · simpa [hw, hw'] using ih
  have := key (s.wordWrites a)
  unfold State.maxLag
  omega

/-! ### State.Covers -/

variable {s}

/-- What every admitted value shows, a load shows, whatever it has read and its draw. -/
theorem State.Covers.load {known : List Nat} {a : Nat} {m : Word} (h : s.Covers known a m)
    (known' : List Nat) (hk : ∀ n, n ∈ known → n ∈ known') (floor lag : Nat) :
    s.pastWord a (s.drawLag a known' floor lag) &&& m = m := by
  apply h
  have := s.maxLag_mono a known known' 0 floor hk (Nat.zero_le _)
  unfold State.drawLag
  omega

/-- The latest value shows it too. -/
theorem State.Covers.word {known : List Nat} {a : Nat} {m : Word} (h : s.Covers known a m) :
    s.word a &&& m = m := h 0 (Nat.zero_le _)

/-- A write that the load knows of and that shows m covers it. -/
theorem State.covers_writeWord (a : Nat) (v m : Word) (id : Nat) (known : List Nat)
    (hid : id ∈ known) (hv : v &&& m = m) : (s.writeWord a v id).Covers known a m := by
  intro lag hl
  rw [s.maxLag_writeWord_known a v id known 0 hid] at hl
  have : lag = 0 := by omega
  subst this
  simpa [State.pastWord] using hv

/-- A write that keeps the bits of m in its word, or stands apart from the word, keeps the cover. -/
theorem State.Covers.writeWord {known : List Nat} {a : Nat} {m : Word} (h : s.Covers known a m)
    (a' : Nat) (v : Word) (id : Nat)
    (ha : (a' = a ∧ v &&& m = m) ∨ a + 8 ≤ a' ∨ a' + 8 ≤ a) :
    (s.writeWord a' v id).Covers known a m := by
  intro lag hl
  rcases ha with ⟨rfl, hv⟩ | ha
  · have := s.maxLag_writeWord_same a' v id known
    have hle := s.maxLag_le a' known 0
    cases lag with
    | zero => simpa [State.pastWord] using hv
    | succ n =>
      rw [s.pastWord_writeWord_same a' v id n (by omega)]
      exact h n (by omega)
  · rw [s.pastWord_writeWord_ne a' a v id lag ha]
    rw [s.maxLag_writeWord_ne a' a v id known 0 (by omega)] at hl
    exact h lag hl

end Sys2Proof.Machine
end

