-- ==== Sys2Proof/Laws/Order.lean ====
section
/-! SUPPORT. Membership in the sets of numbers by which happens-before is kept (20_memory.md R73, log 13). -/

namespace Sys2Proof.Machine

theorem mem_addNew (l : List Nat) (a n : Nat) : n ∈ addNew l a ↔ n = a ∨ n ∈ l := by
  unfold addNew
  split
  · rename_i h
    have ha : a ∈ l := by simpa using h
    exact ⟨.inr, by rintro (rfl | h) <;> assumption⟩
  · exact List.mem_cons

theorem mem_union (l m : List Nat) (n : Nat) : n ∈ union l m ↔ n ∈ l ∨ n ∈ m := by
  unfold union
  induction m generalizing l with
  | nil => simp
  | cons a m ih =>
    rw [List.foldl_cons, ih, mem_addNew, List.mem_cons]
    tauto

/-- What happens-before the command issued next: itself, what its host has seen, and what was before
it in its context. -/
theorem State.mem_knownAtIssue (s : State) (h c n : Nat) : n ∈ s.knownAtIssue h c ↔
    n = s.nextId ∨ n ∈ s.knownBy h ∨ n ∈ (s.ctx c).hb.carried := by
  unfold State.knownAtIssue
  rw [mem_addNew, mem_union]
  tauto

theorem Hb.mem_passed (g : Hb) (n : Nat) : n ∈ g.passed ↔ g.acted = true ∧ n ∈ g.known := by
  unfold Hb.passed
  split <;> simp [*]

theorem Hb.mem_carried (g : Hb) (n : Nat) : n ∈ g.carried ↔
    (g.acted = true ∧ n ∈ g.known) ∨ (g.acted = false ∧ n ∈ g.past) := by
  unfold Hb.carried
  cases g.acted <;> simp

theorem State.mem_observed_learn (s : State) (h : Nat) (ids : List Nat) (e : Nat × Nat) :
    e ∈ (s.learn h ids).observed ↔ e ∈ s.observed ∨ (e.1 = h ∧ e.2 ∈ ids) := by
  obtain ⟨h2, n⟩ := e
  show (h2, n) ∈ ids.foldl (fun o n => if o.contains (h, n) then o else (h, n) :: o) s.observed ↔ _
  generalize s.observed = o
  induction ids generalizing o with
  | nil => simp
  | cons a ids ih =>
    have hs : (h2, n) ∈ (if o.contains (h, a) then o else (h, a) :: o) ↔
        (h2, n) ∈ o ∨ (h2 = h ∧ n = a) := by
      split
      · rename_i hc
        have hc : (h, a) ∈ o := by simpa using hc
        constructor
        · exact .inl
        · rintro (h | ⟨rfl, rfl⟩) <;> assumption
      · simp [or_comm]
    rw [List.foldl_cons, ih, hs]
    simp only [List.mem_cons]
    tauto

/-- What each host has seen after host h is told of these. -/
theorem State.mem_knownBy_learn (s : State) (h h2 : Nat) (ids : List Nat) (n : Nat) :
    n ∈ (s.learn h ids).knownBy h2 ↔ n ∈ s.knownBy h2 ∨ (h2 = h ∧ n ∈ ids) := by
  have hk : ∀ t : State, n ∈ t.knownBy h2 ↔ (h2, n) ∈ t.observed := by
    intro t
    simp only [State.knownBy, List.mem_map, List.mem_filter, beq_iff_eq]
    constructor
    · rintro ⟨⟨x, y⟩, ⟨hm, rfl⟩, rfl⟩
      exact hm
    · exact fun hm => ⟨_, ⟨hm, rfl⟩, rfl⟩
  rw [hk, hk, State.mem_observed_learn]

/-- Another host's list stays as it is. -/
theorem State.knownBy_learn_ne (s : State) (h h2 : Nat) (ids : List Nat) (hne : h2 ≠ h) :
    (s.learn h ids).knownBy h2 = s.knownBy h2 := by
  show List.map _ (List.filter _ (ids.foldl
    (fun o n => if o.contains (h, n) then o else (h, n) :: o) s.observed)) = List.map _ _
  congr 1
  generalize s.observed = o
  induction ids generalizing o with
  | nil => rfl
  | cons a ids ih =>
    rw [List.foldl_cons, ih]
    split
    · rfl
    · rw [List.filter_cons_of_neg]
      simpa using hne.symm

/-- A read tells its host only of a command it shows ended, and of what happens-before that command's
events, if it has performed one: nothing else is ordered (20_memory.md R73 item 3, R74). -/
theorem State.observe_eq (s : State) (h : Nat) (r : Reg) : s.observe h r =
    match r with
    | .status c => s.learn h
        (if (s.ctx c).state = .done ∨ (s.ctx c).state = .error then (s.ctx c).hb.passed else [])
    | _ => s := by
  cases r <;> try rfl
  unfold State.observe
  dsimp only
  split <;> rfl

end Sys2Proof.Machine
end

