-- ==== Sys2Proof/Laws/PerInstr.lean ====
section
/-! SUPPORT. Statements made of every command, one lemma per constructor. -/

namespace Sys2Proof.Laws.Words

/-- A command's word is legal, its opcode selects it, and the decoder reads it from the word's bits as
the opcode table numbers them (30_encoding.md R90, R91, R94). -/
def Statement (i : Instr) : Prop :=
  i.wf = true ∧ wordWf (encode i) = true ∧ decodeOp i.opcode = some i ∧
    decodeTableWord 64 (encode i).toNat = some i

theorem add : Statement .add := by
  unfold Statement
  decide

theorem query : Statement .query := by
  unfold Statement
  decide

theorem clear : Statement .clear := by
  unfold Statement
  decide

end Sys2Proof.Laws.Words
end

