-- ==== Sys2Proof/Laws/Reach.lean ====
section
/-! SUPPORT. Under the invariant, a running command's transactions are decided by MemOK alone (00_scope.md
R10): the bit array lies inside the address space and is normal memory. -/

namespace Sys2Proof.Machine

variable {s : State} {c : Nat}

/-- A command runs only on a configuration that meets 10_state.md R22. -/
theorem State.Inv.config_of_phase (hs : s.Inv) (hp : (s.ctx c).h.phase ≠ .none) :
    1 ≤ s.slots.toNat ∧ 1 ≤ s.probes.toNat ∧
      s.base.toNat + s.slots.toNat * s.params.line ≤ addressSpace := by
  have hc := State.exists_of_phase hp
  have hen := hs.enabled (hs.en_of_busy hc ((hs.ctx hc).busy.mpr hp))
  simp only [State.configOK, Bool.and_eq_true, decide_eq_true_eq] at hen
  exact ⟨hen.1.1, hen.1.2, hen.2⟩

/-- A probe's word lies inside the bit array (40_probe_datapath.md R120). -/
theorem State.Inv.probeAddr_inside (hs : s.Inv) (hp : (s.ctx c).h.phase = .probe) (i : Nat) :
    s.probeAddr c i + 8 ≤ s.base.toNat + s.slots.toNat * s.params.line := by
  have hpos := (hs.ctx (State.exists_of_phase (s := s) (c := c) (by rw [hp]; simp))).position
  simp only [Ctx.PositionOk, hp] at hpos
  have h1 := wordAddr_range s.params hs.params s.base (s.ctx c).h.slot (s.probeOffset c i)
    (offset_lt _ _ _)
  have h2 := slotBase_range s.params s.base (s.ctx c).h.slot s.slots.toNat hpos.2.2.2.2.2.1
  unfold State.probeAddr
  omega

/-- Word k of the bit array lies inside it (41_commands.md R151). -/
theorem State.Inv.clearAddr_inside (hs : s.Inv) {k : Nat} (hk : k < s.slots.toNat * s.params.wps) :
    s.clearAddr k + 8 ≤ s.base.toNat + s.slots.toNat * s.params.line := by
  have : s.slots.toNat * s.params.line = 8 * (s.slots.toNat * s.params.wps) := by
    rw [s.params.line_eq hs.params]; ring
  unfold State.clearAddr
  omega

/-- What stands at a word of the bit array while a command runs. -/
theorem State.Inv.reach_eq (hs : s.Inv) (hp : (s.ctx c).h.phase ≠ .none) {a : Nat}
    (ha : a + 8 ≤ s.base.toNat + s.slots.toNat * s.params.line) :
    s.reach a = if s.memOK a then .ok else .busErr := by
  have hc := State.exists_of_phase hp
  have hk := hs.config_of_phase hp
  unfold State.reach
  rw [if_neg (by omega), hs.placed _ (s.ctx_mem c hc) ((hs.ctx hc).busy.mpr hp)]

/-- The transaction of a running command's probe. -/
theorem State.Inv.reach_probe (hs : s.Inv) (hp : (s.ctx c).h.phase = .probe) (i : Nat) :
    s.reach (s.probeAddr c i) = if s.memOK (s.probeAddr c i) then .ok else .busErr :=
  hs.reach_eq (by rw [hp]; simp) (hs.probeAddr_inside hp i)

/-- The transaction of a running CLEAR. -/
theorem State.Inv.reach_clear (hs : s.Inv) (hp : (s.ctx c).h.phase = .clear) :
    s.reach (s.clearAddr (s.ctx c).h.k) =
      if s.memOK (s.clearAddr (s.ctx c).h.k) then .ok else .busErr := by
  have hpos := (hs.ctx (State.exists_of_phase (s := s) (c := c) (by rw [hp]; simp))).position
  simp only [Ctx.PositionOk, hp] at hpos
  exact hs.reach_eq (c := c) (by rw [hp]; simp) (hs.clearAddr_inside (by omega))

end Sys2Proof.Machine
end

