-- ==== Sys2Proof/Laws/Run.lean ====
section
/-! SUPPORT. Runs of the machine, one step at a time. -/

namespace Sys2Proof.Machine

/-- A run of n + 1 steps is a step and a run of n. -/
theorem hostRun_succ (M : Host.Core) (n : Nat) (s t : M.State) :
    M.run (n + 1) s = .next t ↔ ∃ u, M.step s = .next u ∧ M.run n u = .next t := by
  simp only [Host.Core.run]
  cases M.step s <;> simp

theorem run_zero (s : State) : core.run 0 s = .next s := rfl

theorem run_succ (n : Nat) (s t : State) :
    core.run (n + 1) s = .next t ↔ ∃ u, step s = .next u ∧ core.run n u = .next t :=
  hostRun_succ core n s t

/-- Runs compose. -/
theorem run_add (m n : Nat) (s u t : State) (h : core.run m s = .next u) (k : core.run n u = .next t) :
    core.run (m + n) s = .next t := by
  induction m generalizing s with
  | zero =>
    rw [run_zero] at h
    cases h
    rwa [Nat.zero_add]
  | succ m ih =>
    obtain ⟨v, hv, hr⟩ := (run_succ m s u).mp h
    rw [show m + 1 + n = m + n + 1 by omega]
    exact (run_succ (m + n) s t).mpr ⟨v, hv, ih v hr⟩

/-- What every step keeps, a run keeps. -/
theorem run_keeps (P : State → Prop) (hP : ∀ s t, P s → step s = .next t → P t) (n : Nat)
    (s t : State) (hs : P s) (h : core.run n s = .next t) : P t := by
  induction n generalizing s with
  | zero =>
    rw [run_zero] at h
    cases h
    exact hs
  | succ n ih =>
    obtain ⟨u, hu, hr⟩ := (run_succ n s t).mp h
    exact ih u (hP s u hs hu) hr

end Sys2Proof.Machine
end

