-- ==== Sys2Proof/Tests/Slice0.lean ====
section
/-! SUPPORT. The model's own tests. Expected values come from the tables of 95_test_vectors.md or are
worked out from the rules named beside them. After the tests stand the witnesses: for every statement
with hypotheses, a concrete state that meets them together. -/

open Sys2Proof Sys2Proof.Machine

namespace Sys2Proof.Tests

/-! ## WellFormed refuses an ill-formed term at each check -/

theorem test_wf_line_too_small : Params.wf ⟨2, 0#64, 0#64⟩ = false := by decide
theorem test_wf_line_too_large : Params.wf ⟨13, 0#64, 0#64⟩ = false := by decide
theorem test_wf_window_unaligned : Params.wf ⟨6, 0#64, 0x800#64⟩ = false := by decide
theorem test_wf_no_context : nctxWf 0 = false := by decide
theorem test_wf_too_many_contexts : nctxWf 17 = false := by decide
theorem test_wf_word_reserved_bits : wordWf 0x11#64 = false := by decide
theorem test_wf_word_reserved_op : wordWf 0x4#64 = false := by decide
theorem test_wf_access_width : Access.legal ⟨0x0#64, 4, .read⟩ Params.default = false := by decide
theorem test_wf_access_unaligned : Access.legal ⟨0x1C#64, 8, .write 0#64⟩ Params.default = false := by decide
theorem test_wf_access_below : Access.legal ⟨0xFF8#64, 8, .read⟩ ⟨6, 0#64, 0x1000#64⟩ = false := by decide
theorem test_wf_access_above : Access.legal ⟨0x1000#64, 8, .read⟩ Params.default = false := by decide
theorem test_wf_absent_context : Reg.wf 4 (.status 4) = false := by decide
theorem test_wf_reserved_register : Reg.wf 4 .reserved = false := by decide
theorem test_wf_legal : (Params.default.wf && nctxWf 1 && nctxWf 16 && wordWf 3#64 &&
    Access.legal ⟨0xFF8#64, 8, .read⟩ Params.default && Reg.wf 4 (.cmd 3)) = true := by decide

/-! ## Decoding: words written out bit by bit from 30_encoding.md R90 and R91 -/

/-- RSVD = 60 zero bits, OP = 0001. -/
theorem test_decode_add : decodeWord (0b0#60 ++ 0b0001#4) = .ok .add := by decide
/-- RSVD = 60 zero bits, OP = 0010. -/
theorem test_decode_query : decodeWord (0b0#60 ++ 0b0010#4) = .ok .query := by decide
/-- RSVD = 60 zero bits, OP = 0011. -/
theorem test_decode_clear : decodeWord (0b0#60 ++ 0b0011#4) = .ok .clear := by decide
/-- Bit 63 set (95_test_vectors.md section 6). -/
theorem test_decode_bit63 : decodeWord 0x8000000000000002#64 = .error .reservedBits := by decide
/-- RSVD not 0 although OP = 3 (section 6). -/
theorem test_decode_0x13 : decodeWord 0x13#64 = .error .reservedBits := by decide
theorem test_decode_op4 : decodeWord 0x4#64 = .error .reservedOp := by decide
/-- The write's bytes, the lowest address first (20_memory.md R62); one byte too many is handed back. -/
theorem test_decode_bytes : decodeBytes [3#8, 0#8, 0#8, 0#8, 0#8, 0#8, 0#8, 0#8, 9#8] =
    .ok (.clear, [9#8]) := by rfl
theorem test_decode_truncated : decodeBytes [3#8, 0#8] = .error .truncated := by rfl
theorem test_decode_table_row : decodeTableWord 64 0x2 = some .query := by decide

/-! ## The datapath (95_test_vectors.md section 2) -/

/-- Section 2.2, seed_1 of SEED = 2^64 - 1 (wraps). -/
theorem test_seed_wraps :
    seedAt Params.default 0xFFFFFFFFFFFFFFFF#64 1 = 0x9E3779B97F4A7C14#64 := by decide
/-- Section 2.3, row 1. -/
theorem test_slot : slotIndex Params.default 0x0123456789ABCDEF#64 1000 = 950 := by decide

/-- The lanes of section 2.4. -/
def vectorLanes : Nat → Lane
  | 0 => ⟨0x0123456789ABCDEF#64, 0x81C0C050200C0401#64⟩
  | _ => ⟨0xFEDCBA9876543210#64, 0x0F1E2D3C4B5A6978#64⟩

/-- Section 2.4, LINE = 64. -/
theorem test_offsets_64 : (List.range 22).map (offset Params.default vectorLanes) =
    [495, 1, 2, 3, 4, 5, 6, 7, 376, 308, 214, 393, 211, 241, 60, 16, 25, 405, 270, 425, 229, 507] := by
  decide
/-- Section 2.4, LINE = 8. -/
theorem test_offsets_8 : (List.range 14).map (offset ⟨3, 0#64, 0#64⟩ vectorLanes) =
    [47, 1, 16, 0, 3, 32, 0, 5, 48, 0, 7, 56, 37, 38] := by decide
/-- Section 2.4, LINE = 4096. -/
theorem test_offsets_4096 : (List.range 13).map (offset ⟨12, 0#64, 0#64⟩ vectorLanes) =
    [19951, 1025, 16408, 320, 3590, 27000, 5812, 13553, 30961, 12816, 27816, 27233, 30437] := by decide
/-- Section 2.5, b = 493 with SA = 0x80000080. -/
theorem test_mask_and_address : mask 493 = 0x0000200000000000#64 ∧
    wordAddr Params.default 0x80000000#64 2 493 = 0x800000B8 := by decide

/-! ## The states of sections 3 to 5 -/

/-- What a step's next state shows, if it answers one. -/
def seen {α : Type} (o : Result) (f : State → α) : Option α :=
  match o with
  | .next t => some (f t)
  | .fault _ => none
  | .refused _ => none

/-- Why a step is refused, if it is. -/
def stopped (o : Result) : Option Refusal :=
  match o with
  | .next _ => none
  | .fault _ => none
  | .refused r => some r

/-- The setup of section 3: BASE = 0x80000000, SLOTS = 4, P = 3, SEED = 1, CTRL.EN = 1, the bit array
CLEARed, entry "A" at 0x1000, and the hash of "A". -/
def ready : State := { State.reset with
  en := true
  base := 0x80000000#64
  slots := 4#64
  probes := 3#8
  seed := 1#64
  entries := [(0x1000, 0x41#8)]
  cleared := (List.range 32).map fun k => (0x80000000 + 8 * k, none)
  platform :=
    ⟨[⟨1#64, [0x41#8], ⟨0xA5C39E1B2D4F6405#64, 0x7F3BC0DE123481ED#64⟩⟩], [], [], []⟩ }

/-- A context that waits, with entry "A" named. -/
def waiting : Ctx := { Ctx.reset Params.default with entryPtr := 0x1000#64, entryLen := 1#32 }

/-- A context with an ADD or QUERY (opcode op) just accepted, as command number id. -/
def atHash (op : BitVec 4) (id : Nat) : Ctx := { waiting with
  state := .busy
  h := { waiting.h with phase := .hash, op := op, nh := 1 }
  hb := ⟨id, [id], [], [], false⟩ }

/-- The same command before its probe i, in slot 2 with the lanes of "A". -/
def atProbe (op : BitVec 4) (i : Nat) : Ctx := { waiting with
  state := .busy
  probesDone := BitVec.ofNat 8 i
  h := { waiting.h with
    phase := .probe
    op := op
    nh := 1
    r := 1
    lanes := ⟨0xA5C39E1B2D4F6405#64, 0x7F3BC0DE123481ED#64⟩ :: List.replicate 18 ⟨0#64, 0#64⟩
    slot := 2
    i := i }
  hb := ⟨1, [1], [], [], true⟩ }

/-- A context with a CLEAR before word k. -/
def atClear (k : Nat) : Ctx := { waiting with
  state := .busy
  h := { waiting.h with phase := .clear, op := 3#4, k := k }
  hb := ⟨1, [1], [], [], true⟩ }

/-- The setup with context 0 as given, three contexts waiting and the next step context 0's. -/
def running (x : Ctx) : State := { ready with
  ctxs := [x, waiting, waiting, waiting]
  nextId := 2
  turn := .advance 0 0 }

/-- The memory of one word. -/
def oneWord (a : Nat) (v : Word) : Memory := Memory.storeWord [] a v

/-! ## ADD, QUERY, CLEAR: two steps each -/

/-- ADD.1: the last probe sets bit 0 of the word at 0x80000088; STATUS = 0x10002, RESULT = 0x300. -/
theorem test_add_last_probe :
    seen (exec .add { running (atProbe 1#4 2) with mem := oneWord 0x80000088 0x40#64 }) (fun t =>
      (t.word 0x80000088, (t.ctx 0).statusWord, (t.ctx 0).resultWord)) =
    some (0x41#64, 0x10002#64, 0x300#64) := by decide
/-- ADD.4: a bus error at probe 1: STATUS = 0x10503, RESULT = 0x100, the word as it was. -/
theorem test_add_bus_error :
    seen (exec .add { running (atProbe 1#4 1) with
        mem := oneWord 0x800000B8 0x7#64
        platform := ⟨[], [], [⟨0x800000B8, 0x800000C0⟩], []⟩ }) (fun t =>
      (t.word 0x800000B8, (t.ctx 0).statusWord, (t.ctx 0).resultWord)) =
    some (0x7#64, 0x10503#64, 0x100#64) := by decide
/-- Q.1: the last probe finds its bit: STATUS = 0x20002, RESULT = 0x301. -/
theorem test_query_member :
    seen (exec .query { running (atProbe 2#4 2) with mem := oneWord 0x80000088 0x1#64 }) (fun t =>
      ((t.ctx 0).statusWord, (t.ctx 0).resultWord)) = some (0x20002#64, 0x301#64) := by decide
/-- 41_commands.md R149: probe 1 finds its bit clear and the QUERY stops: RESULT = 0x200. -/
theorem test_query_short_circuit :
    seen (exec .query { running (atProbe 2#4 1) with mem := oneWord 0x800000B8 0x00001FFFFFFFFFFF#64 })
      (fun t => ((t.ctx 0).statusWord, (t.ctx 0).resultWord)) =
    some (0x20002#64, 0x200#64) := by decide
/-- C.1: the last of 16 words: the word is 0, STATUS = 0x30002, RESULT = 0. -/
theorem test_clear_last_word :
    seen (exec .clear { running (atClear 15) with
        slots := 2#64, mem := oneWord 0x80000078 0xFFFFFFFFFFFFFFFF#64 }) (fun t =>
      (t.word 0x80000078, (t.ctx 0).statusWord, (t.ctx 0).resultWord)) =
    some (0x0#64, 0x30002#64, 0x0#64) := by decide
/-- C.4: a QUERY written while a CLEAR runs: ctx[1].STATUS = 0x20303, GSTATUS = 0x19. -/
theorem test_clear_excludes :
    seen (exec .query { running (atClear 3) with turn := .issue 0 1 }) (fun t =>
      ((t.ctx 1).statusWord, t.gstatusWord)) = some (0x20303#64, 0x19#64) := by decide

/-! ## Steps of the machine -/

/-- I.1 and section 6: the very next step after withFetchWord runs the word; from reset it is DISABLED. -/
theorem test_first_step_after_reset :
    (seen (step (State.reset.withFetchWord 64 0x1)) fun t => (t.ctx 0).statusWord) = some 0x10203#64 := by
  decide
/-- I.2: ILLEGAL_OP wins over DISABLED. -/
theorem test_illegal_before_disabled :
    (seen (step (State.reset.withFetchWord 64 0x10)) fun t => (t.ctx 0).statusWord) = some 0x103#64 := by
  decide
/-- ADD.1: the hash step requests seed 0x1 of entry "A" and chooses slot 2. -/
theorem test_hash_step :
    seen (step { running (atHash 1#4 1) with inputs := [.sequencer 0 0] }) (fun t =>
      ((t.ctx 0).h.phase, (t.ctx 0).h.slot)) = some (.probe, 2) := by decide

/-- The response to a 64-bit read of a register. -/
def readBack (s : State) (a : Word) : Option HostResp :=
  seen (step { s with inputs := [.access 0 ⟨a, 8, .read⟩] }) State.hostResp
/-- The state after a 64-bit write. -/
def write (s : State) (a v : Word) : Result := step { s with inputs := [.access 0 ⟨a, 8, .write v⟩] }

/-- RA.2, RA.3, RA.4. -/
theorem test_constants : readBack State.reset 0x8#64 = some (.data 0x000000FF07070406#64) ∧
    readBack State.reset 0x10#64 = some (.data 0x9E3779B97F4A7C15#64) ∧
    readBack State.reset 0x208#64 = some (.data 0x0#64) := by decide
/-- RA.7, RA.8. -/
theorem test_config_writes :
    seen (write State.reset 0x28#64 0xFFFFFFFFFFFFFFFF#64) State.base = some 0xFFFFFFFFFFFFFFC0#64 ∧
    seen (write State.reset 0x38#64 0x1FF#64) State.probes = some 0xFF#8 := by decide
/-- RA.12: BASE + 64 = 2^64 exactly enables. -/
theorem test_enable_at_the_top :
    seen (write { State.reset with base := 0xFFFFFFFFFFFFFFC0#64, slots := 1#64, probes := 1#8 }
      0x18#64 1#64) State.gstatusWord = some 0x1#64 := by decide
/-- RA.13: one slot more does not. -/
theorem test_enable_past_the_top :
    seen (write { State.reset with base := 0xFFFFFFFFFFFFFFC0#64, slots := 2#64, probes := 1#8 }
      0x18#64 1#64) State.gstatusWord = some 0x2#64 := by decide
/-- RA.14. -/
theorem test_locked_seed : seen (write ready 0x40#64 5#64) (fun t => (t.seed, t.gstatusWord)) =
    some (1#64, 0x5#64) := by decide
/-- RA.17, RA.18. -/
theorem test_write_one_to_clear :
    seen (write { State.reset with cfgErr := true, lockViol := true } 0x20#64 0x6#64) State.gstatusWord =
      some 0x0#64 ∧
    seen (write { State.reset with cfgErr := true, lockViol := true } 0x20#64 0x19#64)
      State.gstatusWord = some 0x6#64 := by decide
/-- I.4: a locked entry register: OVERRUN is bit 2 of STATUS. -/
theorem test_overrun : seen (write (running (atHash 1#4 1)) 0x118#64 0x2000#64) (fun t =>
      ((t.ctx 0).entryPtr, (t.ctx 0).statusWord)) = some (0x1000#64, 0x10005#64) := by decide
/-- 20_memory.md R72 (a): a load may return the value before a write it does not know of. -/
theorem test_stale_load :
    ({ running (atProbe 2#4 2) with
        mem := oneWord 0x80000088 0x1#64, writes := [⟨0x80000088, 0#64, 7⟩] } : State).loadValue
      0 0x80000088 1 = 0#64 := by decide
/-- and not once the write happens-before it. -/
theorem test_known_write :
    ({ running { atProbe 2#4 2 with hb := ⟨9, [9, 7], [], [], true⟩ } with
        mem := oneWord 0x80000088 0x1#64, writes := [⟨0x80000088, 0#64, 7⟩] } : State).loadValue
      0 0x80000088 1 = 1#64 := by decide
/-- 20_memory.md R61, R62 and section 2.5: b = 493 is bit 5 of the byte at 0x800000BD; and a load of two
bytes over a word boundary. -/
theorem test_host_load_bytes :
    seen (step { ready with
        mem := Memory.storeWord (oneWord 0x800000B8 0xAB00200000000000#64) 0x800000C0 0xCD#64
        inputs := [.hostLoad 0 0x800000BD#64 1 [], .hostLoad 0 0x800000BF#64 2 []] }) (fun t =>
      (t.hostResp, seen (step t) State.hostResp)) =
    some (.bytes [0x20#8], some (.bytes [0xAB#8, 0xCD#8])) := by decide
/-- RA.13, last row: (0x0, 2^58, 1) enables; and 20_memory.md R69: no command runs on that bit array, which
overlaps the register window wherever it is. -/
theorem test_window_overlap :
    seen (write { State.reset with base := 0#64, slots := 0x400000000000000#64, probes := 1#8 }
      0x18#64 1#64) State.gstatusWord = some 0x1#64 ∧
    stopped (write { State.reset with
      en := true, base := 0#64, slots := 0x400000000000000#64, probes := 1#8 } 0x100#64 3#64) =
      some .windowOverlap := by decide
/-- 20_memory.md R68: a region with side effects that starts inside the array's last word. -/
theorem test_side_effects_overlap :
    stopped (write { ready with platform := ⟨[], [], [], [⟨0x800000FC, 0x80000200⟩]⟩ } 0x100#64 1#64) =
      some .sideEffectMemory := by decide
/-- 70_reset_and_hazards.md R236, 93_implementation_defined.md U8: step 4 skipped. -/
theorem test_not_cleared :
    stopped (write { ready with cleared := [] } 0x100#64 2#64) = some .notCleared := by decide
/-- R235: the host zeroed the words itself and its stores happen-before the command: host 0's, not host 1's. -/
theorem test_host_zeroed :
    let s : State := { ready with
      params := ⟨3, 0#64, 0#64⟩, slots := 1#64, en := false, cleared := [],
      inputs := [.hostStore 0 0x10000000#61 0#64, .access 0 ⟨0x18#64, 8, .write 1#64⟩] }
    ((seen (step s) fun t => seen (step t) fun u =>
      (seen (write u 0x100#64 1#64) fun v => (v.ctx 0).state,
        stopped (step { u with inputs := [.access 1 ⟨0x100#64, 8, .write 1#64⟩] }))) =
      some (some (some .busy, some .notCleared))) := by decide
/-- 20_memory.md R73 item 3: what host 0 knows after it read the end of a command that had performed an event,
and of one that had not. -/
theorem test_observe_events :
    (seen (step { running { waiting with state := .error, errcode := .busErr, hb := ⟨5, [5, 3], [], [], true⟩ }
        with inputs := [.access 0 ⟨0x108#64, 8, .read⟩] }) fun t => (t.knownBy 0)) = some [3, 5] ∧
    (seen (step { running { waiting with state := .error, errcode := .disabled, hb := ⟨5, [5, 3], [], [], false⟩ }
        with inputs := [.access 0 ⟨0x108#64, 8, .read⟩] }) fun t => (t.knownBy 0)) = some [] := by decide
/-- 41_commands.md R143: an ADD (command 1), then an illegal word, then a QUERY in one context: the ADD's events
happen-before the QUERY's, although the command between has none; and no host was told of any. -/
theorem test_context_order :
    let s := running { waiting with state := .done, hb := ⟨1, [1], [], [], true⟩ }
    (seen (write s 0x100#64 0#64) fun t => ((t.ctx 0).hb.passed, (t.ctx 0).hb.carried,
      seen (write t 0x100#64 2#64) fun u => ((u.ctx 0).hb.known, (u.ctx 0).hb.id))) =
    some ([], [1], some ([3, 1], 3)) := by decide
/-- 00_scope.md R13, log 24: an answered hash request is an event of its command. -/
theorem test_hash_event : (seen (exec .add (running (atHash 1#4 1))) fun t =>
    ((t.ctx 0).hb.acted, (t.ctx 0).hb.passed)) = some (true, [1]) := by decide
/-- 30_encoding.md R97: entry 1 is two writes, at 0x158 and 0x160 (95_test_vectors.md program 1, line 10). -/
theorem test_entry_line : (HostLine.entry 1 0x1000#64 1#64).expand Params.default =
    [⟨0x158#64, 8, .write 0x1000#64⟩, ⟨0x160#64, 8, .write 1#64⟩] := by decide

/-! ## Checks that decide the invariants on a concrete state -/

/-- Ctx.PositionOk as a Boolean. -/
def positionCheck (p : Params) (P slots : Nat) (x : Ctx) : Bool :=
  match x.h.phase with
  | .none => true
  | .hash => decide ((x.h.op = 1#4 ∨ x.h.op = 2#4) ∧ x.h.nh = p.nh P ∧ x.h.r < x.h.nh ∧ x.h.i = 0 ∧
      x.probesDone = 0#8)
  | .probe => decide ((x.h.op = 1#4 ∨ x.h.op = 2#4) ∧ x.h.nh = p.nh P ∧ x.h.r = x.h.nh ∧ x.h.i < P ∧
      x.probesDone.toNat = x.h.i ∧ x.h.slot < slots ∧ x.h.slot = slotIndex p (x.lane 0).low slots)
  | .clear => decide (x.h.op = 3#4 ∧ x.h.k < slots * p.wps ∧ x.probesDone = 0#8)

/-- Ctx.Ok as a Boolean. -/
def ctxCheck (p : Params) (P slots : Nat) (x : Ctx) : Bool :=
  decide ((x.state = .busy ↔ x.h.phase ≠ .none) ∧ (x.errcode ≠ .none ↔ x.state = .error) ∧
    (x.member = true → x.state = .done ∧ x.h.op = 2#4) ∧
    (x.state = .idle → x.overrun = false ∧ x.h.op = 0#4 ∧ x.probesDone = 0#8) ∧
    (x.h.op = 3#4 → x.probesDone = 0#8) ∧ x.h.lanes.length = p.nhMax ∧
    x.h.nh < 2 ^ 6 ∧ x.h.r < 2 ^ 6 ∧ x.h.slot < 2 ^ 64 ∧ x.h.i < 2 ^ 8 ∧ x.h.k < 2 ^ 64) &&
  positionCheck p P slots x

theorem ok_of_check {p : Params} {P slots : Nat} {x : Ctx} (h : ctxCheck p P slots x = true) :
    x.Ok p P slots := by
  simp only [ctxCheck, Bool.and_eq_true, decide_eq_true_eq] at h
  obtain ⟨⟨h1, h2, h3, h4, h5, h6, h7⟩, h8⟩ := h
  refine ⟨h1, h2, h3, h4, h5, ?_, h6, h7⟩
  cases hp : x.h.phase <;> simp only [positionCheck, hp, decide_eq_true_eq] at h8 <;>
    simp only [Ctx.PositionOk, hp]
  · simpa [Ctx.probing, Instr.opcode] using h8
  · simpa [Ctx.probing, Instr.opcode] using h8
  · simpa [Instr.opcode] using h8

/-- State.Inv of a state out of reset, as a Boolean. -/
def invCheck (s : State) : Bool :=
  s.params.wf && nctxWf s.nctx && decide (s.base.toNat % s.params.line = 0) &&
    (!s.en || s.configOK) && (s.en || s.ctxs.all fun x => x.state != .busy) &&
    (s.ctxs.all fun x => ctxCheck s.params s.probes.toNat s.slots.toNat x) &&
    ((List.range s.nctx).all fun c => !(s.ctx c).clearing || !s.otherBusy c) &&
    Memory.wf s.mem && Memory.wf s.entries && (!s.anyBusy || s.placement.isNone) &&
    (s.ctxs.all fun x => !x.busy || x.h.op == 3#4 || s.arrayCleared x.hb.known) && !s.inReset

theorem inv_of_check {s : State} (h : invCheck s = true) : s.Inv := by
  simp only [invCheck, Bool.and_eq_true] at h
  obtain ⟨⟨⟨⟨⟨⟨⟨⟨⟨⟨⟨h1, h2⟩, h3⟩, h4⟩, h5⟩, h6⟩, h7⟩, h8⟩, h9⟩, hp⟩, hc⟩, h10⟩ := h
  constructor
  · exact h1
  · exact h2
  · simpa using h3
  · intro he; simpa [he] using h4
  · intro he x hx
    simp only [he, Bool.false_or, List.all_eq_true] at h5
    simpa using h5 x hx
  · intro x hx
    exact ok_of_check (List.all_eq_true.mp h6 x hx)
  · intro c c2 hc hc2 hne hcl hb
    have h := List.all_eq_true.mp h7 c (List.mem_range.mpr hc)
    simp only [hcl, Bool.not_true, Bool.false_or, Bool.not_eq_true', State.otherBusy,
      List.any_eq_false] at h
    have h := h c2 (List.mem_range.mpr hc2)
    simp [Ctx.busy, hb, hne.symm] at h
  · exact h8
  · exact h9
  · intro x hx hb
    have ha : s.anyBusy = true := List.any_eq_true.mpr ⟨x, hx, by simp [Ctx.busy, hb]⟩
    simpa [ha] using hp
  · intro x hx hb hop
    have h := List.all_eq_true.mp hc x hx
    have hop : ¬ x.h.op = 3#4 := hop
    simpa [Ctx.busy, hb, hop] using h
  · intro hr; simp [hr] at h10

theorem ids_of_check {s : State}
    (h : (s.ctxs.all fun x => decide (x.hb.id < s.nextId) &&
      (decide (x.state = .idle) || x.hb.known.contains x.hb.id) &&
      (decide (x.state ≠ .done) || x.hb.acted) &&
      (x.hb.past.all fun n => x.hb.known.contains n)) = true) : s.IdsOk := by
  rw [List.all_eq_true] at h
  have mem : ∀ c, c < s.nctx → s.ctx c ∈ s.ctxs := by
    intro c hc
    unfold State.nctx at hc
    simp [State.ctx, hc]
  constructor
  · intro c hc
    have := h _ (mem c hc)
    simp only [Bool.and_eq_true, decide_eq_true_eq] at this
    exact this.1.1.1
  · intro c hp
    by_cases hc : c < s.nctx
    · have := h _ (mem c hc)
      simp only [Bool.and_eq_true, Bool.or_eq_true, decide_eq_true_eq] at this
      simpa using this.1.1.2.resolve_left hp
    · exfalso
      apply hp
      unfold State.nctx at hc
      simp [State.ctx, hc, Ctx.reset]
  · intro c n hn
    by_cases hc : c < s.nctx
    · have := h _ (mem c hc)
      simp only [Bool.and_eq_true] at this
      simpa using List.all_eq_true.mp this.2 n hn
    · exfalso
      unfold State.nctx at hc
      simp [State.ctx, hc, Ctx.reset] at hn
  · intro c hp
    by_cases hc : c < s.nctx
    · have := h _ (mem c hc)
      simp only [Bool.and_eq_true, Bool.or_eq_true, decide_eq_true_eq] at this
      exact this.1.2.resolve_left fun k => k hp
    · exfalso
      unfold State.nctx at hc
      simp [State.ctx, hc, Ctx.reset] at hp

/-- Commands that have requested no hash yet hold no wrong lane. -/
theorem lanes_of_check {s : State} (h : (s.ctxs.all fun x => decide (x.h.r = 0)) = true) :
    ∀ c, s.LanesOk c := by
  intro c _ r hr
  exfalso
  have : (s.ctx c).h.r = 0 := by
    by_cases hc : c < s.ctxs.length
    · have hm : s.ctx c ∈ s.ctxs := by simp [State.ctx, hc]
      simpa using List.all_eq_true.mp h _ hm
    · simp [State.ctx, hc, Ctx.reset, Hidden.reset]
  omega

/-! ## Witnesses: states that meet a statement's hypotheses together, one per clause -/

/-- s with one pending input. -/
def serving (s : State) (e : Input) : State := { s with inputs := [e] }
/-- s with a pending write of v by host 0 to register r. -/
def writing (s : State) (r : Reg) (v : Word) : State :=
  serving s (.access 0 ⟨s.regAddr r, 8, .write v⟩)
/-- s with a pending read by host 0 of register r. -/
def reading (s : State) (r : Reg) : State := serving s (.access 0 ⟨s.regAddr r, 8, .read⟩)
/-- s with context 0's turn next. -/
def turning (s : State) : State := serving s (.sequencer 0 0)

/-- Context 0 ended an ADD, command 1. -/
def ended : Ctx := { waiting with
  state := .done, h := { waiting.h with op := 1#4 }, hb := ⟨1, [1], [], [], true⟩ }

theorem inv_ready : ready.Inv := inv_of_check (by decide)
theorem inv_hash_add : (running (atHash 1#4 1)).Inv := inv_of_check (by decide)
theorem inv_hash_query : (running (atHash 2#4 1)).Inv := inv_of_check (by decide)
theorem inv_probe_add : (running (atProbe 1#4 2)).Inv := inv_of_check (by decide)
theorem inv_probe_query : (running (atProbe 2#4 1)).Inv := inv_of_check (by decide)
theorem inv_clear : (running (atClear 31)).Inv := inv_of_check (by decide)

theorem witness_DecodeFollowsPseudocode : (0x10#64 : Word).extractLsb' 4 60 ≠ 0#60 ∧
    (0xF#64 : Word).extractLsb' 4 60 = 0#60 ∧ 4#4 ≤ (0x4#64 : Word).extractLsb' 0 4 ∧
    (0x0#64 : Word).extractLsb' 0 4 = 0x0#4 ∧ (0x1#64 : Word).extractLsb' 0 4 = 0x1#4 ∧
    (0x2#64 : Word).extractLsb' 0 4 = 0x2#4 ∧ (0x3#64 : Word).extractLsb' 0 4 = 0x3#4 := by decide
theorem witness_DecodeEncodeAgree : Instr.clear.wf = true ∧ decodeWord 0x3#64 = .ok .clear ∧
    wordWf 0x3#64 = true := by decide
theorem witness_RegisterMapRoundTrip_reserved : nctxWf 16 = true ∧ (0x048 ≤ 0xFF ∧ 0xFF < 0x100) ∧
    0x28 ≤ (0x13F - 0x100) % 0x40 ∧ 0x100 + 0x40 * 16 ≤ 0x500 := by decide
theorem witness_RegisterMapRoundTrip : nctxWf 16 = true ∧ Reg.wf 16 (.entryLen 15) = true ∧
    regAt 16 0x4E0 ≠ .reserved ∧ regAt 16 0x40 ≠ .reserved := by decide
theorem witness_ConstantRegisters : State.reset.params.wf = true ∧ nctxWf State.reset.nctx = true := by
  decide
theorem witness_HardwareResetValues :
    (running (atProbe 1#4 2)).inReset = false ∧
    ∃ t, step (serving (running (atProbe 1#4 2)) (.assertReset [(0, 0)])) = .next t := ⟨rfl, _, rfl⟩
theorem witness_ResetKeepsMemory : (serving ready (.assertReset [])).inReset = false ∧
    (serving ready (.assertReset [])).inputs = [.assertReset []] := by decide
theorem witness_OutstandingOrPerformedAtReset :
    let s := serving (running (atProbe 1#4 2)) (.assertReset [(0, 0)])
    s.inReset = false ∧ s.inputs = .assertReset [(0, 0)] :: [] ∧ (s.ctx 0).h.phase = .probe ∧
    (s.ctx 0).h.op = Instr.add.opcode ∧ s.reach (s.probeAddr 0 (s.ctx 0).h.i) = .ok := by decide
theorem witness_OutstandingOrPerformedAtReset_clear :
    let s := serving (running (atClear 31)) (.assertReset [(0, 0)])
    s.inReset = false ∧ s.inputs = .assertReset [(0, 0)] :: [] ∧ (s.ctx 0).h.phase = .clear ∧
    (s.ctx 0).h.op = Instr.clear.opcode ∧ s.reach (s.clearAddr (s.ctx 0).h.k) = .ok := by decide
theorem witness_OutstandingOrPerformedAtReset_query :
    let s := serving (running (atProbe 2#4 1)) (.assertReset [(0, 0)])
    s.inputs = .assertReset [(0, 0)] :: [] ∧ (s.ctx 0).h.phase = .probe ∧
    (s.ctx 0).h.op = Instr.query.opcode ∧ s.reach (s.probeAddr 0 (s.ctx 0).h.i) = .ok ∧
    ((serving (running (atHash 2#4 1)) (.assertReset [(0, 0)])).ctx 0).h.phase = .hash := by decide
theorem inv_in_reset : ({ State.reset with inReset := true } : State).Inv := by
  have h : State.reset.Inv := inv_of_check (by decide)
  exact { h with reset := fun _ => ⟨rfl, rfl, rfl, rfl, rfl, rfl, rfl, fun x hx => by
    rw [List.eq_of_mem_replicate hx]
    exact ⟨rfl, rfl, rfl, rfl, rfl, rfl, rfl, rfl, rfl⟩⟩ }
theorem witness_NothingRunsInReset : ({ State.reset with inReset := true } : State).inReset = true ∧
    ({ State.reset with inReset := true } : State).Inv := ⟨rfl, inv_in_reset⟩
theorem witness_IllegalAccessHasNoEffect : State.reset.inReset = false ∧ (4 : Nat) ≠ 8 ∧
    (0x4#64 : Word).toNat % 8 ≠ 0 ∧
    (0xFF8#64 : Word).toNat < ({ State.reset with params := ⟨6, 0#64, 0x1000#64⟩ } : State).params.mmioBase.toNat ∧
    State.reset.params.mmioBase.toNat + 4096 ≤ (0x1000#64 : Word).toNat := by decide
theorem witness_ReadReturnsTheRegister :
    let s := serving State.reset (.access 0 ⟨BitVec.ofNat 64 (0 + 0x1E0), 8, .read⟩)
    s.inReset = false ∧ s.params.wf = true ∧ 0x1E0 < 4096 ∧ 0x1E0 % 8 = 0 ∧
    s.inputs = [.access 0 ⟨BitVec.ofNat 64 (s.params.mmioBase.toNat + 0x1E0), 8, .read⟩] ∧
    3 < s.nctx ∧ 0x1E0 = 0x100 + 0x40 * 3 + 0x20 ∧ (0x48 ≤ 0xF8 ∧ 0xF8 < 0x100) ∧
    (0x100 + 0x40 * 3 + 0x28 ≤ 0x1F8 ∧ 0x1F8 < 0x100 + 0x40 * 3 + 0x40) ∧
    0x100 + 0x40 * s.nctx ≤ 0x200 := by decide
/-- A read of the STATUS of an ended command that has performed an event (0x108), and one of RESULT. -/
theorem witness_ReadReturnsTheRegister_observed :
    let s := serving (running ended) (.access 0 ⟨BitVec.ofNat 64 (0 + 0x108), 8, .read⟩)
    s.inputs = [.access 0 ⟨BitVec.ofNat 64 (s.params.mmioBase.toNat + 0x108), 8, .read⟩] ∧
    0 < s.nctx ∧ 0x108 = 0x100 + 0x40 * 0 + 0x08 ∧ (s.ctx 0).state = .done ∧
    (s.ctx 0).hb.acted = true ∧ 1 ∈ (s.ctx 0).hb.known ∧
    ∀ c, c < s.nctx → 0x110 ≠ 0x100 + 0x40 * c + 0x08 := by decide
theorem witness_ReadOnlyWritesIgnored : State.reset.inReset = false ∧ State.reset.params.wf = true ∧
    0x10 < 0x18 ∧ (0x48 ≤ 0xF8 ∧ 0xF8 < 0x100) ∧ (0x108 - 0x100) % 0x40 = 0x08 ∧
    (0x110 - 0x100) % 0x40 = 0x10 ∧ 0x28 ≤ (0x128 - 0x100) % 0x40 ∧
    0x100 + 0x40 * State.reset.nctx ≤ 0x200 := by decide
theorem witness_ReadOnlyWritesIgnored_bits :
    (writing State.reset .base 0x3F#64).writesNext 0 .base 0x3F#64 [] ∧
    writing State.reset .base 0#64 =
      { writing State.reset .base 0x3F#64 with inputs := (writing State.reset .base 0#64).inputs } ∧
    (0x3F#64 : Word).toNat / State.reset.params.line = (0#64 : Word).toNat / State.reset.params.line ∧
    (3#64 : Word).toNat % 2 = (1#64 : Word).toNat % 2 ∧
    (0x1F#64 : Word).toNat / 2 % 4 = (0x6#64 : Word).toNat / 2 % 4 ∧
    (0x1FF#64 : Word).toNat % 2 ^ 8 = (0xFF#64 : Word).toNat % 2 ^ 8 ∧
    (0x100000005#64 : Word).toNat % 2 ^ 32 = (5#64 : Word).toNat % 2 ^ 32 := by decide
theorem witness_ConfigurationWrites_locked : (writing ready .seed 5#64).inReset = false ∧ ready.params.wf = true ∧
    ready.en = true ∧ (writing ready .seed 5#64).writesNext 0 .seed 5#64 [] := ⟨rfl, rfl, rfl, rfl⟩
theorem witness_ConfigurationWrites_base : (writing State.reset .base 0x3F#64).inReset = false ∧
    State.reset.params.wf = true ∧ State.reset.en = false ∧
    (writing State.reset .base 0x3F#64).writesNext 0 .base 0x3F#64 [] := ⟨rfl, rfl, rfl, rfl⟩
theorem witness_ConfigurationWrites_size : State.reset.inReset = false ∧ State.reset.params.wf = true ∧
    State.reset.en = false ∧ (writing State.reset .slots 4#64).writesNext 0 .slots 4#64 [] ∧
    (writing State.reset .probes 0x1FF#64).writesNext 0 .probes 0x1FF#64 [] ∧
    (writing State.reset .seed 1#64).writesNext 0 .seed 1#64 [] := ⟨rfl, rfl, rfl, rfl, rfl, rfl⟩
theorem witness_CtrlWrites_same : ready.inReset = false ∧ ready.params.wf = true ∧
    (writing ready .ctrl 3#64).writesNext 0 .ctrl 3#64 [] ∧ (3#64 : Word).toNat % 2 = ready.en.toNat ∧
    (writing State.reset .ctrl 2#64).writesNext 0 .ctrl 2#64 [] ∧
    (2#64 : Word).toNat % 2 = State.reset.en.toNat := ⟨rfl, rfl, rfl, rfl, rfl, rfl⟩

/-- A configuration not yet enabled, at the top of the address space. -/
def topOff (n : Word) : State :=
  { State.reset with base := 0xFFFFFFFFFFFFFFC0#64, slots := n, probes := 1#8 }

theorem witness_CtrlWrites_enable : (topOff 1#64).inReset = false ∧
    (topOff 1#64).params.wf = true ∧ (topOff 1#64).en = false ∧ (1#64 : Word).toNat % 2 = 1 ∧
    (writing (topOff 1#64) .ctrl 1#64).writesNext 0 .ctrl 1#64 [] ∧
    (topOff 1#64).base.toNat + (topOff 1#64).slots.toNat * (topOff 1#64).params.line = 2 ^ 64 ∧
    2 ^ 64 < (topOff 2#64).base.toNat + (topOff 2#64).slots.toNat * (topOff 2#64).params.line := by decide
theorem witness_CtrlWrites_disable_idle : ready.inReset = false ∧ ready.params.wf = true ∧
    ready.en = true ∧ (0#64 : Word).toNat % 2 = 0 ∧
    (writing ready .ctrl 0#64).writesNext 0 .ctrl 0#64 [] ∧
    (∀ c, c < ready.nctx → (ready.ctx c).state ≠ .busy) := by decide
theorem witness_CtrlWrites_disable_busy :
    (writing (running (atHash 1#4 1)) .ctrl 0#64).writesNext 0 .ctrl 0#64 [] ∧
    ∃ c, c < (running (atHash 1#4 1)).nctx ∧ ((running (atHash 1#4 1)).ctx c).state = .busy :=
  ⟨rfl, 0, by decide⟩
theorem witness_GstatusWriteOneToClear : State.reset.inReset = false ∧ State.reset.params.wf = true ∧
    (writing State.reset .gstatus 6#64).writesNext 0 .gstatus 6#64 [] := ⟨rfl, rfl, rfl⟩
theorem witness_EntryRegisterWrites : ready.inReset = false ∧ ready.params.wf = true ∧
    nctxWf ready.nctx = true ∧ 3 < ready.nctx ∧ (ready.ctx 3).state ≠ .busy ∧
    (writing ready (.entryPtr 3) 7#64).writesNext 0 (.entryPtr 3) 7#64 [] ∧
    (writing ready (.entryLen 3) 0x100000005#64).writesNext 0 (.entryLen 3) 0x100000005#64 [] := by decide
theorem witness_BusyWritesOnlySetOverrun : nctxWf (running (atHash 1#4 1)).nctx = true ∧
    ((running (atHash 1#4 1)).ctx 0).state = .busy ∧
    (writing (running (atHash 1#4 1)) (.cmd 0) 0x10#64).writesNext 0 (.cmd 0) 0x10#64 [] ∧
    (writing (running (atHash 1#4 1)) (.entryLen 0) 2#64).writesNext 0 (.entryLen 0) 2#64 [] := by decide
theorem witness_BusyWritesOnlySetOverrun_stays :
    (running { atHash 1#4 1 with overrun := true }).Inv ∧
    ((running { atHash 1#4 1 with overrun := true }).ctx 0).overrun = true ∧
    ∃ t, step (turning (running { atHash 1#4 1 with overrun := true })) = .next t :=
  ⟨inv_of_check (by decide), rfl, _, rfl⟩
theorem witness_IllegalWordEndsAtOnce : ready.inReset = false ∧ nctxWf ready.nctx = true ∧
    (ready.ctx 3).state ≠ .busy ∧ wordWf 0x11#64 = false ∧
    (writing ready (.cmd 3) 0x11#64).writesNext 0 (.cmd 3) 0x11#64 [] := by decide
/-- Context 1 of a state in which context 0 is busy. -/
theorem witness_IssueErrorsInOrder : (State.reset.ctx 1).state ≠ .busy ∧ State.reset.en = false ∧
    ((running (atHash 1#4 1)).ctx 1).state ≠ .busy ∧ ((running (atClear 0)).ctx 1).state ≠ .busy := by
  decide
theorem witness_IssueErrorsInOrder_clear : (running (atHash 1#4 1)).Conflicts 1 .clear :=
  .inl ⟨rfl, 0, by decide⟩
theorem witness_IssueErrorsInOrder_clearing : (running (atClear 0)).Conflicts 1 .add :=
  .inr ⟨0, by decide⟩
theorem witness_AddAndQueryStart :
    ({ running (atHash 1#4 1) with turn := .issue 0 1 } : State).turn = .issue 0 1 ∧
    1 < (running (atHash 1#4 1)).nctx ∧ ((running (atHash 1#4 1)).ctx 1).state ≠ .busy ∧
    (running (atHash 1#4 1)).en = true ∧ ¬ (running (atHash 1#4 1)).Conflicts 1 .query ∧
    (running (atHash 1#4 1)).placement = none ∧
    (running (atHash 1#4 1)).arrayCleared ((running (atHash 1#4 1)).knownAtIssue 0 1) = true := by
  refine ⟨rfl, by decide, by decide, rfl, ?_, by decide, by decide⟩
  rintro (⟨h, -⟩ | ⟨c2, hc, h, hop⟩)
  · cases h
  · revert c2
    decide
theorem witness_ClearStarts : ({ ready with turn := .issue 0 2 } : State).turn = .issue 0 2 ∧
    2 < ready.nctx ∧ (∀ c2, c2 < ready.nctx → (ready.ctx c2).state ≠ .busy) ∧ ready.en = true ∧
    ready.placement = none := by decide

/-- No context is BUSY, so no command conflicts with another. -/
theorem no_conflict {s : State} (h : ∀ c, c < s.nctx → (s.ctx c).state ≠ .busy) (c : Nat) (i : Instr) :
    ¬ s.Conflicts c i := by
  rintro (⟨-, c2, hc, -, hb⟩ | ⟨c2, hc, hb, -⟩)
  · exact h c2 hc hb
  · exact h c2 hc hb

theorem witness_IssueRefusals : ({ ready with turn := .issue 0 1 } : State).turn = .issue 0 1 ∧
    1 < ready.nctx ∧ (ready.ctx 1).state ≠ .busy ∧ ready.en = true ∧ ¬ ready.Conflicts 1 .query :=
  ⟨rfl, by decide, by decide, rfl, no_conflict (by decide) 1 .query⟩
theorem witness_IssueRefusals_window :
    let s : State := { ready with params := ⟨6, 0#64, 0x80000000#64⟩ }
    ∃ x, s.inArray x = true ∧ s.params.mmioBase.toNat ≤ x ∧ x < s.params.mmioBase.toNat + 4096 :=
  ⟨0x800000FF, by decide⟩
theorem witness_IssueRefusals_no_window :
    ∀ x, ready.inArray x = true →
      ¬ (ready.params.mmioBase.toNat ≤ x ∧ x < ready.params.mmioBase.toNat + 4096) := by
  intro x hx
  have h1 : ready.base.toNat = 0x80000000 := by decide
  have h2 : ready.params.mmioBase.toNat = 0 := by decide
  simp only [State.inArray, Bool.and_eq_true, decide_eq_true_eq] at hx
  omega
theorem witness_IssueRefusals_device :
    let s : State := { ready with platform := ⟨[], [], [], [⟨0x800000FC, 0x80000200⟩]⟩ }
    ∃ x r, s.inArray x = true ∧ r ∈ s.platform.devices ∧ r.lo ≤ x ∧ x < r.hi :=
  ⟨0x800000FC, ⟨0x800000FC, 0x80000200⟩, by decide⟩
theorem witness_IssueRefusals_not_cleared :
    let s : State := { ready with cleared := [] }
    (∀ x r, s.inArray x = true → r ∈ s.platform.devices → ¬ (r.lo ≤ x ∧ x < r.hi)) ∧
    ∃ k, k < s.slots.toNat * s.params.wps ∧
      s.wordCleared (s.knownAtIssue 0 1) (s.base.toNat + 8 * k) = false :=
  ⟨fun _ _ _ h => absurd h List.not_mem_nil, 31, by decide⟩
theorem witness_HashStepOfAddAndQuery : (running (atHash 2#4 1)).Inv ∧
    (running (atHash 2#4 1)).turn = .advance 0 0 ∧
    ((running (atHash 2#4 1)).ctx 0).h.phase = .hash := ⟨inv_hash_query, rfl, rfl⟩
theorem witness_HashStepOfAddAndQuery_outcomes :
    (running (atHash 2#4 1)).hashOK 1#64 0x1000#64 1#32 = true ∧
    ({ running (atHash 2#4 1) with platform := ⟨[], [⟨none, some 0x1000#64, none⟩], [], []⟩ } : State).hashOK
      1#64 0x1000#64 1#32 = false ∧
    ((running (atHash 2#4 1)).ctx 0).h.r + 1 = ((running (atHash 2#4 1)).ctx 0).h.nh ∧
    (0 : Nat) + 1 ≠ Params.default.nh 9 := by decide
theorem witness_AddProbeSetsItsBit : (running (atProbe 1#4 2)).Inv ∧
    (running (atProbe 1#4 2)).turn = .advance 0 0 ∧
    ((running (atProbe 1#4 2)).ctx 0).h.phase = .probe ∧
    (running (atProbe 1#4 2)).memOK ((running (atProbe 1#4 2)).probeAddr 0 2) = true ∧
    2 + 1 = (running (atProbe 1#4 2)).probes.toNat ∧ 1 + 1 ≠ (running (atProbe 1#4 1)).probes.toNat :=
  ⟨inv_probe_add, rfl, rfl, by decide⟩
theorem witness_QueryProbeTestsItsBit : (running (atProbe 2#4 1)).Inv ∧
    (running (atProbe 2#4 1)).turn = .advance 0 0 ∧
    ((running (atProbe 2#4 1)).ctx 0).h.phase = .probe ∧
    ((running (atProbe 2#4 1)).ctx 0).h.op = Instr.query.opcode ∧
    (running (atProbe 2#4 1)).memOK ((running (atProbe 2#4 1)).probeAddr 0 1) = true :=
  ⟨inv_probe_query, rfl, rfl, rfl, by decide⟩
theorem witness_QueryProbeTestsItsBit_values :
    ({ running (atProbe 2#4 1) with mem := oneWord 0x800000B8 0#64 } : State).loadValue 0 0x800000B8 0 &&&
      (running (atProbe 2#4 1)).probeMask 0 1 = 0#64 ∧
    ({ running (atProbe 2#4 1) with mem := oneWord 0x800000B8 0x0000200000000000#64 } : State).loadValue
      0 0x800000B8 0 &&& (running (atProbe 2#4 1)).probeMask 0 1 ≠ 0#64 := by decide
theorem witness_ClearStepZeroesItsWord : (running (atClear 31)).Inv ∧
    (running (atClear 31)).turn = .advance 0 0 ∧ ((running (atClear 31)).ctx 0).h.phase = .clear ∧
    ((running (atClear 31)).ctx 0).h.k = 31 ∧
    (running (atClear 31)).memOK ((running (atClear 31)).base.toNat + 8 * 31) = true ∧
    31 + 1 = (running (atClear 31)).slots.toNat * (running (atClear 31)).params.wps ∧
    30 + 1 ≠ (running (atClear 30)).slots.toNat * (running (atClear 30)).params.wps :=
  ⟨inv_clear, rfl, rfl, rfl, by decide⟩

/-- A platform on which no memory transaction completes. -/
def failing (s : State) : State := { s with platform := ⟨[], [], [⟨0, 2 ^ 64⟩], []⟩ }

theorem witness_ClearStepZeroesItsWord_bus_error :
    (failing (running (atClear 31))).memOK ((failing (running (atClear 31))).base.toNat + 8 * 31) =
      false := by decide
theorem witness_BusErrorEndsTheCommand :
    (failing (running (atProbe 1#4 2))).Inv ∧ (failing (running (atClear 31))).Inv ∧
    (failing (running (atProbe 1#4 2))).turn = .advance 0 0 ∧
    ((failing (running (atProbe 1#4 2))).ctx 0).h.op = Instr.add.opcode ∧
    (failing (running (atProbe 1#4 2))).memOK ((running (atProbe 1#4 2)).probeAddr 0 2) = false ∧
    ((failing (running (atClear 31))).ctx 0).h.op = Instr.clear.opcode ∧
    (failing (running (atClear 31))).memOK ((running (atClear 31)).clearAddr 31) = false :=
  ⟨inv_of_check (by decide), inv_of_check (by decide), by decide⟩
theorem witness_CommandsKeepEverythingElse :
    (∃ t, exec .add (running (atProbe 1#4 2)) = .next t) ∧
    ∃ t, exec .clear { ready with turn := .issue 0 0 } = .next t := ⟨⟨_, rfl⟩, _, rfl⟩
theorem witness_CommandsStoreOnlyTheirWord :
    (∃ t, exec .query (running (atProbe 2#4 1)) = .next t) ∧
    (∃ t, exec .add (running (atHash 1#4 1)) = .next t) ∧
    ∃ t, exec .clear (running (atClear 31)) = .next t := ⟨⟨_, rfl⟩, ⟨_, rfl⟩, _, rfl⟩
theorem witness_StepRunsTheWrittenCommand : ready.inReset = false ∧ ready.params.wf = true ∧
    nctxWf ready.nctx = true ∧ 3 < ready.nctx ∧
    (writing ready (.cmd 3) 0x2#64).writesNext 0 (.cmd 3) 0x2#64 [] ∧
    decodeWord 0x2#64 = .ok .query := by decide
theorem witness_StepRunsTheRunningCommand : (turning (running (atHash 2#4 1))).inReset = false ∧
    ((turning (running (atHash 2#4 1))).ctx 0).h.phase ≠ .none ∧
    ((turning (running (atHash 2#4 1))).ctx 0).h.op = Instr.query.opcode ∧
    ((turning ready).ctx 0).h.phase = .none := by decide
theorem witness_EveryStepKeepsTheInvariant : (turning (running (atProbe 1#4 2))).Inv ∧
    ∃ t, step (turning (running (atProbe 1#4 2))) = .next t := ⟨inv_of_check (by decide), _, rfl⟩
theorem witness_NoFaultUnderTheInvariant : (turning (running (atClear 31))).Inv :=
  inv_of_check (by decide)
theorem witness_RunningCommandsOperandsFixed : (writing (running (atHash 1#4 1)) .seed 5#64).Inv ∧
    ∃ t, step (writing (running (atHash 1#4 1)) .seed 5#64) = .next t ∧ t.inReset = false ∧
      (running (atHash 1#4 1)).en = true ∧ t.en = true ∧
      ((running (atHash 1#4 1)).ctx 0).state = .busy :=
  ⟨inv_of_check (by decide), _, rfl, rfl, rfl, rfl, rfl⟩
theorem witness_NoFaultUnderTheInvariant_turn :
    (turning (running (atProbe 1#4 2))).inputs = .sequencer 0 0 :: [] ∧
    (serving (running (atClear 31)) (.assertReset [(0, 0)])).Inv := ⟨rfl, inv_of_check (by decide)⟩
theorem witness_HashCounts : Params.lineLog2 ⟨12, 0#64, 0#64⟩ = 12 ∧
    Params.lineLog2 ⟨6, 0#64, 0#64⟩ = 6 ∧ Params.lineLog2 ⟨3, 0#64, 0#64⟩ = 3 ∧ (1 ≤ 8 ∧ 8 ≤ 8) ∧
    (9 ≤ 22 ∧ 22 ≤ 22) ∧ (23 ≤ 36 ∧ 36 ≤ 36) := by decide
/-- LINE = 128, W = 6, on both sides of 1 + W; and the last P. -/
theorem witness_HashCounts_formula : Params.wf ⟨7, 0#64, 0#64⟩ = true ∧
    6 = 64 / (3 + Params.lineLog2 ⟨7, 0#64, 0#64⟩) ∧ (1 ≤ 7 ∧ 7 ≤ 255 ∧ 7 ≤ 1 + 6) ∧
    (1 ≤ 8 ∧ 8 ≤ 255 ∧ 1 + 6 < 8) ∧ 1 + 6 < 255 := by decide
/-- NH at LINE = 128, by hand from R111: W = 6, so NH is 1 to P = 7, 2 to P = 19, 3 to P = 31, and
NH(255) = 1 + ceil(248 / 12) = 22. -/
theorem test_hash_counts_line_128 :
    [1, 7, 8, 19, 20, 31, 32, 255].map (Params.nh ⟨7, 0#64, 0#64⟩) = [1, 1, 2, 2, 3, 3, 4, 22] := by
  decide
theorem witness_OffsetSchedule : Params.default.wf = true ∧ 6 < 64 / Params.default.log := by decide
theorem witness_HashesSufficeForProbes : Params.default.wf = true ∧ 254 < 255 ∧
    ∀ r, r < Params.default.nh 255 → vectorLanes r = vectorLanes r := ⟨rfl, by decide, fun _ _ => rfl⟩
theorem witness_ProbesStayInTheirSlot : Params.default.wf = true ∧ 1 ≤ 1 ∧
    (0xFFFFFFFFFFFFFFC0#64 : Word).toNat % Params.default.line = 0 ∧
    (probeList Params.default (fun _ _ => ⟨0x1CF#64, 0#64⟩) 0#64 1 1 0xFFFFFFFFFFFFFFC0#64 [])[0]? =
      some (0xFFFFFFFFFFFFFFF8, 0x0000000000008000#64) := by decide
theorem witness_RunningCommandUsesTheReferenceList : (running (atProbe 1#4 2)).Inv ∧
    (running (atProbe 1#4 2)).LanesOk 0 ∧ ((running (atProbe 1#4 2)).ctx 0).h.phase = .probe ∧
    2 < (running (atProbe 1#4 2)).probes.toNat := by
  refine ⟨inv_probe_add, ?_, rfl, by decide⟩
  intro _ r hr
  have : r = 0 := by
    have h1 : ((running (atProbe 1#4 2)).ctx 0).h.r = 1 := rfl
    omega
  subst this
  decide
theorem witness_EveryStepKeepsTheLanes : (turning (running (atHash 1#4 1))).Inv ∧
    (∀ c, (turning (running (atHash 1#4 1))).LanesOk c) ∧
    ∃ t, step (turning (running (atHash 1#4 1))) = .next t :=
  ⟨inv_of_check (by decide), lanes_of_check (by decide), _, rfl⟩
theorem witness_EveryStepKeepsTheNumbering : (writing ready (.cmd 0) 0x1#64).Inv ∧
    (writing ready (.cmd 0) 0x1#64).IdsOk ∧
    ∃ t, step (writing ready (.cmd 0) 0x1#64) = .next t :=
  ⟨inv_of_check (by decide), ids_of_check (by decide), _, rfl⟩
/-- One write back: unknown to the command, and admitted by what it has read. -/
theorem witness_LoadReturnsWhatR72Admits :
    let s : State := { running (atProbe 2#4 2) with writes := [⟨0x80000088, 0#64, 7⟩] }
    (∀ j, j < 1 → ∀ w, (s.wordWrites 0x80000088)[j]? = some w → w.id ∉ (s.ctx 0).hb.known) ∧
      1 ≤ (s.wordWrites 0x80000088).length - (s.ctx 0).hb.floor 0x80000088 := by
  refine ⟨?_, by decide⟩
  intro j hj w hw
  have : j = 0 := by omega
  subst this
  cases hw
  decide

theorem witness_LoadReturnsWhatR72Admits_past :
    let s : State := { running (atProbe 2#4 2) with writes := [⟨0x80000088, 0#64, 7⟩] }
    (s.writes.filter fun w => w.addr == 0x80000088)[0]? = some ⟨0x80000088, 0#64, 7⟩ := by decide

/-- Context 0 before the last probe of an ADD, context 1 with a QUERY that has read nothing and for which
the commands in known happen-before its events. -/
def addAndQuery (known : List Nat) : State := { running (atProbe 1#4 2) with
  ctxs := [atProbe 1#4 2, { atProbe 2#4 2 with hb := ⟨2, known, [], [], false⟩ }, waiting, waiting]
  nextId := 3 }

theorem witness_ConcurrentAddMayBeMissed :
    (addAndQuery [2]).turn = .advance 0 0 ∧ ((addAndQuery [2]).ctx 0).h.phase = .probe ∧
    (addAndQuery [2]).probeAddr 0 ((addAndQuery [2]).ctx 0).h.i = 0x80000088 ∧
    (addAndQuery [2]).probeMask 0 ((addAndQuery [2]).ctx 0).h.i = 1#64 ∧
    (addAndQuery [2]).reach 0x80000088 = .ok ∧
    ((addAndQuery [2]).ctx 1).hb.floor 0x80000088 ≤ ((addAndQuery [2]).wordWrites 0x80000088).length ∧
    ((addAndQuery [2]).ctx 0).hb.id ∉ ((addAndQuery [2]).ctx 1).hb.known := by decide
theorem witness_ConcurrentAddMayBeMissed_next :
    ∃ t, exec .add (addAndQuery [2]) = .next t := ⟨_, rfl⟩

theorem witness_ObservationOrdersTheNextCommand : (reading (running ended) (.status 0)).inReset = false ∧
    (running ended).params.wf = true ∧ nctxWf (running ended).nctx = true ∧ 0 < (running ended).nctx ∧
    ((running ended).ctx 0).state = .done ∧
    (reading (running ended) (.status 0)).readsNext 0 (.status 0) [] ∧
    ((running ended).ctx 1).state ≠ .busy := by decide
theorem witness_ObservationOrdersTheNextCommand_ids : (reading (running ended) (.status 0)).IdsOk :=
  ids_of_check (by decide)
/-- A read of STATUS = BUSY: none of the two ended states, so the host learns nothing. -/
theorem witness_ObservationOrdersTheNextCommand_busy :
    let s := reading (running (atProbe 1#4 2)) (.status 0)
    s.readsNext 0 (.status 0) [] ∧ (s.ctx 0).hb.acted = true ∧
      ¬ (((s.ctx 0).state = .done ∨ (s.ctx 0).state = .error) ∧ (s.ctx 0).hb.acted = true) := by
  decide
theorem witness_ObservationOrdersTheNextCommand_eventless :
    let s := reading (running { ended with state := .error, errcode := .disabled, hb := ⟨1, [1], [], [], false⟩ })
      (.status 0)
    (s.ctx 0).state = .error ∧ (s.ctx 0).hb.acted = false ∧
      (serving s (.sync 0 1)).inputs = .sync 0 1 :: [] := by decide
theorem witness_ObservationOrdersTheNextCommand_issue :
    ∃ t, exec .query { running ended with turn := .issue 0 1 } = .next t := ⟨_, rfl⟩
theorem witness_WordsOnlyGainBits : (turning (running (atProbe 1#4 2))).Inv ∧
    (turning (running (atProbe 1#4 2))).clearActive = false ∧
    (∀ h k v rest, (turning (running (atProbe 1#4 2))).inputs ≠ .hostStore h k v :: rest) ∧
    0x80000088 % 8 = 0 ∧ ∃ t, step (turning (running (atProbe 1#4 2))) = .next t :=
  ⟨inv_of_check (by decide), by decide, (by intro h k v rest he; cases he), by decide, _, rfl⟩
theorem witness_OnlyTheBlockWritesTheArray :
    ready.en = true ∧ ready.inArray (8 * (0x1000001F#61).toNat) = true ∧
    ready.inArray (8 * (0x10000020#61).toNat) = false ∧
    ready.refuses (8 * (0x10000020#61).toNat) 8 = none ∧
    ready.refuses (8 * (0x1FF#61).toNat) 8 = some .windowOverlap := by decide
theorem witness_HostLoadsSeeAdmittedBytes :
    (serving ready (.hostLoad 0 0x800000BD#64 4 [1, 0])).inputs = [.hostLoad 0 0x800000BD#64 4 [1, 0]] ∧
    ready.refuses (0x800000BD#64 : Word).toNat 4 = none ∧ (0x800000BD#64 : Word).toNat + 4 ≤ 2 ^ 64 ∧
    ready.refuses (0xFFF#64 : Word).toNat 4 = some .windowOverlap := by decide
/-- One write back, of a store the host does not know of. -/
theorem witness_HostLoadsSeeAdmittedBytes_past :
    let s : State := { ready with writes := [⟨0x80000088, 0#64, 7⟩] }
    s.refuses (0x80000088#64 : Word).toNat 8 = none ∧ (0x80000088#64 : Word).toNat % 8 = 0 ∧
      1 ≤ (s.wordWrites (0x80000088#64 : Word).toNat).length ∧ 7 ∉ s.knownBy 0 := by decide
theorem witness_EntryBytesKeptWhileHashed :
    let s := serving (running (atHash 1#4 1)) (.entryStore 0x1000#64 0x42#8)
    s.inputs = .entryStore 0x1000#64 0x42#8 :: [] ∧ 0 < s.nctx ∧ (s.ctx 0).state = .busy ∧
    (s.ctx 0).h.op ≠ Instr.clear.opcode ∧ (s.ctx 0).entryPtr.toNat ≤ (0x1000#64 : Word).toNat ∧
    (0x1000#64 : Word).toNat < (s.ctx 0).entryPtr.toNat + (s.ctx 0).entryLen.toNat ∧
    ∀ c, c < s.nctx → (s.ctx c).state = .busy → (s.ctx c).h.op ≠ Instr.clear.opcode →
      ¬ ((s.ctx c).entryPtr.toNat ≤ (0x1001#64 : Word).toNat ∧
        (0x1001#64 : Word).toNat < (s.ctx c).entryPtr.toNat + (s.ctx c).entryLen.toNat) := by decide

/-- One slot of one word: LINE = 8, SLOTS = 1, P = 1, with both probe lists at 0x80000000. -/
def small (x y : Ctx) : State := { ready with
  params := ⟨3, 0#64, 0#64⟩
  slots := 1#64
  probes := 1#8
  ctxs := [x, y]
  mem := oneWord 0x80000000 0#64
  nextId := 2 }

/-- x with the lanes a block with LINE = 8 holds. -/
def lanes14 (x : Ctx) : Ctx := { x with h := { x.h with lanes := List.replicate 14 ⟨0#64, 0#64⟩ } }

theorem witness_ClearRunsToDone :
    let s := turning (small (lanes14 (atClear 0)) (lanes14 waiting))
    s.Inv ∧ (s.ctx 0).h.phase = .clear ∧ (s.ctx 0).h.k = 0 ∧ [0].length = s.slots.toNat * s.params.wps ∧
      s.inputs = [0].map (Input.sequencer 0) ++ [] ∧
      ∀ k, k < s.slots.toNat * s.params.wps → s.memOK (s.clearAddr k) = true :=
  ⟨inv_of_check (by decide), rfl, rfl, by decide, rfl, by decide⟩

/-- The one probe of entry "A" under the small configuration. -/
theorem small_probes (x y : Ctx) :
    (small x y).probesOf 0x1000#64 1#32 = [(0x80000000, 0x20#64)] := by
  have h : (small x y).probesOf 0x1000#64 1#32 = (small (lanes14 waiting) (lanes14 waiting)).probesOf
      0x1000#64 1#32 := rfl
  rw [h]
  decide

theorem small_hashOK (x y : Ctx) (r : Nat) :
    (small x y).hashOK (seedAt (small x y).params (small x y).seed r) 0x1000#64 1#32 = true := rfl

theorem witness_AddRunsToDone :
    let s := { small (lanes14 (atHash 1#4 1)) (lanes14 waiting) with
      inputs := [0, 0].map (Input.sequencer 0) ++ [] }
    s.Inv ∧ (s.ctx 0).h.phase = .hash ∧ (s.ctx 0).h.r = 0 ∧ (s.ctx 0).h.op = Instr.add.opcode ∧
      [0, 0].length = s.params.nh s.probes.toNat + s.probes.toNat ∧
      (∀ r, r < s.params.nh s.probes.toNat →
        s.hashOK (seedAt s.params s.seed r) (s.ctx 0).entryPtr (s.ctx 0).entryLen = true) ∧
      ∀ a m, (a, m) ∈ s.probesOf (s.ctx 0).entryPtr (s.ctx 0).entryLen → s.memOK a = true := by
  refine ⟨inv_of_check (by decide), rfl, rfl, rfl, by decide, fun r _ => rfl, ?_⟩
  intro a m h
  have h : (a, m) ∈ (small (lanes14 (atHash 1#4 1)) (lanes14 waiting)).probesOf 0x1000#64 1#32 := h
  rw [small_probes] at h
  simp only [List.mem_singleton, Prod.mk.injEq] at h
  rw [h.1]
  decide

theorem witness_QueryRunsToDone :
    let s := { small (lanes14 (atHash 2#4 1)) (lanes14 waiting) with
      inputs := List.replicate 2 (Input.sequencer 0 0) ++ [] }
    s.Inv ∧ (s.ctx 0).h.phase = .hash ∧ (s.ctx 0).h.r = 0 ∧ (s.ctx 0).h.op = Instr.query.opcode ∧
      2 = s.params.nh s.probes.toNat + s.probes.toNat ∧
      (∀ r, r < s.params.nh s.probes.toNat →
        s.hashOK (seedAt s.params s.seed r) (s.ctx 0).entryPtr (s.ctx 0).entryLen = true) ∧
      ∀ a m, (a, m) ∈ s.probesOf (s.ctx 0).entryPtr (s.ctx 0).entryLen → s.memOK a = true := by
  refine ⟨inv_of_check (by decide), rfl, rfl, rfl, by decide, fun r _ => rfl, ?_⟩
  intro a m h
  have h : (a, m) ∈ (small (lanes14 (atHash 2#4 1)) (lanes14 waiting)).probesOf 0x1000#64 1#32 := h
  rw [small_probes] at h
  simp only [List.mem_singleton, Prod.mk.injEq] at h
  rw [h.1]
  decide

theorem witness_QueryOfAClearedArray :
    let s := { small (lanes14 (atHash 2#4 1)) (lanes14 waiting) with
      inputs := [1, 1].map (Input.sequencer 0) ++ [] }
    s.Inv ∧ [1, 1].length = s.params.nh s.probes.toNat + 1 ∧
      (∀ r, r < s.params.nh s.probes.toNat →
        s.hashOK (seedAt s.params s.seed r) (s.ctx 0).entryPtr (s.ctx 0).entryLen = true) ∧
      ∀ k, k < s.slots.toNat * s.params.wps → s.memOK (s.clearAddr k) = true ∧
        ∀ lag, lag ≤ s.maxLag (s.clearAddr k) (s.ctx 0).hb.known 0 → s.pastWord (s.clearAddr k) lag = 0#64 :=
  ⟨inv_of_check (by decide), by decide, fun r _ => rfl, by decide⟩

/-- The schedule of the witness below: the ADD's two turns, the host's read of DONE, its QUERY of the same
entry in context 1, and the QUERY's two turns. -/
def schedule : List Input :=
  [.sequencer 0 0, .sequencer 0 0, .access 0 ⟨0x108#64, 8, .read⟩, .access 0 ⟨0x140#64, 8, .write 2#64⟩,
    .sequencer 1 1, .sequencer 1 1]

/-- The ADD just accepted. -/
def runStart : State :=
  { small (lanes14 (atHash 1#4 1)) (lanes14 waiting) with inputs := schedule }

/-- n steps on. -/
def runFor (n : Nat) (s : State) : State :=
  match core.run n s with
  | .next t => t
  | .fault _ => s
  | .refused _ => s

theorem witness_NoFalseNegatives_start : runStart.Inv ∧ runStart.IdsOk ∧ (∀ c, runStart.LanesOk c) ∧
    (runStart.ctx 0).h.phase = .hash ∧ (runStart.ctx 0).h.r = 0 ∧
    (runStart.ctx 0).h.op = Instr.add.opcode :=
  ⟨inv_of_check (by decide), ids_of_check (by decide), lanes_of_check (by decide), rfl, rfl, rfl⟩

/-- State.KeepsFilter of a concrete run, as a Boolean. -/
def keepsCheck (s : State) (n : Nat) : Bool :=
  (List.range (n + 1)).all fun k => ((seen (core.run k s) fun t => t.en && !t.clearActive).getD true)

theorem keeps_of_check {s : State} {n : Nat} (h : keepsCheck s n = true) : s.KeepsFilter n := by
  intro k t hk ht
  have := List.all_eq_true.mp h k (List.mem_range.mpr (by omega))
  rw [show core.run k s = Host.Outcome.next t from ht] at this
  simpa [seen] using this

theorem witness_NoFalseNegatives_keeps : runStart.KeepsFilter 2 ∧ (runFor 2 runStart).KeepsFilter 2 ∧
    (runFor 4 runStart).KeepsFilter 2 :=
  ⟨keeps_of_check (by decide), keeps_of_check (by decide), keeps_of_check (by decide)⟩
theorem witness_NoFalseNegatives_add :
    core.run 2 runStart = .next (runFor 2 runStart) ∧
    ((runFor 2 runStart).ctx 0).hb.id = (runStart.ctx 0).hb.id ∧
    ((runFor 2 runStart).ctx 0).state = .done := ⟨rfl, by decide, by decide⟩
theorem witness_NoFalseNegatives_query :
    core.run 2 (runFor 2 runStart) = .next (runFor 4 runStart) ∧
    ((runFor 4 runStart).ctx 1).h.phase = .hash ∧ ((runFor 4 runStart).ctx 1).h.r = 0 ∧
    ((runFor 4 runStart).ctx 1).h.op = Instr.query.opcode ∧
    (runStart.ctx 0).hb.id ∈ ((runFor 4 runStart).ctx 1).hb.known ∧
    (runFor 4 runStart).entry 0x1000#64 1#32 = runStart.entry 0x1000#64 1#32 :=
  ⟨rfl, by decide, by decide, by decide, by decide, by decide⟩
theorem witness_NoFalseNegatives_end :
    core.run 2 (runFor 4 runStart) = .next (runFor 6 runStart) ∧
    ((runFor 6 runStart).ctx 1).hb.id = ((runFor 4 runStart).ctx 1).hb.id ∧
    ((runFor 6 runStart).ctx 1).state = .done := ⟨rfl, by decide, by decide⟩

/-- LT.2 on that run: the ADD before its one probe; and the issue of the QUERY by host 0, which has read DONE. -/
def lastProbe : State := { runFor 1 runStart with turn := .advance 0 0 }
def afterDone : State := { runFor 3 runStart with turn := .issue 0 1 }

theorem witness_ConcurrentAddMayBeMissed_observed :
    (lastProbe.ctx 0).h.phase = .probe ∧ lastProbe.probeAddr 0 (lastProbe.ctx 0).h.i = 0x80000000 ∧
    lastProbe.probeMask 0 (lastProbe.ctx 0).h.i = 0x20#64 ∧ lastProbe.reach 0x80000000 = .ok ∧
    1 < afterDone.nctx ∧ (afterDone.ctx 1).state ≠ .busy ∧
    (lastProbe.ctx 0).hb.id ∈ afterDone.knownAtIssue 0 1 ∧
    (seen (exec .add lastProbe) fun t => (decide (afterDone.word 0x80000000 = t.word 0x80000000),
      decide (afterDone.wordWrites 0x80000000 = t.wordWrites 0x80000000))) = some (true, true) ∧
    (seen (exec .query afterDone) fun v => (v.ctx 1).state) = some .busy := by decide

/-- State.RunsNoAdd of a concrete run, as a Boolean. -/
def noAddCheck (s : State) (n : Nat) : Bool :=
  (List.range (n + 1)).all fun k => ((seen (core.run k s) fun t =>
    t.en && (t.ctxs.all fun x => decide (x.state ≠ .busy) || decide (x.h.op ≠ 1#4))).getD true)

theorem noAdd_of_check {s : State} {n : Nat} (h : noAddCheck s n = true) : s.RunsNoAdd n := by
  intro k t hk ht
  have := List.all_eq_true.mp h k (List.mem_range.mpr (by omega))
  rw [show core.run k s = Host.Outcome.next t from ht] at this
  simp only [seen, Option.getD_some, Bool.and_eq_true, List.all_eq_true, Bool.or_eq_true,
    decide_eq_true_eq] at this
  refine ⟨this.1, fun c hb => ?_⟩
  by_cases hc : c < t.ctxs.length
  · have hm : t.ctx c ∈ t.ctxs := by simp [State.ctx, hc]
    exact (this.2 _ hm).resolve_left fun k => k hb
  · simp [State.ctx, hc, Ctx.reset] at hb

/-- A CLEAR just accepted in context 0; its one turn, the host's read of DONE, its QUERY in context 1, and the
QUERY's two turns. -/
def clearStart : State := { small (lanes14 (atClear 0)) (lanes14 waiting) with
  mem := oneWord 0x80000000 0x20#64
  inputs := [.sequencer 0 0, .access 0 ⟨0x108#64, 8, .read⟩, .access 0 ⟨0x140#64, 8, .write 2#64⟩,
    .sequencer 1 1, .sequencer 1 1] }

theorem witness_QueryAfterClearFindsNothing : clearStart.Inv ∧ clearStart.IdsOk ∧
    (clearStart.ctx 0).h.phase = .clear ∧ (clearStart.ctx 0).h.k = 0 ∧
    core.run 1 clearStart = .next (runFor 1 clearStart) ∧
    ((runFor 1 clearStart).ctx 0).hb.id = (clearStart.ctx 0).hb.id ∧
    ((runFor 1 clearStart).ctx 0).state = .done :=
  ⟨inv_of_check (by decide), ids_of_check (by decide), rfl, rfl, rfl, by decide, by decide⟩
theorem witness_QueryAfterClearFindsNothing_noAdd : clearStart.RunsNoAdd 1 ∧
    (runFor 1 clearStart).RunsNoAdd 2 ∧ (runFor 3 clearStart).RunsNoAdd 2 :=
  ⟨noAdd_of_check (by decide), noAdd_of_check (by decide), noAdd_of_check (by decide)⟩
theorem witness_QueryAfterClearFindsNothing_query :
    core.run 2 (runFor 1 clearStart) = .next (runFor 3 clearStart) ∧
    ((runFor 3 clearStart).ctx 1).h.phase = .hash ∧ ((runFor 3 clearStart).ctx 1).h.r = 0 ∧
    ((runFor 3 clearStart).ctx 1).h.op = Instr.query.opcode ∧
    (clearStart.ctx 0).hb.id ∈ ((runFor 3 clearStart).ctx 1).hb.known :=
  ⟨rfl, by decide, by decide, by decide, by decide⟩
theorem witness_QueryAfterClearFindsNothing_end :
    core.run 2 (runFor 3 clearStart) = .next (runFor 5 clearStart) ∧
    ((runFor 5 clearStart).ctx 1).hb.id = ((runFor 3 clearStart).ctx 1).hb.id ∧
    ((runFor 5 clearStart).ctx 1).state = .done := ⟨rfl, by decide, by decide⟩

/-- Context 0 with an ADD just accepted, and always its turn. -/
def fairStart : State := small (lanes14 (atHash 1#4 1)) (lanes14 waiting)
def always : Schedule := fun _ => .sequencer 0 0
/-- The state in which that schedule stays. -/
def fairEnd : State := runFor 2 { fairStart with inputs := [.sequencer 0 0, .sequencer 0 0] }

theorem fair_run : ∀ n, runUnder always fairStart (n + 2) = .next fairEnd
  | 0 => rfl
  | n + 1 => by
    rw [runUnder, fair_run n]
    rfl

theorem witness_FairRunsEndEveryCommand : fairStart.Inv ∧ fairStart.WeaklyFair always ∧
    (∀ n, ∃ t, runUnder always fairStart n = .next t) ∧ (fairStart.ctx 0).state = .busy := by
  refine ⟨inv_of_check (by decide), ?_, ?_, rfl⟩
  · intro c n h
    cases c with
    | zero => exact ⟨n, Nat.le_refl n, 0, rfl⟩
    | succ c =>
      exfalso
      obtain ⟨t, ht, -, hp⟩ := h (n + 2) (by omega)
      rw [fair_run n] at ht
      cases ht
      apply hp
      cases c <;> rfl
  · intro n
    match n with
    | 0 => exact ⟨_, rfl⟩
    | 1 => exact ⟨_, rfl⟩
    | n + 2 => exact ⟨_, fair_run n⟩

end Sys2Proof.Tests
end

section
/-! PROOFS. EveryStepKeepsTheInvariant: what the inputs other than a register access, a turn and the
assertion of reset keep of the invariant, and the case split over the inputs. -/

namespace Sys2Proof.Machine

variable {s t : State}

/-! ### Hosts' own accesses to memory -/

/-- The bit array's bytes are the bytes of its words (20_memory.md R60). -/
theorem State.arrayBytes_eq (hp : s.params.wf = true) : s.arrayBytes = 8 * s.arrayWords := by
  unfold State.arrayBytes State.arrayWords
  rw [s.params.line_eq hp, Nat.mul_left_comm]

theorem State.inArray_iff (a : Nat) :
    s.inArray a = true ↔ s.base.toNat ≤ a ∧ a < s.base.toNat + s.arrayBytes := by
  simp [State.inArray]

/-- Every word of the bit array starts inside it. -/
theorem State.inArray_clearAddr (hp : s.params.wf = true) {k : Nat} (hk : k < s.arrayWords) :
    s.inArray (s.clearAddr k) = true := by
  have hb := State.arrayBytes_eq hp
  rw [State.inArray_iff, State.clearAddr]
  omega

/-- What a host's own access to memory answers (20_memory.md R68, R69, log 15). -/
theorem hostReach_next {a n : Nat} {ok : State} (h : hostReach s a n ok = .next t) :
    s.refuses a n = none ∧
      ((addressSpace < a + n ∧ t = s.respond .error) ∨ (a + n ≤ addressSpace ∧ t = ok)) := by
  unfold hostReach at h
  split at h
  · cases h
  · rename_i hr
    refine ⟨hr, ?_⟩
    split at h
    · rename_i hlt
      cases h
      exact .inl ⟨hlt, rfl⟩
    · rename_i hle
      cases h
      exact .inr ⟨Nat.not_lt.mp hle, rfl⟩

/-- What a host's store answers next: it was not into the bit array of an enabled block (20_memory.md R79). -/
theorem hostStore_next {h a : Nat} {v : Word} (hh : hostStore h a v s = .next t) :
    ¬ (s.en = true ∧ s.inArray a = true) ∧ (t = s.respond .error ∨
      t = ((({ (s.writeWord a v s.nextId).mark a v (some s.nextId) with
        nextId := s.nextId + 1 } : State).learn h [s.nextId]).respond .ok)) := by
  unfold hostStore at hh
  split at hh
  · cases hh
  · rename_i hin
    obtain ⟨-, ⟨-, rfl⟩ | ⟨-, rfl⟩⟩ := hostReach_next hh
    · exact ⟨by simpa using hin, .inl rfl⟩
    · exact ⟨by simpa using hin, .inr rfl⟩

/-- A host's store keeps the invariant: while commands run it misses the bit array, so it takes no zeroed
word of it back. -/
theorem State.Inv.hostStore (hs : s.Inv) {h a : Nat} {v : Word}
    (hh : hostStore h a v s = .next t) : t.Inv := by
  obtain ⟨hin, rfl | rfl⟩ := hostStore_next hh
  · exact hs.respond _
  · refine ((((hs.writeWord a v s.nextId).mark a v (some s.nextId) ?_).withNextId _).learn _ _).respond _
    intro hen known hcl
    refine (State.arrayCleared_mark_outside _ known a v _ fun k hk heq => ?_).trans hcl
    have hmem : s.inArray (s.clearAddr k) = true := State.inArray_clearAddr hs.params hk
    exact hin ⟨hen, (show s.clearAddr k = a from heq) ▸ hmem⟩

/-- A host's load keeps the invariant: it changes the response only. -/
theorem State.Inv.hostLoad (hs : s.Inv) {h a n : Nat} {lags : List Nat}
    (hh : hostLoad h a n lags s = .next t) : t.Inv := by
  obtain ⟨-, ⟨-, rfl⟩ | ⟨-, rfl⟩⟩ := hostReach_next hh
  · exact hs.respond _
  · exact hs.respond _

/-! ### The other inputs -/

/-- A stored entry byte keeps the invariant. -/
theorem State.Inv.entryStore (hs : s.Inv) {a : Nat} {b : Byte}
    (hh : entryStore a b s = .next t) : t.Inv := by
  unfold Machine.entryStore at hh
  split at hh
  · cases hh
  · cases hh
    exact hs.of_same rfl rfl rfl rfl rfl rfl rfl (fun _ _ h => h) (fun h => { hs.reset h with }) hs.mem
      (Memory.wf_store _ _ _ hs.entries)

/-- Which transactions fail is free of the invariant (00_scope.md R9, R10). -/
theorem State.Inv.portFaults (hs : s.Inv) (busErrs : List Range) (hashErrs : List HashFault) :
    ({ s with platform :=
      { s.platform with busErrs := busErrs, hashErrs := hashErrs } } : State).Inv :=
  hs.of_same rfl rfl rfl rfl rfl rfl rfl (fun _ _ h => h) (fun h => { hs.reset h with }) hs.mem hs.entries

/-- Releasing reset keeps the invariant (70_reset_and_hazards.md R230). -/
theorem State.Inv.releaseReset (hs : s.Inv) : ({ s with inReset := false } : State).Inv :=
  hs.of_same rfl rfl rfl rfl rfl rfl rfl (fun _ _ h => h) (fun h => absurd h Bool.false_ne_true)
    hs.mem hs.entries

/-! ### The step -/

/-- Every input keeps the invariant. -/
theorem State.Inv.serve (hs : s.Inv) {e : Input} (h : serve e s = .next t) : t.Inv := by
  cases e with
  | access host a => exact hs.hostAccess h
  | sequencer c lag => exact hs.sequencerStep h
  | assertReset performed =>
    simp only [Machine.serve] at h
    split at h
    · cases h
      exact hs
    · exact hs.assertReset h
  | releaseReset =>
    cases h
    exact hs.releaseReset
  | hostStore host index v => exact hs.hostStore h
  | hostLoad host addr width lags => exact hs.hostLoad h
  | entryStore addr b => exact hs.entryStore h
  | sync src dst =>
    cases h
    exact hs.learn _ _
  | portFaults busErrs hashErrs =>
    cases h
    exact hs.portFaults _ _

/-- Taking an input from the list is free of the invariant. -/
theorem State.Inv.withInputs (hs : s.Inv) (l : List Input) : ({ s with inputs := l } : State).Inv :=
  hs.schedule l s.turn

/-- A step waits when no input is pending (70_reset_and_hazards.md R246). -/
theorem step_nil (h : s.inputs = []) : step s = .next s := by
  simp only [step, advance, h]

/-- A step serves the next input (10_state.md R19; 41_commands.md R142). -/
theorem step_cons {e : Input} {rest : List Input} (h : s.inputs = e :: rest) :
    step s = serve e { s with inputs := rest } := by
  simp only [step, advance, h]

/-- Settles O34: the next input is served, and every input keeps the invariant. -/
theorem everyStepKeepsTheInvariant : Obligations.EveryStepKeepsTheInvariant := by
  intro s t hs h
  cases hi : s.inputs with
  | nil =>
    rw [step_nil hi] at h
    cases h
    exact hs
  | cons e rest =>
    rw [step_cons hi] at h
    exact (hs.withInputs rest).serve h

end Sys2Proof.Machine
end

section
/-! PROOFS. NoFaultUnderTheInvariant: under the invariant a turn and the assertion of reset answer a next
state, and no other input can fault. -/

namespace Sys2Proof.Machine

variable {s : State}

/-! ### A running command's step answers a next state -/

theorem State.memStep_answers (c : Nat) {a : Nat} (ok : State) {b : Bool}
    (h : s.reach a = if b then .ok else .busErr) : ∃ t, s.memStep c a ok = .next t := by
  cases b with
  | true => exact ⟨ok, by simp [State.memStep, h]⟩
  | false => exact ⟨s.finish c .busErr, by simp [State.memStep, h]⟩

/-- A hash step divides by SLOTS only (40_probe_datapath.md R113). -/
theorem State.hashStep_answers (c : Nat) (h : s.slots.toNat ≠ 0) : ∃ t, s.hashStep c = .next t := by
  unfold State.hashStep
  dsimp only
  rw [if_neg h]
  split_ifs <;> exact ⟨_, rfl⟩

theorem State.Inv.hashStep_answers (hs : s.Inv) {c : Nat} (hp : (s.ctx c).h.phase = .hash) :
    ∃ t, s.hashStep c = .next t := by
  obtain ⟨hslots, -, -⟩ := hs.config_of_phase (c := c) (by simp [hp])
  exact State.hashStep_answers c (by omega)

theorem State.Inv.addStep_answers (hs : s.Inv) (c : Nat) : ∃ t, addStep c s = .next t := by
  unfold addStep
  split
  case h_1 hp => exact hs.hashStep_answers hp
  case h_2 hp => exact State.memStep_answers c _ (hs.reach_probe hp _)
  case h_3 | h_4 => exact ⟨s, rfl⟩

theorem State.Inv.queryStep_answers (hs : s.Inv) (c lag : Nat) : ∃ t, queryStep c lag s = .next t := by
  unfold queryStep
  split
  case h_1 hp => exact hs.hashStep_answers hp
  case h_2 hp => exact State.memStep_answers c _ (hs.reach_probe hp _)
  case h_3 | h_4 => exact ⟨s, rfl⟩

theorem State.Inv.clearStep_answers (hs : s.Inv) (c : Nat) : ∃ t, clearStep c s = .next t := by
  unfold clearStep
  split
  case h_1 hp => exact State.memStep_answers c _ (hs.reach_clear hp)
  case h_2 | h_3 | h_4 => exact ⟨s, rfl⟩

/-- A context's turn answers a next state: a command once started is never stopped. -/
theorem State.Inv.sequencerStep_answers (hs : s.Inv) (c lag : Nat) :
    ∃ t, Machine.sequencerStep c lag s = .next t := by
  have hs' : ({ s with turn := .advance c lag } : State).Inv := hs.schedule s.inputs _
  unfold Machine.sequencerStep
  split
  · exact ⟨s, rfl⟩
  · split
    · rename_i i _
      cases i with
      | add => exact hs'.addStep_answers c
      | query => exact hs'.queryStep_answers c lag
      | clear => exact hs'.clearStep_answers c
    · exact ⟨s, rfl⟩

/-! ### So does hardware reset -/

theorem State.Inv.abandon_answers (hs : s.Inv) (c lag : Nat) : ∃ t, Machine.abandon c lag s = .next t := by
  obtain ⟨u, hu⟩ := hs.sequencerStep_answers c lag
  unfold Machine.abandon
  dsimp only
  rw [hu]
  split
  case h_1 | h_2 => exact ⟨_, rfl⟩
  case h_3 | h_4 => exact ⟨s, rfl⟩

/-- Reset, once asserted, is never stopped, whatever the memory still performs. -/
theorem State.Inv.assertReset_answers (hs : s.Inv) (l : List (Nat × Nat)) :
    ∃ t, Machine.assertReset l s = .next t := by
  induction l generalizing s with
  | nil => exact ⟨_, rfl⟩
  | cons e l ih =>
    obtain ⟨c, lag⟩ := e
    obtain ⟨u, hu⟩ := hs.abandon_answers c lag
    obtain ⟨t, ht⟩ := ih (hs.abandon hu)
    exact ⟨t, by simpa only [Machine.assertReset, hu, andThen] using ht⟩

/-! ### The other inputs cannot fault -/

theorem State.starts_ne_fault (c : Nat) (i : Instr) (t : State) (f : Fault) :
    s.starts c i t ≠ .fault f := by
  unfold State.starts
  split <;> simp

theorem State.issue_ne_fault (h c : Nat) (op : BitVec 4) (cmd : Option Instr) {start : State → Result}
    {f : Fault} (hst : ∀ u, start u ≠ .fault f) : s.issue h c op cmd start ≠ .fault f := by
  unfold State.issue
  split
  · simp
  · split
    · simp
    · dsimp only
      split
      · simp
      · exact hst _

/-- A write to CMD only issues: it makes no transaction (41_commands.md R140). -/
theorem cmdWrite_ne_fault (h c : Nat) (v : Word) (f : Fault) : cmdWrite h c v s ≠ .fault f := by
  unfold cmdWrite
  split
  · rename_i i _
    cases i with
    | add => exact State.issue_ne_fault _ _ _ _ fun _ => State.starts_ne_fault _ _ _ _
    | query => exact State.issue_ne_fault _ _ _ _ fun _ => State.starts_ne_fault _ _ _ _
    | clear => exact State.issue_ne_fault _ _ _ _ fun _ => State.starts_ne_fault _ _ _ _
  · exact State.issue_ne_fault _ _ _ _ fun u => by simp

theorem legalAccess_ne_fault (h : Nat) (a : Access) (f : Fault) : legalAccess h a s ≠ .fault f := by
  unfold legalAccess
  dsimp only
  split
  · simp
  · split
    · exact cmdWrite_ne_fault _ _ _ _
    · simp

theorem hostAccess_ne_fault (h : Nat) (a : Access) (f : Fault) : hostAccess h a s ≠ .fault f := by
  unfold hostAccess
  split
  · simp
  · split
    · exact legalAccess_ne_fault _ _ _
    · simp

theorem hostReach_ne_fault (a n : Nat) (ok : State) (f : Fault) : hostReach s a n ok ≠ .fault f := by
  unfold hostReach
  split
  · simp
  · split <;> simp

theorem hostStore_ne_fault (h a : Nat) (v : Word) (f : Fault) : hostStore h a v s ≠ .fault f := by
  unfold hostStore
  split
  · simp
  · exact hostReach_ne_fault _ _ _ _

theorem entryStore_ne_fault (a : Nat) (b : Byte) (f : Fault) : entryStore a b s ≠ .fault f := by
  unfold entryStore
  split <;> simp

/-- What answers a next state does not fault. -/
theorem ne_fault_of_answers {o : Result} (h : ∃ t, o = .next t) (f : Fault) : o ≠ .fault f := by
  obtain ⟨t, rfl⟩ := h
  simp

theorem State.Inv.serve_assertReset_answers (hs : s.Inv) (l : List (Nat × Nat)) :
    ∃ t, Machine.serve (.assertReset l) s = .next t := by
  simp only [Machine.serve]
  split
  · exact ⟨s, rfl⟩
  · exact hs.assertReset_answers l

/-- No input faults under the invariant. -/
theorem State.Inv.serve_ne_fault (hs : s.Inv) (e : Input) (f : Fault) : Machine.serve e s ≠ .fault f := by
  cases e with
  | access h a => exact hostAccess_ne_fault h a f
  | sequencer c lag => exact ne_fault_of_answers (hs.sequencerStep_answers c lag) f
  | assertReset l => exact ne_fault_of_answers (hs.serve_assertReset_answers l) f
  | releaseReset => simp [Machine.serve]
  | hostStore h index v => exact hostStore_ne_fault h _ v f
  | hostLoad h addr width lags => exact hostReach_ne_fault _ _ _ f
  | entryStore a b => exact entryStore_ne_fault _ b f
  | sync src dst => simp [Machine.serve]
  | portFaults busErrs hashErrs => simp [Machine.serve]

/-- Settles O35: under R22 the bit array lies in the address space and SLOTS is not 0, so a running
command's step is decided by the ports alone. -/
theorem noFaultUnderTheInvariant : Obligations.NoFaultUnderTheInvariant := by
  refine ⟨fun s f hs => ?_, fun s c lag rest hs hi => ?_, fun s l rest hs hi => ?_⟩
  · cases hi : s.inputs with
    | nil => simp [step_nil hi]
    | cons e rest =>
      rw [step_cons hi]
      exact (hs.withInputs rest).serve_ne_fault e f
  · rw [step_cons hi]
    exact (hs.withInputs rest).sequencerStep_answers c lag
  · rw [step_cons hi]
    exact (hs.withInputs rest).serve_assertReset_answers l

end Sys2Proof.Machine
end

section
/-! PROOFS. HardwareResetValues: the assertion of reset ends in State.hwReset whatever is still performed,
and the values the registers read there. -/

namespace Sys2Proof.Machine

variable {s t : State} {c : Nat}

/-! ### What a context's turn leaves unchanged -/

theorem addProbe_frame (h : addProbe c s = .next t) : s.FrameOf c t := by
  rcases addProbe_next h with ⟨-, rfl⟩ | ⟨-, rfl⟩
  · exact s.frame_finish _ _
  · refine (s.frame_amoOr c _ _).trans (State.frame_setCtx _ _ _ ?_ ?_) <;>
      split_ifs <;> simp [Ctx.probed, Ctx.atProbe]

theorem queryProbe_frame {lag : Nat} (h : queryProbe c lag s = .next t) : s.FrameOf c t := by
  rcases queryProbe_next h with ⟨-, rfl⟩ | ⟨-, y, rfl, rfl⟩
  · exact s.frame_finish _ _
  · refine (s.frame_memRead c _ lag).trans (State.frame_setCtx _ _ _ ?_ ?_) <;>
      split_ifs <;> simp [Ctx.probed, Ctx.atProbe, Ctx.withMember, Ctx.saw, State.memRead]

theorem clearWord_frame (h : clearWord c s = .next t) : s.FrameOf c t := by
  rcases clearWord_next h with ⟨-, rfl⟩ | ⟨-, rfl⟩
  · exact s.frame_finish _ _
  · refine (s.frame_memWrite c _ _).trans (State.frame_setCtx _ _ _ ?_ ?_) <;>
      split_ifs <;> simp [Ctx.atWord]

theorem addStep_frame (h : addStep c s = .next t) : s.FrameOf c t := by
  unfold addStep at h
  split at h
  · exact State.frame_hashStep h
  · exact addProbe_frame h
  all_goals
    cases h
    exact .refl _ _

theorem queryStep_frame {lag : Nat} (h : queryStep c lag s = .next t) : s.FrameOf c t := by
  unfold queryStep at h
  split at h
  · exact State.frame_hashStep h
  · exact queryProbe_frame h
  all_goals
    cases h
    exact .refl _ _

theorem clearStep_frame (h : clearStep c s = .next t) : s.FrameOf c t := by
  unfold clearStep at h
  split at h
  · exact clearWord_frame h
  all_goals
    cases h
    exact .refl _ _

/-- A turn of context c changes registers and hidden fields of that context alone. -/
theorem exec_advance_frame {lag : Nat} {i : Instr} (ht : s.turn = .advance c lag)
    (h : exec i s = .next t) : s.FrameOf c t := by
  cases i with
  | add =>
    simp only [exec, execAdd, ht] at h
    exact addStep_frame h
  | query =>
    simp only [exec, execQuery, ht] at h
    exact queryStep_frame h
  | clear =>
    simp only [exec, execClear, ht] at h
    exact clearStep_frame h

/-- What a context's turn answers: nothing happens, or its command takes a step. -/
theorem sequencerStep_next {lag : Nat} (h : sequencerStep c lag s = .next t) :
    t = s ∨ ∃ i, s.inReset = false ∧ s.running c = some i ∧
      exec i { s with turn := .advance c lag } = .next t := by
  unfold sequencerStep at h
  split at h
  · cases h
    exact .inl rfl
  · rename_i hr
    split at h
    · rename_i i hi
      exact .inr ⟨i, by simpa using hr, hi, h⟩
    · cases h
      exact .inl rfl

/-- The synthesis parameters and NCTX stay through a context's turn. -/
theorem sequencerStep_params {lag : Nat} (h : sequencerStep c lag s = .next t) :
    t.params = s.params ∧ t.nctx = s.nctx := by
  obtain rfl | ⟨i, -, -, hx⟩ := sequencerStep_next h
  · exact ⟨rfl, rfl⟩
  · have hf := exec_advance_frame rfl hx
    exact ⟨hf.params, hf.nctx⟩

/-! ### Hardware reset -/

/-- What abandoning a command answers: nothing to perform, or the context is dropped after its turn. -/
theorem abandon_next {lag : Nat} (h : abandon c lag s = .next t) :
    t = s ∨ ∃ u, sequencerStep c lag s = .next u ∧
      t = u.setCtx c ((u.ctx c).hwReset u.params) := by
  unfold abandon at h
  dsimp only at h
  split at h
  case h_1 | h_2 =>
    obtain ⟨u, hu, h⟩ := andThen_next h
    cases h
    exact .inr ⟨u, hu, rfl⟩
  case h_3 | h_4 =>
    cases h
    exact .inl rfl

theorem abandon_params {lag : Nat} (h : abandon c lag s = .next t) :
    t.params = s.params ∧ t.nctx = s.nctx := by
  obtain rfl | ⟨u, hu, rfl⟩ := abandon_next h
  · exact ⟨rfl, rfl⟩
  · simpa using sequencerStep_params hu

/-- The assertion of reset ends in the reset of a machine with the same parameters and contexts. -/
theorem assertReset_next {l : List (Nat × Nat)} (h : assertReset l s = .next t) :
    ∃ u : State, t = u.hwReset ∧ u.params = s.params ∧ u.nctx = s.nctx := by
  induction l generalizing s with
  | nil =>
    cases h
    exact ⟨s, rfl, rfl, rfl⟩
  | cons e l ih =>
    obtain ⟨c, lag⟩ := e
    obtain ⟨u, hu, h⟩ := andThen_next h
    obtain ⟨hp, hn⟩ := abandon_params hu
    obtain ⟨v, rfl, hvp, hvn⟩ := ih h
    exact ⟨v, rfl, hvp.trans hp, hvn.trans hn⟩

@[simp] theorem State.nctx_hwReset : s.hwReset.nctx = s.nctx := by
  simp [State.nctx]

theorem State.hwReset_atReset : s.hwReset.AtReset := by
  refine ⟨rfl, rfl, rfl, rfl, rfl, rfl, rfl, fun x hx => ?_⟩
  rw [State.hwReset_ctxs] at hx
  obtain ⟨y, -, rfl⟩ := List.mem_map.mp hx
  exact y.hwReset_atReset _

/-! ### The reset values as reads return them -/

theorem Ctx.reset_atReset (p : Params) : (Ctx.reset p).AtReset :=
  ⟨rfl, rfl, rfl, rfl, rfl, rfl, rfl, rfl, rfl⟩

/-- At reset every context has its reset values, one that does not exist too. -/
theorem State.AtReset.ctx (hs : s.AtReset) (c : Nat) : (s.ctx c).AtReset := by
  by_cases hc : c < s.nctx
  · exact hs.ctxs _ (s.ctx_mem c hc)
  · rw [s.ctx_absent c (Nat.not_lt.mp hc)]
    exact Ctx.reset_atReset _

theorem Ctx.AtReset.statusWord {x : Ctx} (hx : x.AtReset) : x.statusWord = 0#64 := by
  rw [Ctx.statusWord, hx.op, hx.errcode, hx.overrun, hx.state]
  rfl

theorem Ctx.AtReset.resultWord {x : Ctx} (hx : x.AtReset) : x.resultWord = 0#64 := by
  rw [Ctx.resultWord, hx.probesDone, hx.member]
  rfl

theorem Ctx.AtReset.entryLenWord {x : Ctx} (hx : x.AtReset) : x.entryLenWord = 0#64 := by
  rw [Ctx.entryLenWord, hx.entryLen]
  rfl

theorem State.AtReset.anyBusy (hs : s.AtReset) : s.anyBusy = false :=
  List.any_eq_false.mpr fun x hx => by simp [Ctx.busy, (hs.ctxs x hx).state]

theorem State.AtReset.clearActive (hs : s.AtReset) : s.clearActive = false :=
  List.any_eq_false.mpr fun x hx => by simp [Ctx.clearing, Ctx.busy, (hs.ctxs x hx).state]

theorem State.AtReset.ctrlWord (hs : s.AtReset) : s.ctrlWord = 0#64 := by
  rw [State.ctrlWord, hs.en]
  rfl

theorem State.AtReset.gstatusWord (hs : s.AtReset) : s.gstatusWord = 0#64 := by
  rw [State.gstatusWord, hs.clearActive, hs.anyBusy, hs.lockViol, hs.cfgErr, hs.en]
  rfl

theorem State.AtReset.probesWord (hs : s.AtReset) : s.probesWord = 0#64 := by
  rw [State.probesWord, hs.probes]
  rfl

/-- The parameters and NCTX decide PARAM (10_state.md R25). -/
theorem State.paramWord_congr (hp : t.params = s.params) (hn : t.nctx = s.nctx) :
    t.paramWord = s.paramWord := by
  rw [State.paramWord, State.paramWord, hp, hn]

/-- Settles O8: the state the assertion ends in is at reset, with the parameters and contexts it had. -/
theorem hardwareResetValues : Obligations.HardwareResetValues := by
  intro s t l rest hr hi h
  rw [step_cons hi] at h
  simp only [serve, hr, Bool.false_eq_true, if_false] at h
  obtain ⟨u, rfl, hp, hn⟩ := assertReset_next h
  have hu : u.hwReset.AtReset := State.hwReset_atReset
  have hnctx : u.hwReset.nctx = s.nctx := State.nctx_hwReset.trans hn
  refine ⟨hu.ctrlWord, hu.gstatusWord, hu.base, hu.slots, hu.probesWord, hu.seed, rfl,
    State.paramWord_congr hp hnctx, congrArg Params.kRegen hp, hnctx, rfl, fun c => ?_⟩
  have hx := hu.ctx c
  exact ⟨hx.statusWord, hx.resultWord, hx.entryPtr, hx.entryLenWord, hx.state, hx.phase, hx.op⟩

end Sys2Proof.Machine
end

section
/-! PROOFS. RegisterMapRoundTrip: what each part of the window's map names (10_state.md R23). -/

namespace Sys2Proof

/-- Between the global registers and the first context everything is reserved. -/
theorem regAt_gap (n : Nat) {off : Nat} (h1 : 0x048 ≤ off) (h2 : off < 0x100) :
    regAt n off = .reserved := by
  unfold regAt
  rw [if_pos h2]
  iterate 9 rw [if_neg (by omega)]

/-- An offset from 0x100 up is a byte of the span of some context. -/
theorem exists_context_offset {off : Nat} (h : 0x100 ≤ off) :
    ∃ c f, f < 0x40 ∧ off = 0x100 + 0x40 * c + f :=
  ⟨(off - 0x100) / 0x40, (off - 0x100) % 0x40, by omega, by omega⟩

/-- What an offset in the span of a context that exists names. -/
theorem regAt_context {n c f : Nat} (hc : c < n) (hf : f < 0x40) :
    regAt n (0x100 + 0x40 * c + f) =
      if f = 0x00 then .cmd c
      else if f = 0x08 then .status c
      else if f = 0x10 then .result c
      else if f = 0x18 then .entryPtr c
      else if f = 0x20 then .entryLen c
      else .reserved := by
  have hq : (0x100 + 0x40 * c + f - 0x100) / 0x40 = c := by omega
  have hm : (0x100 + 0x40 * c + f - 0x100) % 0x40 = f := by omega
  unfold regAt
  rw [if_neg (by omega), hq, hm]
  exact if_neg (Nat.not_le.mpr hc)

/-- Past the last context everything is reserved. -/
theorem regAt_absent {n off : Nat} (h : 0x100 + 0x40 * n ≤ off) : regAt n off = .reserved := by
  unfold regAt
  rw [if_neg (by omega)]
  exact if_pos (by omega)

/-- So are the bytes of a context past its five registers. -/
theorem regAt_tail (n : Nat) {off : Nat} (h1 : 0x100 ≤ off) (h2 : 0x28 ≤ (off - 0x100) % 0x40) :
    regAt n off = .reserved := by
  obtain ⟨c, f, hf, rfl⟩ := exists_context_offset h1
  by_cases hc : c < n
  · rw [regAt_context hc hf]
    iterate 5 rw [if_neg (by omega)]
  · exact regAt_absent (by omega)

/-- What is asked of the offset of a context's register, from what the map names there. -/
theorem regAt_context_inWindow {n c f : Nat} {r : Reg} (hn : nctxWf n = true) (hc : c < n)
    (hf : f < 0x40) (h8 : f % 8 = 0) (hr : regAt n (0x100 + 0x40 * c + f) = r) :
    0x100 + 0x40 * c + f < 4096 ∧ (0x100 + 0x40 * c + f) % 8 = 0 ∧
      regAt n (0x100 + 0x40 * c + f) = r := by
  simp only [nctxWf, Bool.and_eq_true, decide_eq_true_eq] at hn
  exact ⟨by omega, by omega, hr⟩

/-- A register that exists has an aligned offset in the window, which names it. -/
theorem regAt_regOffset {n : Nat} {r : Reg} (hn : nctxWf n = true) (hr : r.wf n = true) :
    ∃ off, regOffset r = some off ∧ off < 4096 ∧ off % 8 = 0 ∧ regAt n off = r := by
  cases r with
  | cmd c =>
    have hc := of_decide_eq_true hr
    exact ⟨_, rfl, regAt_context_inWindow (f := 0x00) hn hc (by decide) rfl (regAt_context hc (by decide))⟩
  | status c | result c | entryPtr c | entryLen c =>
    have hc := of_decide_eq_true hr
    exact ⟨_, rfl, regAt_context_inWindow hn hc (by decide) rfl (regAt_context hc (by decide))⟩
  | reserved => exact absurd hr Bool.false_ne_true
  | id | param | regenK | ctrl | gstatus | base | slots | probes | seed =>
    exact ⟨_, rfl, by decide, rfl, rfl⟩

/-- An aligned offset that names a register is its offset. -/
theorem regOffset_regAt {n off : Nat} (h8 : off % 8 = 0) (hr : regAt n off ≠ .reserved) :
    regOffset (regAt n off) = some off := by
  by_cases hg : off < 0x100
  · have hlt : off < 0x048 := by
      by_contra hge
      exact hr (regAt_gap n (Nat.not_lt.mp hge) hg)
    obtain ⟨q, rfl⟩ := Nat.dvd_of_mod_eq_zero h8
    have hq : q < 9 := by omega
    interval_cases q <;> rfl
  · obtain ⟨c, f, hf, rfl⟩ := exists_context_offset (Nat.not_lt.mp hg)
    have hc : c < n := by
      by_contra hge
      exact hr (regAt_absent (by omega))
    rw [regAt_context hc hf] at hr ⊢
    split_ifs at hr ⊢ with h0 h1 h2 h3 h4
    · rw [h0]; rfl
    · rw [h1]; rfl
    · rw [h2]; rfl
    · rw [h3]; rfl
    · rw [h4]; rfl
    · exact absurd rfl hr

/-- Settles O4: the reserved locations part by part, and the map in both directions. -/
theorem registerMapRoundTrip : Obligations.RegisterMapRoundTrip := by
  refine ⟨⟨rfl, rfl, rfl, rfl, rfl, rfl, rfl, rfl, rfl⟩, fun c => ⟨rfl, rfl, rfl, rfl, rfl⟩,
    fun n off _ h => ?_, fun n r hn hr => regAt_regOffset hn hr,
    fun n off _ h8 hr => regOffset_regAt h8 hr⟩
  rcases h with ⟨h1, h2⟩ | ⟨h1, h2⟩ | h
  · exact regAt_gap n h1 h2
  · exact regAt_tail n h1 h2
  · exact regAt_absent h

end Sys2Proof
end

section
/-! PROOFS. The words of the registers as sums of their fields (StatusFieldsInPlace, ConstantRegisters), and
the machine at reset (ResetMeetsInvariant). -/

namespace Sys2Proof.Machine

variable {s : State}

/-! ### Register words -/

/-- A concatenation as a number: the high part stands above the low part's bits. -/
theorem toNat_append_eq_add {m n : Nat} (x : BitVec m) (y : BitVec n) :
    (x ++ y).toNat = x.toNat * 2 ^ n + y.toNat := by
  rw [BitVec.toNat_append, ← Nat.shiftLeft_add_eq_or_of_lt y.isLt, Nat.shiftLeft_eq]

theorem toNat_bit (b : Bool) : (bit b).toNat = b.toNat := BitVec.toNat_ofBool b

/-- STATUS: STATE, OVERRUN, ERRCODE and OP at bits 0, 2, 8 and 16 (10_state.md R35). -/
theorem Ctx.statusWord_toNat (x : Ctx) : x.statusWord.toNat =
    x.state.code.toNat + 2 ^ 2 * x.overrun.toNat + 2 ^ 8 * x.errcode.code.toNat +
      2 ^ 16 * x.h.op.toNat := by
  simp only [Ctx.statusWord, toNat_append_eq_add, toNat_bit, BitVec.toNat_ofNat]
  omega

/-- RESULT: MEMBER and PROBES_DONE at bits 0 and 8 (10_state.md R36). -/
theorem Ctx.resultWord_toNat (x : Ctx) : x.resultWord.toNat =
    x.member.toNat + 2 ^ 8 * x.probesDone.toNat := by
  simp only [Ctx.resultWord, toNat_append_eq_add, toNat_bit, BitVec.toNat_ofNat]
  omega

/-- GSTATUS: EN, CFG_ERR, LOCK_VIOL, ANY_BUSY and CLEAR_ACTIVE from bit 0 up (10_state.md R28). -/
theorem State.gstatusWord_toNat (s : State) : s.gstatusWord.toNat =
    s.en.toNat + 2 ^ 1 * s.cfgErr.toNat + 2 ^ 2 * s.lockViol.toNat + 2 ^ 3 * s.anyBusy.toNat +
      2 ^ 4 * s.clearActive.toNat := by
  simp only [State.gstatusWord, toNat_append_eq_add, toNat_bit, BitVec.toNat_ofNat]
  omega

/-- PARAM: log2(LINE), NCTX, W_H, W_L and PMAX, a byte each (10_state.md R25). -/
theorem State.paramWord_toNat (hp : s.params.wf = true) (hn : nctxWf s.nctx = true) :
    s.paramWord.toNat = s.params.lineLog2 + 2 ^ 8 * s.nctx + 2 ^ 16 * s.params.wH +
      2 ^ 24 * s.params.wL + 2 ^ 32 * Config.pmax := by
  have hw := s.params.wH_range hp
  have hl := s.params.wL_eq
  rw [Params.wf_iff] at hp
  simp only [nctxWf, Bool.and_eq_true, decide_eq_true_eq] at hn
  simp only [State.paramWord, toNat_append_eq_add, BitVec.toNat_ofNat, Config.pmax]
  omega

/-- Settles O5: each word is the sum of its fields at their bits, and the codes are a table. -/
theorem statusFieldsInPlace : Obligations.StatusFieldsInPlace :=
  ⟨fun x => ⟨x.statusWord_toNat, x.resultWord_toNat⟩, ⟨rfl, rfl, rfl, rfl⟩,
    ⟨rfl, rfl, rfl, rfl, rfl, rfl⟩,
    fun s => ⟨s.gstatusWord_toNat, s.anyBusy_iff, s.clearActive_iff⟩⟩

/-- Settles O6: PARAM by its fields, the other constants by definition. -/
theorem constantRegisters : Obligations.ConstantRegisters :=
  ⟨by decide, rfl, fun _ hp hn => ⟨rfl, rfl, State.paramWord_toNat hp hn⟩⟩

/-! ### The machine at reset -/

/-- Every context number reads as a context at reset (10_state.md R43). -/
theorem State.reset_ctx (c : Nat) : State.reset.ctx c = Ctx.reset Params.default := by
  by_cases hc : c < State.reset.nctx
  · exact List.eq_of_mem_replicate (State.reset.ctx_mem c hc)
  · exact State.reset.ctx_absent c (Nat.not_lt.mp hc)

theorem State.reset_mem_ctxs {x : Ctx} (hx : x ∈ State.reset.ctxs) : x = Ctx.reset Params.default :=
  List.eq_of_mem_replicate hx

/-- A context at reset is not BUSY. -/
theorem Ctx.reset_not_busy (p : Params) : (Ctx.reset p).state ≠ .busy := by
  simp [Ctx.reset]

theorem State.reset_not_busy {x : Ctx} (hx : x ∈ State.reset.ctxs) : x.state ≠ .busy :=
  State.reset_mem_ctxs hx ▸ Ctx.reset_not_busy _

theorem State.reset_inv : State.reset.Inv where
  params := by decide
  nctx := by decide
  base := by decide
  enabled := fun h => absurd h Bool.false_ne_true
  disabled := fun _ _ hx => State.reset_not_busy hx
  ctxs := fun _ hx => State.reset_mem_ctxs hx ▸ Ctx.reset_ok Params.default _ _ ⟨0, [], [], [], false⟩
  exclusive := fun c c2 _ _ _ _ => State.reset_ctx c2 ▸ Ctx.reset_not_busy _
  mem := rfl
  entries := rfl
  placed := fun _ hx hb => absurd hb (State.reset_not_busy hx)
  cleared := fun _ hx hb => absurd hb (State.reset_not_busy hx)
  reset := fun h => absurd h Bool.false_ne_true

/-- No command has a number yet. -/
theorem State.reset_idsOk : State.reset.IdsOk where
  fresh c _ := by rw [State.reset_ctx]; decide
  self c h := by rw [State.reset_ctx] at h; exact absurd rfl h
  past c n h := by rw [State.reset_ctx] at h; exact absurd h List.not_mem_nil
  acted c h := by rw [State.reset_ctx] at h; cases h

/-- No command runs, so no lane is asked for. -/
theorem State.reset_lanesOk (c : Nat) : State.reset.LanesOk c := by
  intro hp
  rw [State.reset_ctx] at hp
  rcases hp with hp | hp <;> cases hp

/-- Settles O7: every context is idle. -/
theorem resetMeetsInvariant : Obligations.ResetMeetsInvariant :=
  ⟨State.reset_inv, State.reset_idsOk, State.reset_lanesOk⟩

end Sys2Proof.Machine
end

section
/-! PROOFS. What a write to CMD and a context's turn can leave: one relation each, in the terms the statements
of 20_memory.md need, so that their proofs split on its cases and not on the commands. -/

namespace Sys2Proof.Machine

variable {s t : State} {h c : Nat}

/-! ### A write to CMD -/

/-- What an accepted command does when it starts (41_commands.md R140). -/
def State.start (s : State) (c : Nat) : Instr → State
  | .add => s.startProbe c
  | .query => s.startProbe c
  | .clear => s.startClear c

/-- The issue of a command, whichever it is. -/
theorem exec_issue {i : Instr} (ht : s.turn = .issue h c) :
    exec i s = s.issue h c i.opcode (some i) fun u => u.starts c i (u.start c i) := by
  cases i with
  | add => simp only [exec, execAdd, ht]; rfl
  | query => simp only [exec, execQuery, ht]; rfl
  | clear => simp only [exec, execClear, ht]; rfl

/-- What a write to CMD leaves: nothing changed for a context that does not exist, OVERRUN for a BUSY one,
else the command is accepted, and is then BUSY or has ended with an error (41_commands.md R140). -/
inductive State.Issued (s : State) (h c : Nat) (op : BitVec 4) : State → Prop
  | absent (hc : s.nctx ≤ c) : Issued s h c op s
  | overrun (hc : c < s.nctx) (hb : (s.ctx c).state = .busy) : Issued s h c op (s.overrun c)
  | accepted (hc : c < s.nctx) (hb : (s.ctx c).state ≠ .busy) (x : Ctx)
      (hhb : x.hb = ((s.ctx c).accept op s.nextId (s.knownBy h)).hb)
      (hst : x.state = .busy ∨ x.state = .error)
      (hptr : x.entryPtr = (s.ctx c).entryPtr) (hlen : x.entryLen = (s.ctx c).entryLen) :
      Issued s h c op ((s.accept h c op).setCtx c x)

/-- A command that ends at its issue ends with an error (60_exceptions.md R202). -/
theorem State.issueError_ne_none {cmd : Option Instr} {e : ErrCode}
    (he : s.issueError c cmd = some e) : e ≠ .none := by
  unfold State.issueError at he
  split at he
  · cases he
    simp
  · split_ifs at he <;> cases he <;> simp

theorem Ctx.finish_error_state (x : Ctx) {e : ErrCode} (he : e ≠ .none) : (x.finish e).state = .error := by
  rw [Ctx.finish_error _ _ he]

theorem Ctx.finish_hb (x : Ctx) (e : ErrCode) : (x.finish e).hb = x.hb := by
  obtain ⟨-, -, hhb, -⟩ := x.finish_fields e
  exact hhb

theorem State.Issued.ofFinish (hc : c < s.nctx) (hb : (s.ctx c).state ≠ .busy) (op : BitVec 4)
    {e : ErrCode} (he : e ≠ .none) : s.Issued h c op ((s.accept h c op).finish c e) := by
  unfold State.finish
  rw [State.ctx_accept_same _ _ _ _ hc]
  exact .accepted hc hb _ (Ctx.finish_hb _ _) (.inr (Ctx.finish_error_state _ he))
    (Ctx.finish_entry _ _).1 (Ctx.finish_entry _ _).2

theorem State.Issued.ofStart (hc : c < s.nctx) (hb : (s.ctx c).state ≠ .busy) (op : BitVec 4)
    (i : Instr) : s.Issued h c op ((s.accept h c op).start c i) := by
  cases i <;>
  · simp only [State.start, State.startProbe, State.startClear, State.ctx_accept_same _ _ _ _ hc]
    exact .accepted hc hb _ rfl (.inl rfl) rfl rfl

/-- What an issue leaves, when what an accepted command does leaves it. -/
theorem State.issue_issued {op : BitVec 4} {cmd : Option Instr} {start : State → Result}
    (hst : c < s.nctx → (s.ctx c).state ≠ .busy → (s.accept h c op).issueError c cmd = none →
      start (s.accept h c op) = .next t → s.Issued h c op t)
    (hi : s.issue h c op cmd start = .next t) : s.Issued h c op t := by
  by_cases hc : s.nctx ≤ c
  · rw [State.issue_absent _ _ _ _ _ _ hc] at hi
    cases hi
    exact .absent hc
  · have hc := Nat.not_le.mp hc
    by_cases hb : (s.ctx c).state = .busy
    · rw [State.issue_busy _ _ _ _ _ _ hc hb] at hi
      cases hi
      exact .overrun hc hb
    · cases he : (s.accept h c op).issueError c cmd with
      | some e =>
        rw [State.issue_error _ _ _ _ _ _ e hc hb he] at hi
        cases hi
        exact .ofFinish hc hb op (State.issueError_ne_none he)
      | none =>
        rw [State.issue_start _ _ _ _ _ _ hc hb he] at hi
        exact hst hc hb he hi

/-- What the issue of a command leaves. -/
theorem exec_issued {i : Instr} (ht : s.turn = .issue h c) (hx : exec i s = .next t) :
    s.Issued h c i.opcode t := by
  rw [exec_issue ht] at hx
  refine State.issue_issued (fun hc hb _ hst => ?_) hx
  obtain ⟨rfl, -⟩ := State.starts_next hst
  exact .ofStart hc hb _ i

/-- What a write to CMD leaves, its word legal or not (30_encoding.md R94). -/
theorem cmdWrite_issued {v : Word} (hx : cmdWrite h c v s = .next t) :
    ∃ tn op, ({ s with turn := tn } : State).Issued h c op t := by
  unfold cmdWrite at hx
  split at hx
  · exact ⟨_, _, exec_issued (s := { s with turn := .issue h c }) rfl hx⟩
  · exact ⟨s.turn, _, State.issue_issued (cmd := none) (fun _ _ he => by simp [State.issueError] at he) hx⟩

/-- A write to CMD stores nothing. -/
theorem State.Issued.mem_eq {op : BitVec 4} (hi : s.Issued h c op t) : t.mem = s.mem := by
  cases hi <;> rfl

/-- Nor does it write a word of the coherence order. -/
theorem State.Issued.writes_eq {op : BitVec 4} (hi : s.Issued h c op t) : t.writes = s.writes := by
  cases hi <;> rfl

/-- A write to CMD changes registers and hidden fields of its context alone. -/
theorem State.Issued.frame {op : BitVec 4} (hi : s.Issued h c op t) : s.FrameOf c t := by
  cases hi with
  | absent hc => exact .refl _ _
  | overrun hc hb => exact s.frame_setCtx _ _ rfl rfl
  | accepted hc hb x hhb hst hptr hlen =>
    refine (s.frame_accept h c op).trans (State.frame_setCtx _ _ _ ?_ ?_) <;>
      rwa [State.ctx_accept_same _ _ _ _ hc]

/-- A write to the CMD of a context that is not BUSY is accepted: what happens-before its command. -/
theorem State.Issued.hb_eq {op : BitVec 4} (hi : s.Issued h c op t) (hc : c < s.nctx)
    (hb : (s.ctx c).state ≠ .busy) :
    (t.ctx c).hb = ⟨s.nextId, s.knownAtIssue h c, (s.ctx c).hb.carried, [], false⟩ := by
  cases hi with
  | absent hc' => exact absurd hc (Nat.not_lt.mpr hc')
  | overrun _ hb' => exact absurd hb' hb
  | accepted _ _ x hhb hst hptr hlen =>
    rw [State.ctx_setCtx_same _ _ _ (by simpa using hc), hhb]
    rfl

/-! ### A context's turn -/

/-- What a step of a running command that an answered request or transaction makes leaves of its context:
the command counts as having performed an event, and goes on or has ended DONE (41_commands.md R143). -/
structure Ctx.Acted (x y : Ctx) : Prop where
  id : y.hb.id = x.hb.id
  known : y.hb.known = x.hb.known
  past : y.hb.past = x.hb.past
  acted : y.hb.acted = true
  op : y.h.op = x.h.op
  entryPtr : y.entryPtr = x.entryPtr
  entryLen : y.entryLen = x.entryLen
  state : y.state = x.state ∨ y.state = .done

section
variable {x y : Ctx}

theorem Ctx.acted_act (x : Ctx) : x.Acted x.act := ⟨rfl, rfl, rfl, rfl, rfl, rfl, rfl, .inl rfl⟩

theorem Ctx.acted_saw (x : Ctx) (a n : Nat) : x.Acted (x.saw a n) :=
  ⟨rfl, rfl, rfl, rfl, rfl, rfl, rfl, .inl rfl⟩

theorem Ctx.acted_withLane (x : Ctx) (l : Lane) : x.Acted (x.withLane l) :=
  ⟨rfl, rfl, rfl, rfl, rfl, rfl, rfl, .inl rfl⟩

theorem Ctx.Acted.toProbe (h : x.Acted y) (p : Params) (slots : Nat) : x.Acted (y.toProbe p slots) :=
  { h with }

theorem Ctx.Acted.probed (h : x.Acted y) (n : Nat) : x.Acted (y.probed n) := { h with }

theorem Ctx.Acted.atProbe (h : x.Acted y) (n : Nat) : x.Acted (y.atProbe n) := { h with }

theorem Ctx.Acted.atWord (h : x.Acted y) (n : Nat) : x.Acted (y.atWord n) := { h with }

theorem Ctx.Acted.withMember (h : x.Acted y) (b : Bool) : x.Acted (y.withMember b) := { h with }

theorem Ctx.Acted.finish (h : x.Acted y) : x.Acted (y.finish .none) := { h with state := .inr rfl }

/-- The rest of a step that performed an event changes nothing outside its context. -/
theorem State.FrameOf.setCtx {u : State} (hf : s.FrameOf c u) (hx : (s.ctx c).Acted x) :
    s.FrameOf c (u.setCtx c x) :=
  hf.trans (u.frame_setCtx c x (hx.entryPtr.trans hf.entryPtr.symm) (hx.entryLen.trans hf.entryLen.symm))

end

/-- What a turn of context c leaves: nothing changed, the command ended with an error, or one request or
transaction of it performed (41_commands.md R141, R147, R149, R151). -/
inductive State.Turned (s : State) (c : Nat) : State → Prop
  | idle : Turned s c s
  | failed (hp : (s.ctx c).h.phase ≠ .none) (e : ErrCode) (he : e ≠ .none) : Turned s c (s.finish c e)
  | answered (hp : (s.ctx c).h.phase ≠ .none) (e : PortEvent) (x : Ctx) (hx : (s.ctx c).Acted x) :
      Turned s c ((s.record e).setCtx c x)
  | ored (hp : (s.ctx c).h.phase = .probe) (x : Ctx) (hx : (s.ctx c).Acted x) :
      Turned s c ((s.amoOr c (s.probeAddr c (s.ctx c).h.i) (s.probeMask c (s.ctx c).h.i)).setCtx c x)
  | zeroed (hp : (s.ctx c).h.phase = .clear) (x : Ctx) (hx : (s.ctx c).Acted x) :
      Turned s c ((s.memWrite c (s.clearAddr (s.ctx c).h.k) 0#64).setCtx c x)

theorem State.hashStep_turned (hp : (s.ctx c).h.phase = .hash) (hx : s.hashStep c = .next t) :
    s.Turned c t := by
  have hp : (s.ctx c).h.phase ≠ .none := by simp [hp]
  obtain ⟨-, rfl⟩ | ⟨-, ⟨-, rfl⟩ | ⟨-, -, rfl⟩⟩ := State.hashStep_next hx
  · exact .failed hp _ (by simp)
  · exact .answered hp _ _ (Ctx.acted_withLane _ _)
  · exact .answered hp _ _ ((Ctx.acted_withLane _ _).toProbe _ _)

theorem addProbe_turned (hp : (s.ctx c).h.phase = .probe) (hx : addProbe c s = .next t) :
    s.Turned c t := by
  obtain ⟨-, rfl⟩ | ⟨-, rfl⟩ := addProbe_next hx
  · exact .failed (by simp [hp]) _ (by simp)
  · refine .ored hp _ ?_
    have hy := ((s.ctx c).acted_act.probed ((s.ctx c).h.i + 1)).atProbe ((s.ctx c).h.i + 1)
    split_ifs
    · exact hy.finish
    · exact hy

theorem queryProbe_turned {lag : Nat} (hp : (s.ctx c).h.phase = .probe)
    (hx : queryProbe c lag s = .next t) : s.Turned c t := by
  obtain ⟨-, rfl⟩ | ⟨-, y, rfl, rfl⟩ := queryProbe_next hx
  · exact .failed (by simp [hp]) _ (by simp)
  · refine .answered (by simp [hp]) _ _ ?_
    have hy := ((s.ctx c).acted_saw (s.probeAddr c (s.ctx c).h.i)
      (s.loadPosition c (s.probeAddr c (s.ctx c).h.i) lag)).probed ((s.ctx c).h.i + 1)
    split_ifs
    · exact (hy.withMember false).finish
    · exact ((hy.atProbe _).finish).withMember true
    · exact hy.atProbe _

theorem clearWord_turned (hp : (s.ctx c).h.phase = .clear) (hx : clearWord c s = .next t) :
    s.Turned c t := by
  obtain ⟨-, rfl⟩ | ⟨-, rfl⟩ := clearWord_next hx
  · exact .failed (by simp [hp]) _ (by simp)
  · refine .zeroed hp _ ?_
    have hy := (s.ctx c).acted_act.atWord ((s.ctx c).h.k + 1)
    split_ifs
    · exact hy.finish
    · exact hy

/-- What the next step of a command leaves. -/
theorem exec_turned {lag : Nat} {i : Instr} (ht : s.turn = .advance c lag)
    (hx : exec i s = .next t) : s.Turned c t := by
  cases i with
  | add =>
    simp only [exec, execAdd, ht, addStep] at hx
    split at hx
    case h_1 hp => exact State.hashStep_turned hp hx
    case h_2 hp => exact addProbe_turned hp hx
    case h_3 | h_4 => cases hx; exact .idle
  | query =>
    simp only [exec, execQuery, ht, queryStep] at hx
    split at hx
    case h_1 hp => exact State.hashStep_turned hp hx
    case h_2 hp => exact queryProbe_turned hp hx
    case h_3 | h_4 => cases hx; exact .idle
  | clear =>
    simp only [exec, execClear, ht, clearStep] at hx
    split at hx
    case h_1 hp => exact clearWord_turned hp hx
    case h_2 | h_3 | h_4 => cases hx; exact .idle

/-- What a context's turn leaves, whatever it runs. -/
theorem sequencerStep_turned {lag : Nat} (hx : sequencerStep c lag s = .next t) :
    ∃ tn, ({ s with turn := tn } : State).Turned c t := by
  obtain rfl | ⟨i, -, -, hx⟩ := sequencerStep_next hx
  · exact ⟨t.turn, .idle⟩
  · exact ⟨_, exec_turned rfl hx⟩

/-- A context's turn changes registers and hidden fields of that context alone. -/
theorem State.Turned.frame (ht : s.Turned c t) : s.FrameOf c t := by
  cases ht with
  | idle => exact .refl _ _
  | failed hp e he => exact s.frame_finish _ _
  | answered hp e x hx => exact (s.frame_record e c).setCtx hx
  | ored hp x hx => exact (s.frame_amoOr c _ _).setCtx hx
  | zeroed hp x hx => exact (s.frame_memWrite c _ _).setCtx hx

/-! ### A register access -/

/-- A read tells its host of some commands, or of none. -/
theorem State.observe_learn (s : State) (h : Nat) (r : Reg) : ∃ ids, s.observe h r = s.learn h ids := by
  rw [State.observe_eq]
  cases r
  case status => exact ⟨_, rfl⟩
  all_goals exact ⟨[], rfl⟩

/-- What a register access leaves: a response and what a read tells its host, a write to CMD, or a write to
another register (42_register_access.md R170 to R183). -/
theorem hostAccess_next {a : Access} (hx : hostAccess h a s = .next t) :
    (∃ ids v, t = (s.learn h ids).respond v) ∨ (∃ c v, cmdWrite h c v (s.respond .ok) = .next t) ∨
      ∃ r v, t = (s.writeReg v r).respond .ok := by
  unfold hostAccess at hx
  split at hx
  · cases hx
    exact .inl ⟨[], _, rfl⟩
  · split at hx
    · unfold legalAccess at hx
      dsimp only at hx
      split at hx
      · cases hx
        obtain ⟨ids, hids⟩ := s.observe_learn h (regAt s.nctx (Access.offset a s.params))
        exact .inl ⟨ids, _, by rw [hids]⟩
      · split at hx
        · exact .inr (.inl ⟨_, _, hx⟩)
        · cases hx
          exact .inr (.inr ⟨_, _, rfl⟩)
    · cases hx
      exact .inl ⟨[], _, rfl⟩

end Sys2Proof.Machine
end

section
/-! PROOFS. LittleEndianBitOrder and HostLoadsSeeAdmittedBytes: where a byte and a bit stand in a word
(20_memory.md R61, R62). -/

namespace Sys2Proof.Machine

variable {s : State}

/-- A word's byte is the one it was made of (20_memory.md R61). -/
theorem byteOf_wordOf (f : Nat → Byte) {j : Nat} (hj : j < 8) : byteOf (wordOf f) j = f j := by
  refine BitVec.eq_of_getLsbD_eq fun n hn => ?_
  have hd : (8 * j + n) / 8 = j := by omega
  have hm : (8 * j + n) % 8 = n := by omega
  rw [getLsbD_byteOf, getLsbD_wordOf _ _ (by omega), hd, hm]
  simp [hn]

/-- The byte of the word that reaches it. -/
theorem State.byteOf_word (x : Nat) : byteOf (s.word (x / 8 * 8)) (x % 8) = s.byte x := by
  have hx : x / 8 * 8 + x % 8 = x := by omega
  rw [State.word, byteOf_wordOf _ (Nat.mod_lt _ (by omega)), hx]

/-- Settles O43: bit n of a word is bit n mod 8 of its byte n / 8. -/
theorem littleEndianBitOrder : Obligations.LittleEndianBitOrder := by
  intro s a b
  have hbyte : a + 8 * (b / 64) + b % 64 / 8 = a + b / 8 := by omega
  have hbit : b % 64 % 8 = b % 8 := by omega
  rw [State.word, getLsbD_wordOf _ _ (Nat.mod_lt _ (by omega)), hbyte, hbit]

/-! ### A host's load -/

/-- A load of normal memory inside the address space is answered (20_memory.md R62, log 15). -/
theorem hostReach_ok {a n : Nat} (ok : State) (hr : s.refuses a n = none) (ha : a + n ≤ addressSpace) :
    hostReach s a n ok = .next ok := by
  simp only [hostReach, hr, if_neg (Nat.not_lt.mpr ha)]

/-- Any other memory refuses a host's access (20_memory.md R68, R69, log 17). -/
theorem hostReach_refused {a n : Nat} (ok : State) {r : Refusal} (hr : s.refuses a n = some r) :
    hostReach s a n ok = .refused r := by
  simp only [hostReach, hr]

/-- The draw of a load is what R72 admits, as it stands (log 12). -/
theorem State.drawLag_eq {a floor lag : Nat} {known : List Nat} (h : lag ≤ s.maxLag a known floor) :
    s.drawLag a known floor lag = lag := Nat.min_eq_left h

/-- Whatever the draw, R72 admits the value (20_memory.md R72 (a), (b)). -/
theorem State.drawLag_admitted (a floor lag : Nat) (known : List Nat) :
    s.drawLag a known floor lag ≤ (s.wordWrites a).length - floor ∧
      s.drawLag a known floor lag ≤ (s.wordWrites a).length ∧
      ∀ j, j < s.drawLag a known floor lag → ∀ w, (s.wordWrites a)[j]? = some w → w.id ∉ known :=
  (s.le_maxLag_iff _ _ _ _).mp (Nat.min_le_right _ _)

/-- With no draw given a load returns the latest value. -/
theorem State.drawLag_zero (a floor : Nat) (known : List Nat) : s.drawLag a known floor 0 = 0 :=
  Nat.zero_min _

/-- The latest byte, when no draw is given. -/
theorem State.hostByte_zero (h a : Nat) : s.hostByte h a 0 = s.byte a := by
  rw [State.hostByte, State.drawLag_zero]
  exact State.byteOf_word a

/-- A load of an aligned word under one draw returns that word's bytes in order. -/
theorem State.hostByte_aligned (h : Nat) {a back : Nat} (ha : a % 8 = 0)
    (hb : back ≤ s.maxLag a (s.knownBy h) 0) :
    ((List.range 8).map fun j => s.hostByte h (a + j) ([back].getD ((a + j) / 8 - a / 8) 0)) =
      bytesOf (s.pastWord a back) := by
  refine List.map_congr_left fun j hj => ?_
  have hj : j < 8 := List.mem_range.mp hj
  have hword : (a + j) / 8 * 8 = a := by omega
  have hdraw : (a + j) / 8 - a / 8 = 0 := by omega
  have hbyte : (a + j) % 8 = j := by omega
  rw [State.hostByte, hword, hdraw, hbyte, List.getD_cons_zero, State.drawLag_eq hb]

/-- How far back in the word at w a host's load from address a looks: the word's own draw, clipped to R72 (a)
(log 12, log 15). -/
def State.hostBack (s : State) (h a : Nat) (lags : List Nat) (w : Nat) : Nat :=
  s.drawLag w (s.knownBy h) 0 (lags.getD (w / 8 - a / 8) 0)

theorem State.hostByte_eq (h a : Nat) (lags : List Nat) (x : Nat) :
    s.hostByte h x (lags.getD (x / 8 - a / 8) 0) =
      byteOf (s.pastWord (x / 8 * 8) (s.hostBack h a lags (x / 8 * 8))) (x % 8) := by
  rw [State.hostByte, State.hostBack, Nat.mul_div_cancel _ (by decide)]

/-- Settles O52: each byte is one of the word that reaches it, under that word's draw. -/
theorem hostLoadsSeeAdmittedBytes : Obligations.HostLoadsSeeAdmittedBytes := by
  refine ⟨fun s h n addr lags rest hi => ?_, fun s h back addr hr ha hle hback => ?_⟩
  · rw [step_cons hi]
    refine ⟨fun r hr => hostReach_refused _ hr, fun hr hend => ⟨_, hostReach_ok _ hr hend, by simp,
      ⟨s.hostBack h addr.toNat lags, ?_⟩, ?_⟩⟩
    · rintro j w hj rfl
      obtain ⟨-, hlen, hadm⟩ := State.drawLag_admitted (s := s) ((addr.toNat + j) / 8 * 8) 0
        (lags.getD ((addr.toNat + j) / 8 * 8 / 8 - addr.toNat / 8) 0) (s.knownBy h)
      refine ⟨?_, hlen, hadm⟩
      rw [List.getElem?_map, List.getElem?_range hj]
      exact congrArg some (State.hostByte_eq h addr.toNat lags _)
    · rintro rfl j hj
      rw [List.getElem?_map, List.getElem?_range hj]
      exact congrArg some (State.hostByte_zero h _)
  · have hadm : back ≤ s.maxLag addr.toNat (s.knownBy h) 0 :=
      (s.le_maxLag_iff _ _ _ _).mpr ⟨hle, hle, hback⟩
    have hend : addr.toNat + 8 ≤ addressSpace := by
      have := addr.isLt
      unfold addressSpace
      omega
    refine ⟨back, ?_⟩
    rw [step_cons rfl, ← State.hostByte_aligned h ha hadm]
    exact hostReach_ok _ hr hend

end Sys2Proof.Machine
end

section
/-! PROOFS. LoadReturnsWhatR72Admits and ConcurrentAddMayBeMissed: a QUERY's load (20_memory.md R71, R72). -/

namespace Sys2Proof.Machine

variable {s t : State} {c a : Nat}

/-- The value of a word n + 1 writes ago is what its write n replaced (20_memory.md R71). -/
theorem State.pastWord_succ {n : Nat} {w : WriteRec} (h : (s.wordWrites a)[n]? = some w) :
    s.pastWord a (n + 1) = w.old := by
  simp only [State.pastWord, h]

/-- The memory and the coherence order decide what a word was. -/
theorem State.pastWord_congr (hv : t.word a = s.word a) (hw : t.wordWrites a = s.wordWrites a) (n : Nat) :
    t.pastWord a n = s.pastWord a n := by
  cases n with
  | zero => exact hv
  | succ n => simp only [State.pastWord, hw, hv]

/-- Every admitted value is returned under some draw (20_memory.md R72). -/
theorem State.loadValue_of_admitted {n : Nat}
    (hn : n ≤ s.maxLag a (s.ctx c).hb.known ((s.ctx c).hb.floor a)) :
    s.loadValue c a n = s.pastWord a n :=
  congrArg (s.pastWord a) (State.drawLag_eq hn)

/-- With no draw given a load returns the latest value. -/
theorem State.loadValue_zero : s.loadValue c a 0 = s.word a :=
  congrArg (s.pastWord a) (State.drawLag_zero _ _ _)

/-- A load that knows of the latest write returns the latest value, whatever the draw. -/
theorem State.loadValue_of_known {w : WriteRec} {l : List WriteRec} (hw : s.wordWrites a = w :: l)
    (hk : w.id ∈ (s.ctx c).hb.known) (lag : Nat) : s.loadValue c a lag = s.word a := by
  obtain ⟨-, -, hadm⟩ := State.drawLag_admitted (s := s) a ((s.ctx c).hb.floor a) lag (s.ctx c).hb.known
  have hzero : s.loadLag c a lag = 0 := by
    by_contra hne
    exact hadm 0 (Nat.pos_of_ne_zero hne) w (by simp [hw]) hk
  rw [State.loadValue, hzero]
  rfl

/-- Settles O47: the draw, clipped, is a position R72 admits, and an admitted position is its own draw. -/
theorem loadReturnsWhatR72Admits : Obligations.LoadReturnsWhatR72Admits := by
  intro s c a
  refine ⟨⟨rfl, fun n w hw => State.pastWord_succ hw⟩, fun lag => ?_, fun back hadm hfl => ?_,
    State.loadValue_zero⟩
  · obtain ⟨hfl, hlen, hadm⟩ :=
      State.drawLag_admitted (s := s) a ((s.ctx c).hb.floor a) lag (s.ctx c).hb.known
    exact ⟨s.loadLag c a lag, rfl, rfl, hadm, hfl, hlen⟩
  · have hn := (s.le_maxLag_iff a _ _ back).mpr ⟨hfl, hfl.trans (Nat.sub_le _ _), hadm⟩
    exact ⟨back, State.loadValue_of_admitted hn⟩

/-! ### A load beside an ADD -/

/-- An ADD's step whose transaction is answered: its word gets the bit (41_commands.md R147). -/
theorem exec_add_probe {lag : Nat} (ht : s.turn = .advance c lag) (hp : (s.ctx c).h.phase = .probe)
    (hr : s.reach (s.probeAddr c (s.ctx c).h.i) = .ok) (hx : exec .add s = .next t) :
    ∃ x, t = (s.amoOr c (s.probeAddr c (s.ctx c).h.i) (s.probeMask c (s.ctx c).h.i)).setCtx c x := by
  simp only [exec, execAdd, ht, addStep, hp] at hx
  obtain ⟨hb, -⟩ | ⟨-, rfl⟩ := addProbe_next hx
  · rw [hr] at hb
    cases hb
  · exact ⟨_, rfl⟩

section
variable (s c a) (m : Word) (x : Ctx)

theorem State.word_amoOr_setCtx : ((s.amoOr c a m).setCtx c x).word a = s.word a ||| m :=
  State.word_writeWord_same s a (s.word a ||| m) (s.ctx c).hb.id

theorem State.wordWrites_amoOr_setCtx : ((s.amoOr c a m).setCtx c x).wordWrites a =
    ⟨a, s.word a, (s.ctx c).hb.id⟩ :: s.wordWrites a :=
  State.wordWrites_writeWord_same s a (s.word a ||| m) (s.ctx c).hb.id

end

/-- Settles O48: a load that does not know of the ADD may look back past its write; one that does sees it. -/
theorem concurrentAddMayBeMissed : Obligations.ConcurrentAddMayBeMissed := by
  rintro s t c c2 lag a m ht hp rfl rfl hr hx
  obtain ⟨x, rfl⟩ := exec_add_probe ht hp hr hx
  generalize s.probeMask c (s.ctx c).h.i = m
  generalize s.probeAddr c (s.ctx c).h.i = a
  have hw := s.wordWrites_amoOr_setCtx c a m x
  have hv := s.word_amoOr_setCtx c a m x
  refine ⟨fun hne hfl hid => ⟨⟨1, ?_⟩, 0, State.loadValue_zero.trans hv⟩,
    fun u v h hu hc hb huv huw hk hq l => ?_⟩
  · have hctx : ((s.amoOr c a m).setCtx c x).ctx c2 = s.ctx c2 := State.ctx_setCtx_ne _ _ _ _ hne
    rw [State.loadValue_of_admitted, State.pastWord_succ (by rw [hw]; rfl)]
    rw [State.le_maxLag_iff, hctx, hw, List.length_cons]
    refine ⟨by omega, by omega, fun j hj w hjw => ?_⟩
    obtain rfl : j = 0 := by omega
    cases hjw
    exact hid
  · have hi := exec_issued hu hq
    have hvw : v.wordWrites a = u.wordWrites a := congrArg (List.filter _) hi.writes_eq
    rw [State.loadValue_of_known (hvw.trans (huw.trans hw)) (by rw [hi.hb_eq hc hb]; exact hk),
      State.word_congr u v hi.mem_eq, huv, hv]

end Sys2Proof.Machine
end

section
/-! PROOFS. IssueRefusals: which bytes of the bit array refuse an accepted command, and in which order
(20_memory.md R68, R69; 70_reset_and_hazards.md R236). -/

namespace Sys2Proof.Machine

variable {s : State} {c : Nat} {i : Instr}

/-! ### The placement of the bit array -/

theorem State.meets_array_iff (r : Range) : Range.meets r s.base.toNat s.arrayBytes = true ↔
    ∃ x, s.inArray x = true ∧ r.lo ≤ x ∧ x < r.hi := by
  simp only [Range.meets_iff, State.inArray_iff]

/-- A byte of the bit array in the register window (20_memory.md R69). -/
theorem State.placement_window {x : Nat} (hx : s.inArray x = true)
    (hw : s.params.mmioBase.toNat ≤ x ∧ x < s.params.mmioBase.toNat + 4096) :
    s.placement = some .windowOverlap :=
  if_pos ((State.meets_array_iff s.window).mpr ⟨x, hx, hw⟩)

/-- Outside the window the regions with side effects decide (20_memory.md R68). -/
theorem State.placement_of_no_window
    (hw : ∀ x, s.inArray x = true →
      ¬ (s.params.mmioBase.toNat ≤ x ∧ x < s.params.mmioBase.toNat + 4096)) :
    s.placement = if s.platform.devices.any fun r => Range.meets r s.base.toNat s.arrayBytes
      then some .sideEffectMemory else none := by
  refine if_neg fun h => ?_
  obtain ⟨x, hx, hxw⟩ := (State.meets_array_iff s.window).mp h
  exact hw x hx hxw

theorem State.any_device_meets_iff :
    (s.platform.devices.any fun r => Range.meets r s.base.toNat s.arrayBytes) = true ↔
      ∃ x r, s.inArray x = true ∧ r ∈ s.platform.devices ∧ r.lo ≤ x ∧ x < r.hi := by
  simp only [List.any_eq_true, State.meets_array_iff]
  constructor
  · rintro ⟨r, hr, x, hx, hxr⟩
    exact ⟨x, r, hx, hr, hxr⟩
  · rintro ⟨x, r, hx, hr, hxr⟩
    exact ⟨r, hr, x, hx, hxr⟩

/-! ### The checks at the issue -/

/-- Acceptance makes no context BUSY and changes no other context: the CONFLICT check is on the state before
it (41_commands.md R140). -/
theorem State.issueError_accept_none (h : Nat) (op : BitVec 4) (hc : c < s.nctx)
    (hb : (s.ctx c).state ≠ .busy) (hen : s.en = true) (hcf : ¬ s.Conflicts c i) :
    (s.accept h c op).issueError c (some i) = none := by
  have hother : ¬ (i = .clear ∧ (s.accept h c op).otherBusy c = true) := by
    rw [State.otherBusy_iff]
    rintro ⟨hi, c2, hc2, hne, hb2⟩
    rw [State.ctx_accept_ne _ _ _ _ _ hne] at hb2
    exact hcf (.inl ⟨hi, c2, by simpa using hc2, hne, hb2⟩)
  have hclear : (s.accept h c op).clearActive = false := by
    rw [← Bool.not_eq_true, State.clearActive_iff]
    rintro ⟨c2, hc2, hb2, hop⟩
    obtain rfl | hne := eq_or_ne c2 c
    · rw [State.ctx_accept_same _ _ _ _ hc] at hb2
      exact hb hb2
    · rw [State.ctx_accept_ne _ _ _ _ _ hne] at hb2 hop
      exact hcf (.inr ⟨c2, by simpa using hc2, hb2, hop⟩)
  simp only [State.issueError, State.accept_en, hen]
  rw [if_neg (by simp), if_neg (by simpa using ⟨fun hi => by simpa [hi] using hother, hclear⟩)]

/-- A command that no check ends starts, unless a model refuses it. -/
theorem exec_issue_starts {h : Nat} (ht : s.turn = .issue h c) (hc : c < s.nctx)
    (hb : (s.ctx c).state ≠ .busy) (hen : s.en = true) (hcf : ¬ s.Conflicts c i) :
    exec i s = (s.accept h c i.opcode).starts c i ((s.accept h c i.opcode).start c i) := by
  rw [exec_issue ht,
    State.issue_start _ _ _ _ _ _ hc hb (State.issueError_accept_none h i.opcode hc hb hen hcf)]

theorem State.starts_refused {t : State} {r : Refusal} (h : s.refusal c i = some r) :
    s.starts c i t = .refused r := by
  simp only [State.starts, h]

/-- The placement refuses first, whatever the command. -/
theorem State.refusal_of_placement {r : Refusal} (h : s.placement = some r) :
    s.refusal c i = some r := by
  simp only [State.refusal, h]

/-- Then an ADD or QUERY is refused on a bit array with a word not zeroed (70_reset_and_hazards.md R236). -/
theorem State.refusal_not_cleared (h : s.placement = none) (hi : i ≠ .clear)
    (hcl : s.arrayCleared (s.ctx c).hb.known ≠ true) : s.refusal c i = some .notCleared := by
  simp [State.refusal, h, hi, hcl]

/-- Settles O24: the refusal is decided by the placement, then by the first word not zeroed. -/
theorem issueRefusals : Obligations.IssueRefusals := by
  intro s h c i ht hc hb hen hcf
  rw [exec_issue_starts ht hc hb hen hcf]
  refine ⟨?_, fun hw => ⟨fun hdev => ?_, fun hdev hi => ?_⟩⟩
  · rintro ⟨x, hx, hxw⟩
    exact State.starts_refused (State.refusal_of_placement (State.placement_window (s := s) hx hxw))
  · exact State.starts_refused (State.refusal_of_placement
      ((State.placement_of_no_window (s := s) hw).trans (if_pos (State.any_device_meets_iff.mpr hdev))))
  · rintro ⟨k, hk, hword⟩
    have hplace : s.placement = none := (State.placement_of_no_window hw).trans (if_neg fun hany => by
      obtain ⟨x, r, hx, hr, hxr⟩ := State.any_device_meets_iff.mp hany
      exact hdev x r hx hr hxr)
    refine State.starts_refused (State.refusal_not_cleared hplace hi fun hcl => ?_)
    rw [State.ctx_accept_same _ _ _ _ hc, State.arrayCleared_iff] at hcl
    exact Bool.false_ne_true (hword.symm.trans (hcl k hk))

end Sys2Proof.Machine
end

section
/-! PROOFS. ObservationOrdersTheNextCommand: what a read of STATUS, the hosts' synchronisation and an issue
add to what happens-before (20_memory.md R73). -/

namespace Sys2Proof.Machine

variable {s : State} {h c : Nat}

/-- A read of STATUS answers, and its host learns what the context's command passes on (20_memory.md R73
item 3). -/
theorem step_reads_status {rest : List Input} (hr : s.inReset = false) (hp : s.params.wf = true)
    (hn : nctxWf s.nctx = true) (hc : c < s.nctx) (hi : s.readsNext h (.status c) rest) :
    ∃ v, step s = .next ((({ s with inputs := rest } : State).observe h (.status c)).respond v) := by
  obtain ⟨off, hoff, hlt, h8, hreg⟩ :=
    regAt_regOffset (r := .status c) hn (by simpa [Reg.wf] using hc)
  simp only [State.readsNext, State.regAddr, hoff, Option.getD_some] at hi
  rw [step_access s h off .read rest hr hp hlt h8 hi]
  have hname : regAt ({ s with inputs := rest } : State).nctx
      (Access.offset ⟨BitVec.ofNat 64 (s.params.mmioBase.toNat + off), 8, .read⟩ s.params) = .status c := by
    rw [(Access.legal_at s.params hp off hlt h8 .read).2]
    exact hreg
  simp only [legalAccess, hname]
  exact ⟨_, rfl⟩

/-- What a read of STATUS tells its host: what happens-before the events of a command that it shows ended
and that has performed one, and nothing else (20_memory.md R73, R74). -/
theorem State.mem_knownBy_observe_status (h2 n : Nat) :
    n ∈ (s.observe h (.status c)).knownBy h2 ↔ n ∈ s.knownBy h2 ∨ (h2 = h ∧
      ((s.ctx c).state = .done ∨ (s.ctx c).state = .error) ∧ (s.ctx c).hb.acted = true ∧
        n ∈ (s.ctx c).hb.known) := by
  rw [State.observe_eq, State.mem_knownBy_learn]
  split_ifs with he <;> simp [he, Hb.mem_passed]

theorem State.knownBy_observe_ne {h2 : Nat} (r : Reg) (hne : h2 ≠ h) :
    (s.observe h r).knownBy h2 = s.knownBy h2 := by
  rw [State.observe_eq]
  cases r
  case status => exact State.knownBy_learn_ne _ _ _ _ hne
  all_goals rfl

/-- A read that shows no ended command with an event tells nothing. -/
theorem State.observe_status_eq
    (hno : ¬ (((s.ctx c).state = .done ∨ (s.ctx c).state = .error) ∧ (s.ctx c).hb.acted = true)) :
    s.observe h (.status c) = s := by
  rw [State.observe_eq]
  dsimp only
  split_ifs with he
  · have ha : (s.ctx c).hb.acted ≠ true := fun ha => hno ⟨he, ha⟩
    rw [Hb.passed, if_neg ha]
    rfl
  · rfl

/-- Settles O49: the read learns, the synchronisation learns, and the issue knows what its host has learned. -/
theorem observationOrdersTheNextCommand : Obligations.ObservationOrdersTheNextCommand := by
  refine ⟨fun s h c rest hr hp hn hc hi => ?_, fun s src dst rest hi => ?_,
    fun s t h c i ht hc hb hx => ?_⟩
  · obtain ⟨v, hv⟩ := step_reads_status hr hp hn hc hi
    have hmem : ∀ n, n ∈ ((({ s with inputs := rest } : State).observe h (.status c)).respond v).knownBy h ↔
        n ∈ s.knownBy h ∨ (((s.ctx c).state = .done ∨ (s.ctx c).state = .error) ∧
          (s.ctx c).hb.acted = true ∧ n ∈ (s.ctx c).hb.known) := fun n =>
      (State.mem_knownBy_observe_status (s := { s with inputs := rest }) h n).trans
        (or_congr_right (and_iff_right rfl))
    refine ⟨_, hv, hmem, fun h2 hne => State.knownBy_observe_ne (.status c) hne, fun hno => ?_,
      fun hids hend => ?_⟩
    · exact congrArg (fun t => (t.respond v).knownBy h)
        (State.observe_status_eq (s := { s with inputs := rest }) (h := h) hno)
    · have hev : ((s.ctx c).state = .done ∨ (s.ctx c).state = .error) ∧ (s.ctx c).hb.acted = true := by
        obtain hd | ⟨he, ha⟩ := hend
        · exact ⟨.inl hd, hids.acted c hd⟩
        · exact ⟨.inr he, ha⟩
      have hself : (s.ctx c).hb.id ∈ (s.ctx c).hb.known := by
        refine hids.self c fun hidle => ?_
        rcases hev.1 with hst | hst <;> rw [hidle] at hst <;> cases hst
      have htold : ∀ n, n ∈ (s.ctx c).hb.known → _ := fun n hn => (hmem n).mpr (.inr ⟨hev.1, hev.2, hn⟩)
      exact ⟨htold _ hself, htold⟩
  · rw [step_cons hi]
    refine ⟨_, rfl, rfl, fun n => ?_, fun h2 hne => State.knownBy_learn_ne _ _ _ _ hne⟩
    rw [State.mem_knownBy_learn]
    simp [State.knownBy]
  · have hhb := (exec_issued ht hx).hb_eq hc hb
    rw [hhb]
    refine ⟨rfl, rfl, rfl, fun n => ?_, fun n => Hb.mem_carried _ n⟩
    rw [State.mem_knownAtIssue, Hb.mem_carried]

end Sys2Proof.Machine
end

section
/-! PROOFS. OnlyTheBlockWritesTheArray and EntryBytesKeptWhileHashed: what hosts store past the block
(20_memory.md R79, R80). -/

namespace Sys2Proof.Machine

variable {s : State}

/-- The machine after host h has stored v to the word at a (log 9, log 13, log 15). -/
def State.hostStored (s : State) (h a : Nat) (v : Word) : State :=
  (({ (s.writeWord a v s.nextId).mark a v (some s.nextId) with nextId := s.nextId + 1 } : State).learn
    h [s.nextId]).respond .ok

section
variable (h : Nat) {a : Nat} (v : Word)

/-- A store into the bit array of an enabled block is refused (20_memory.md R79). -/
theorem hostStore_otherWriter (hin : s.en = true ∧ s.inArray a = true) :
    hostStore h a v s = .refused .otherWriter :=
  if_pos (by simpa using hin)

/-- A store to memory that is not normal is refused (20_memory.md R68, R69). -/
theorem hostStore_refused {r : Refusal} (hout : ¬ (s.en = true ∧ s.inArray a = true))
    (hr : s.refuses a 8 = some r) : hostStore h a v s = .refused r :=
  (if_neg (by simpa using hout)).trans (hostReach_refused _ hr)

/-- Any other store is performed. -/
theorem hostStore_ok (hout : ¬ (s.en = true ∧ s.inArray a = true)) (hr : s.refuses a 8 = none)
    (ha : a + 8 ≤ addressSpace) : hostStore h a v s = .next (s.hostStored h a v) :=
  (if_neg (by simpa using hout)).trans (hostReach_ok _ hr ha)

end

section
variable (s) (h a : Nat) (v : Word)

@[simp] theorem State.hostStored_params : (s.hostStored h a v).params = s.params := by
  simp [State.hostStored]
@[simp] theorem State.hostStored_en : (s.hostStored h a v).en = s.en := by
  simp [State.hostStored]
@[simp] theorem State.hostStored_base : (s.hostStored h a v).base = s.base := by
  simp [State.hostStored]
@[simp] theorem State.hostStored_slots : (s.hostStored h a v).slots = s.slots := by
  simp [State.hostStored]
@[simp] theorem State.hostStored_probes : (s.hostStored h a v).probes = s.probes := by
  simp [State.hostStored]
@[simp] theorem State.hostStored_seed : (s.hostStored h a v).seed = s.seed := by
  simp [State.hostStored]
@[simp] theorem State.hostStored_ctxs : (s.hostStored h a v).ctxs = s.ctxs := by
  simp [State.hostStored]
@[simp] theorem State.hostStored_mem : (s.hostStored h a v).mem = (s.writeWord a v s.nextId).mem := by
  simp [State.hostStored]
@[simp] theorem State.hostStored_writes :
    (s.hostStored h a v).writes = ⟨a, s.word a, s.nextId⟩ :: s.writes := by
  simp [State.hostStored]
@[simp] theorem State.hostStored_cleared :
    (s.hostStored h a v).cleared = ((s.writeWord a v s.nextId).mark a v (some s.nextId)).cleared := by
  simp [State.hostStored]
@[simp] theorem State.hostStored_nextId : (s.hostStored h a v).nextId = s.nextId + 1 := by
  simp [State.hostStored]

theorem State.word_hostStored : (s.hostStored h a v).word a = v :=
  (State.word_congr _ _ (s.hostStored_mem h a v) a).trans (s.word_writeWord_same a v s.nextId)

theorem State.sameBytesOutside_hostStored : s.SameBytesOutside a (s.hostStored h a v) := fun x hx =>
  (State.byte_congr _ _ (s.hostStored_mem h a v) x).trans (s.byte_writeWord_outside a v s.nextId x hx)

theorem State.nextId_mem_knownBy_hostStored : s.nextId ∈ (s.hostStored h a v).knownBy h :=
  (State.mem_knownBy_learn _ h h [s.nextId] _).mpr (.inr ⟨rfl, List.mem_singleton_self _⟩)

/-- The zeroed words decide what counts as zeroed. -/
theorem State.wordCleared_congr {s t : State} (hc : t.cleared = s.cleared) (known : List Nat) (a : Nat) :
    t.wordCleared known a = s.wordCleared known a := by
  simp only [State.wordCleared, hc]

theorem State.wordCleared_hostStored_same (known : List Nat) :
    (s.hostStored h a v).wordCleared known a = (decide (v = 0#64) && known.contains s.nextId) :=
  (State.wordCleared_congr (s.hostStored_cleared h a v) known a).trans
    (State.wordCleared_mark_same _ known a v (some s.nextId))

theorem State.wordCleared_hostStored_ne (known : List Nat) {a2 : Nat} (hne : a2 ≠ a) :
    (s.hostStored h a v).wordCleared known a2 = s.wordCleared known a2 :=
  (State.wordCleared_congr (s.hostStored_cleared h a v) known a2).trans
    (State.wordCleared_mark_ne (s.writeWord a v s.nextId) known a a2 v (some s.nextId) hne)

end

/-- Settles O51: a store that nothing refuses is one write of its word, marked and learned. -/
theorem onlyTheBlockWritesTheArray : Obligations.OnlyTheBlockWritesTheArray := by
  intro s h a k v rest hi ha
  have hend : a + 8 ≤ addressSpace := by
    have := k.isLt
    unfold addressSpace
    omega
  rw [step_cons hi]
  simp only [serve, ← ha]
  refine ⟨fun hin => hostStore_otherWriter (s := { s with inputs := rest }) h v hin, fun hout =>
    ⟨fun r hr => hostStore_refused (s := { s with inputs := rest }) h v hout hr, fun hr =>
      ⟨_, hostStore_ok (s := { s with inputs := rest }) h v hout hr hend, ?_⟩⟩⟩
  exact ⟨State.word_hostStored _ h a v, State.sameBytesOutside_hostStored _ h a v,
    State.hostStored_ctxs _ h a v, State.hostStored_writes { s with inputs := rest } h a v,
    State.nextId_mem_knownBy_hostStored { s with inputs := rest } h a v, State.hostStored_nextId _ h a v,
    State.wordCleared_hostStored_same { s with inputs := rest } h a v,
    fun known a2 hne => State.wordCleared_hostStored_ne { s with inputs := rest } h a v known hne⟩

/-- An entry byte is hashed when a BUSY ADD's or QUERY's span holds it (20_memory.md R80). -/
theorem Ctx.hashes_iff (x : Ctx) (a : Nat) : x.hashes a = true ↔
    x.state = .busy ∧ x.h.op ≠ Instr.clear.opcode ∧ x.entryPtr.toNat ≤ a ∧
      a < x.entryPtr.toNat + x.entryLen.toNat := by
  simp [Ctx.hashes, Ctx.busy, Instr.opcode, and_assoc]

theorem State.any_hashes_iff (a : Nat) : (s.ctxs.any fun x => x.hashes a) = true ↔
    ∃ c, c < s.nctx ∧ (s.ctx c).hashes a = true := by
  rw [List.any_eq_true]
  constructor
  · rintro ⟨x, hx, hh⟩
    obtain ⟨c, hc, rfl⟩ := s.exists_ctx x hx
    exact ⟨c, hc, hh⟩
  · rintro ⟨c, hc, hh⟩
    exact ⟨_, s.ctx_mem c hc, hh⟩

/-- Settles O53: the store is refused exactly when some context hashes the byte. -/
theorem entryBytesKeptWhileHashed : Obligations.EntryBytesKeptWhileHashed := by
  intro s a b rest hi
  rw [step_cons hi]
  refine ⟨fun hhash => ?_, fun hfree => ?_⟩
  · obtain ⟨c, hc, hb, hop, hspan⟩ := hhash
    have hh := (Ctx.hashes_iff _ _).mpr ⟨hb, hop, hspan⟩
    exact if_pos ((State.any_hashes_iff (s := s) _).mpr ⟨c, hc, hh⟩)
  · refine ⟨_, if_neg fun hany => ?_, rfl, ?_, fun x hx => ?_⟩
    · obtain ⟨c, hc, hh⟩ := (State.any_hashes_iff (s := s) _).mp hany
      obtain ⟨hb, hop, hspan⟩ := (Ctx.hashes_iff _ _).mp hh
      exact hfree c hc hb hop hspan
    · simp [State.entryByte]
    · simp only [State.entryByte, Memory.lookup_store_ne _ _ _ _ hx]

end Sys2Proof.Machine
end

section
/-! PROOFS. What one input leaves, as one relation: the statements about every step are proved by its cases. -/

namespace Sys2Proof.Machine

variable {s t : State}

/-- The same parameters, configuration, contexts, memory, coherence order and numbering: what remains is the
hosts', the ports' and the schedule's. -/
structure State.SameMachine (s t : State) : Prop where
  params : t.params = s.params
  en : t.en = s.en
  base : t.base = s.base
  slots : t.slots = s.slots
  probes : t.probes = s.probes
  seed : t.seed = s.seed
  ctxs : t.ctxs = s.ctxs
  mem : t.mem = s.mem
  nextId : t.nextId = s.nextId

theorem State.SameMachine.ctx (hm : s.SameMachine t) (c : Nat) : t.ctx c = s.ctx c :=
  State.ctx_congr s t c hm.params hm.ctxs

theorem State.SameMachine.nctx (hm : s.SameMachine t) : t.nctx = s.nctx :=
  congrArg List.length hm.ctxs

/-- The scheduling fields are not the machine's. -/
theorem State.sameMachine_schedule (s : State) (r : HostResp) (l : List Input) (tn : Turn) :
    s.SameMachine { s with hostResp := r, inputs := l, turn := tn } :=
  ⟨rfl, rfl, rfl, rfl, rfl, rfl, rfl, rfl, rfl⟩

theorem State.sameMachine_respond (s : State) (r : HostResp) : s.SameMachine (s.respond r) :=
  s.sameMachine_schedule r s.inputs s.turn

/-- What serving an input leaves. -/
inductive State.Served (s : State) : Input → State → Prop
  | same {e : Input} {t : State} (hm : s.SameMachine t) : Served s e t
  | issued {e : Input} {u t : State} {h c : Nat} {op : BitVec 4} (hm : s.SameMachine u)
      (hi : u.Issued h c op t) : Served s e t
  | wrote {e : Input} {t : State} (r : Reg) (v : Word) (hm : (s.writeReg v r).SameMachine t) : Served s e t
  | turned {e : Input} {t : State} {c : Nat} {tn : Turn} (ht : ({ s with turn := tn } : State).Turned c t) :
      Served s e t
  | stored (h : Nat) (k : BitVec 61) (v : Word) :
      Served s (.hostStore h k v) (s.hostStored h (8 * k.toNat) v)
  | reset {t : State} (l : List (Nat × Nat)) (hl : assertReset l s = .next t) : Served s (.assertReset l) t

/-- A register access. -/
theorem hostAccess_served {h : Nat} {a : Access} (hx : hostAccess h a s = .next t) :
    s.Served (.access h a) t := by
  obtain ⟨ids, v, rfl⟩ | ⟨c, v, hw⟩ | ⟨r, v, rfl⟩ := hostAccess_next hx
  · exact .same ⟨rfl, rfl, rfl, rfl, rfl, rfl, rfl, rfl, rfl⟩
  · obtain ⟨tn, op, hi⟩ := cmdWrite_issued hw
    exact .issued (s.sameMachine_schedule .ok s.inputs tn) hi
  · exact .wrote r v (State.sameMachine_respond _ _)

/-- What every input leaves. -/
theorem serve_served {e : Input} (hx : serve e s = .next t) : s.Served e t := by
  cases e with
  | access h a => exact hostAccess_served hx
  | sequencer c lag =>
    obtain ⟨tn, ht⟩ := sequencerStep_turned hx
    exact .turned ht
  | assertReset l =>
    simp only [serve] at hx
    split at hx
    · cases hx
      exact .same (s.sameMachine_respond s.hostResp)
    · exact .reset l hx
  | hostStore h k v =>
    obtain ⟨-, rfl | rfl⟩ := hostStore_next hx
    · exact .same (s.sameMachine_respond _)
    · exact .stored h k v
  | hostLoad h a n lags =>
    obtain ⟨-, ⟨-, rfl⟩ | ⟨-, rfl⟩⟩ := hostReach_next hx
    · exact .same (s.sameMachine_respond _)
    · exact .same (s.sameMachine_respond _)
  | entryStore a b =>
    simp only [serve, entryStore] at hx
    split at hx
    · cases hx
    · cases hx
      exact .same ⟨rfl, rfl, rfl, rfl, rfl, rfl, rfl, rfl, rfl⟩
  | releaseReset | sync src dst | portFaults busErrs hashErrs =>
    cases hx
    exact .same ⟨rfl, rfl, rfl, rfl, rfl, rfl, rfl, rfl, rfl⟩

/-- What a step leaves: it waits, or serves the next input. -/
theorem step_served (hx : step s = .next t) :
    t = s ∨ ∃ e rest, s.inputs = e :: rest ∧ ({ s with inputs := rest } : State).Served e t := by
  cases hi : s.inputs with
  | nil =>
    rw [step_nil hi] at hx
    cases hx
    exact .inl rfl
  | cons e rest =>
    rw [step_cons hi] at hx
    exact .inr ⟨e, rest, rfl, serve_served hx⟩

end Sys2Proof.Machine
end

section
/-! PROOFS. RunningCommandsOperandsFixed: what a step keeps of what running commands read (20_memory.md R81). -/

namespace Sys2Proof.Machine

variable {s t u : State} {c : Nat}

/-- The configuration stays while CTRL.EN stays 1, and a BUSY context's entry registers stay. -/
structure State.KeepsOperands (s t : State) : Prop where
  config : s.en = true → t.en = true → t.base = s.base ∧ t.slots = s.slots ∧ t.probes = s.probes ∧
    t.seed = s.seed ∧ t.params = s.params
  entry : ∀ c, (s.ctx c).state = .busy →
    (t.ctx c).entryPtr = (s.ctx c).entryPtr ∧ (t.ctx c).entryLen = (s.ctx c).entryLen

theorem State.KeepsOperands.refl (s : State) : s.KeepsOperands s :=
  ⟨fun _ _ => ⟨rfl, rfl, rfl, rfl, rfl⟩, fun _ _ => ⟨rfl, rfl⟩⟩

/-- What a command's step changes is no operand. -/
theorem State.FrameOf.keepsOperands (hf : s.FrameOf c t) : s.KeepsOperands t where
  config _ _ := ⟨hf.base, hf.slots, hf.probes, hf.seed, hf.params⟩
  entry c2 _ := by
    obtain rfl | hne := eq_or_ne c2 c
    · exact ⟨hf.entryPtr, hf.entryLen⟩
    · rw [hf.others c2 hne]
      exact ⟨rfl, rfl⟩

/-- A write to an entry register reaches only a context that is not BUSY (42_register_access.md R181, R182). -/
theorem State.keepsOperands_entryWrite (s : State) (c : Nat) (x : Ctx) :
    s.KeepsOperands (s.entryWrite c x) := by
  unfold State.entryWrite
  split
  · exact (s.frame_setCtx c { s.ctx c with overrun := true } rfl rfl).keepsOperands
  · rename_i hb
    refine ⟨fun _ _ => ⟨rfl, rfl, rfl, rfl, rfl⟩, fun c2 hb2 => ?_⟩
    have hne : c2 ≠ c := by
      rintro rfl
      exact hb (by simp [Ctx.busy, hb2])
    rw [State.ctx_setCtx_ne _ _ _ _ hne]
    exact ⟨rfl, rfl⟩

/-- A write to a configuration register has no effect on it while CTRL.EN = 1 (42_register_access.md R173). -/
theorem State.keepsOperands_configWrite (hp : t.params = s.params)
    (hc : t.ctxs = s.ctxs) : s.KeepsOperands (s.configWrite t) := by
  unfold State.configWrite
  split
  · exact ⟨fun _ _ => ⟨rfl, rfl, rfl, rfl, rfl⟩, fun _ _ => ⟨rfl, rfl⟩⟩
  · rename_i hs
    refine ⟨fun h => absurd h hs, fun c _ => ?_⟩
    rw [State.ctx_congr s t c hp hc]
    exact ⟨rfl, rfl⟩

/-- A legal write to a register other than CMD (42_register_access.md R172 to R182). -/
theorem State.keepsOperands_writeReg (s : State) (v : Word) (r : Reg) : s.KeepsOperands (s.writeReg v r) := by
  cases r with
  | ctrl =>
    simp only [State.writeReg, State.writeCtrl]
    split_ifs <;> exact ⟨fun _ _ => ⟨rfl, rfl, rfl, rfl, rfl⟩, fun _ _ => ⟨rfl, rfl⟩⟩
  | gstatus => exact ⟨fun _ _ => ⟨rfl, rfl, rfl, rfl, rfl⟩, fun _ _ => ⟨rfl, rfl⟩⟩
  | base | slots | probes | seed => exact State.keepsOperands_configWrite rfl rfl
  | entryPtr c | entryLen c => exact s.keepsOperands_entryWrite c _
  | id | param | regenK | cmd _ | status _ | result _ | reserved => exact .refl s

theorem State.SameMachine.keepsOperands (hm : s.SameMachine t) : s.KeepsOperands t :=
  ⟨fun _ _ => ⟨hm.base, hm.slots, hm.probes, hm.seed, hm.params⟩,
    fun c _ => by rw [hm.ctx c]; exact ⟨rfl, rfl⟩⟩

theorem State.SameMachine.keepsOperands_left (hm : s.SameMachine u) (hk : u.KeepsOperands t) :
    s.KeepsOperands t where
  config hs ht := by
    obtain ⟨h1, h2, h3, h4, h5⟩ := hk.config (hm.en.trans hs) ht
    exact ⟨h1.trans hm.base, h2.trans hm.slots, h3.trans hm.probes, h4.trans hm.seed, h5.trans hm.params⟩
  entry c hb := by
    simp only [← hm.ctx c] at hb ⊢
    exact hk.entry c hb

theorem State.SameMachine.keepsOperands_right (hm : u.SameMachine t) (hk : s.KeepsOperands u) :
    s.KeepsOperands t where
  config hs ht := by
    obtain ⟨h1, h2, h3, h4, h5⟩ := hk.config hs (hm.en.symm.trans ht)
    exact ⟨hm.base.trans h1, hm.slots.trans h2, hm.probes.trans h3, hm.seed.trans h4, hm.params.trans h5⟩
  entry c hb := by
    rw [hm.ctx c]
    exact hk.entry c hb

theorem State.Served.keepsOperands {e : Input} (hx : s.Served e t) (hr : t.inReset = false) :
    s.KeepsOperands t := by
  cases hx with
  | same hm => exact hm.keepsOperands
  | issued hm hi => exact hm.keepsOperands_left hi.frame.keepsOperands
  | wrote r v hm => exact hm.keepsOperands_right (s.keepsOperands_writeReg v r)
  | turned ht =>
    exact (s.sameMachine_schedule s.hostResp s.inputs _).keepsOperands_left ht.frame.keepsOperands
  | stored h k v =>
    refine ⟨fun _ _ => by simp, fun c _ => ?_⟩
    rw [State.ctx_congr s _ c (State.hostStored_params s h _ v) (State.hostStored_ctxs s h _ v)]
    exact ⟨rfl, rfl⟩
  | reset l hl =>
    obtain ⟨u, rfl, -⟩ := assertReset_next hl
    cases hr

/-- Settles O36: only the assertion of reset reaches an operand of a running command. -/
theorem runningCommandsOperandsFixed : Obligations.RunningCommandsOperandsFixed := by
  intro s t _ hx hr
  obtain rfl | ⟨e, rest, -, hs⟩ := step_served hx
  · exact ⟨(State.KeepsOperands.refl t).config, (State.KeepsOperands.refl t).entry⟩
  · have hk := hs.keepsOperands hr
    exact ⟨hk.config, hk.entry⟩

end Sys2Proof.Machine
end

section
/-! PROOFS. EveryStepKeepsTheNumbering: acceptance numbers a command, an event counts it, and nothing else
touches what happens-before a context's events (20_memory.md R73; 41_commands.md R143). -/

namespace Sys2Proof.Machine

variable {s t u : State} {c : Nat}

/-- The numbering holds after the step, and no context has forgotten what happens-before its events. -/
structure State.Numbered (s t : State) : Prop where
  ids : t.IdsOk
  carried : ∀ c n, n ∈ (s.ctx c).hb.carried → n ∈ (t.ctx c).hb.carried

theorem State.Numbered.trans (h : s.Numbered t) (k : t.Numbered u) : s.Numbered u :=
  ⟨k.ids, fun c n hn => k.carried c n (h.carried c n hn)⟩

/-- The contexts decide the numbering; a number once given is never given again. -/
theorem State.IdsOk.numbered (hi : s.IdsOk) (hc : ∀ c, t.ctx c = s.ctx c) (hn : t.nctx = s.nctx)
    (hid : s.nextId ≤ t.nextId) : s.Numbered t where
  ids := by
    refine ⟨fun c hlt => ?_, fun c => ?_, fun c => ?_, fun c => ?_⟩ <;> rw [hc]
    · exact Nat.lt_of_lt_of_le (hi.fresh c (hn ▸ hlt)) hid
    · exact hi.self c
    · exact hi.past c
    · exact hi.acted c
  carried c n hm := by rwa [hc]

theorem State.SameMachine.numbered (hm : s.SameMachine t) (hi : s.IdsOk) : s.Numbered t :=
  hi.numbered hm.ctx hm.nctx hm.nextId.ge

/-! ### One context -/

/-- What the numbering asks of a context y that replaces x, when the next number is N. -/
structure Ctx.NumberedBy (N : Nat) (x y : Ctx) : Prop where
  fresh : y.hb.id < N
  self : y.state ≠ .idle → y.hb.id ∈ y.hb.known
  past : ∀ n, n ∈ y.hb.past → n ∈ y.hb.known
  acted : y.state = .done → y.hb.acted = true
  carried : ∀ n, n ∈ x.hb.carried → n ∈ y.hb.carried

theorem State.IdsOk.setCtx (hi : s.IdsOk) {y : Ctx}
    (hy : c < s.nctx → (s.ctx c).NumberedBy s.nextId y) : s.Numbered (s.setCtx c y) := by
  by_cases hc : c < s.nctx
  · have hy := hy hc
    have hctx : ∀ c2, (s.setCtx c y).ctx c2 = if c2 = c then y else s.ctx c2 := by
      intro c2
      split_ifs with h
      · rw [h, State.ctx_setCtx_same _ _ _ hc]
      · exact State.ctx_setCtx_ne _ _ _ _ h
    refine ⟨⟨fun c2 hlt => ?_, fun c2 => ?_, fun c2 => ?_, fun c2 => ?_⟩, fun c2 => ?_⟩ <;>
      rw [hctx] <;> split_ifs with h
    · exact hy.fresh
    · exact hi.fresh c2 (by simpa using hlt)
    · exact hy.self
    · exact hi.self c2
    · exact hy.past
    · exact hi.past c2
    · exact hy.acted
    · exact hi.acted c2
    · exact h ▸ hy.carried
    · exact fun n hn => hn
  · rw [State.setCtx_absent _ _ _ (Nat.not_lt.mp hc)]
    exact hi.numbered (fun _ => rfl) rfl le_rfl

/-- A change that leaves what happens-before the context alone and does not end its command DONE. -/
theorem State.IdsOk.numberedBy_kept (hi : s.IdsOk) (hc : c < s.nctx) {y : Ctx}
    (hhb : y.hb = (s.ctx c).hb) (hst : y.state ≠ .idle → (s.ctx c).state ≠ .idle)
    (hd : y.state = .done → (s.ctx c).state = .done) : (s.ctx c).NumberedBy s.nextId y where
  fresh := by rw [hhb]; exact hi.fresh c hc
  self h := by rw [hhb]; exact hi.self c (hst h)
  past := by rw [hhb]; exact hi.past c
  acted h := by rw [hhb]; exact hi.acted c (hd h)
  carried n hn := by rwa [hhb]

/-- A performed event: what was before the command in its context is among what happens-before it. -/
theorem State.IdsOk.numberedBy_acted (hi : s.IdsOk) (hc : c < s.nctx) (hst : (s.ctx c).state ≠ .idle)
    {y : Ctx} (hy : (s.ctx c).Acted y) : (s.ctx c).NumberedBy s.nextId y where
  fresh := by rw [hy.id]; exact hi.fresh c hc
  self _ := by rw [hy.id, hy.known]; exact hi.self c hst
  past := by rw [hy.past, hy.known]; exact hi.past c
  acted _ := hy.acted
  carried n hn := by
    rw [Hb.mem_carried] at hn ⊢
    rw [hy.known]
    obtain ⟨-, hn⟩ | ⟨-, hn⟩ := hn
    · exact .inl ⟨hy.acted, hn⟩
    · exact .inl ⟨hy.acted, hi.past c n hn⟩

/-- An accepted command knows itself and what was before it, and hands on the latter until it acts. -/
theorem Ctx.numberedBy_accepted (x : Ctx) (op : BitVec 4) (id : Nat) (seen : List Nat) {y : Ctx}
    (hhb : y.hb = (x.accept op id seen).hb) (hst : y.state = .busy ∨ y.state = .error) :
    x.NumberedBy (id + 1) y := by
  simp only [Ctx.accept_hb] at hhb
  refine ⟨?_, fun _ => ?_, fun n hn => ?_, fun hd => ?_, fun n hn => ?_⟩
  · rw [hhb]
    exact Nat.lt_succ_self id
  · rw [hhb]
    exact (mem_addNew _ _ _).mpr (.inl rfl)
  · rw [hhb] at hn ⊢
    exact (mem_addNew _ _ _).mpr (.inr ((mem_union _ _ _).mpr (.inl hn)))
  · rw [hd] at hst
    rcases hst with h | h <;> cases h
  · rw [hhb]
    exact hn

/-! ### The steps -/

theorem State.Issued.numbered {h : Nat} {op : BitVec 4} (hx : s.Issued h c op t) (hi : s.IdsOk) :
    s.Numbered t := by
  cases hx with
  | absent hc => exact hi.numbered (fun _ => rfl) rfl le_rfl
  | overrun hc hb => exact hi.setCtx fun hc => hi.numberedBy_kept hc rfl id id
  | accepted hc hb x hhb hst hptr hlen =>
    have hnext : s.Numbered { s with nextId := s.nextId + 1 } :=
      hi.numbered (fun _ => rfl) rfl (Nat.le_succ _)
    rw [State.setCtx_accept]
    exact hnext.trans (hnext.ids.setCtx (c := c) fun _ => (s.ctx c).numberedBy_accepted _ _ _ hhb hst)

/-- A step that performed an event, whatever it stored and recorded before. -/
theorem State.IdsOk.numbered_acted (hi : s.IdsOk) (hc : ∀ c2, u.ctx c2 = s.ctx c2) (hn : u.nctx = s.nctx)
    (hid : u.nextId = s.nextId) (hst : (s.ctx c).state ≠ .idle) {x : Ctx} (hx : (s.ctx c).Acted x) :
    s.Numbered (u.setCtx c x) := by
  have hu := hi.numbered hc hn hid.ge
  refine hu.trans (hu.ids.setCtx fun hlt => ?_)
  rw [← hc c] at hst hx
  exact hu.ids.numberedBy_acted hlt hst hx

theorem State.Turned.numbered (hx : s.Turned c t) (hs : s.Inv) (hi : s.IdsOk) : s.Numbered t := by
  have hst : (s.ctx c).h.phase ≠ .none → (s.ctx c).state ≠ .idle := fun hp => by
    simp [(hs.ctx (State.exists_of_phase hp)).busy.mpr hp]
  cases hx with
  | idle => exact hi.numbered (fun _ => rfl) rfl le_rfl
  | failed hp e he =>
    refine hi.setCtx fun hc => hi.numberedBy_kept hc (Ctx.finish_hb _ _) (fun _ => hst hp) fun hd => ?_
    rw [Ctx.finish_error_state _ he] at hd
    cases hd
  | answered hp e x hx =>
    exact hi.numbered_acted (s.ctx_record e) (s.nctx_record e) (s.record_nextId e) (hst hp) hx
  | ored hp x hx =>
    exact hi.numbered_acted (s.ctx_amoOr c _ _) (s.nctx_amoOr c _ _) (s.amoOr_nextId c _ _)
      (hst (by simp [hp])) hx
  | zeroed hp x hx =>
    exact hi.numbered_acted (s.ctx_memWrite c _ _) (s.nctx_memWrite c _ _) (s.memWrite_nextId c _ _)
      (hst (by simp [hp])) hx

theorem State.IdsOk.numbered_entryWrite (hi : s.IdsOk) {y : Ctx} (hhb : y.hb = (s.ctx c).hb)
    (hst : y.state = (s.ctx c).state) : s.Numbered (s.entryWrite c y) := by
  unfold State.entryWrite
  split
  · exact hi.setCtx fun hc => hi.numberedBy_kept hc rfl id id
  · exact hi.setCtx fun hc => hi.numberedBy_kept hc hhb (by simp [hst]) (by simp [hst])

theorem State.IdsOk.numbered_configWrite (hi : s.IdsOk) (hp : u.params = s.params) (hc : u.ctxs = s.ctxs)
    (hid : u.nextId = s.nextId) : s.Numbered (s.configWrite u) := by
  unfold State.configWrite
  split
  · exact hi.numbered (fun _ => rfl) rfl le_rfl
  · exact hi.numbered (fun c => State.ctx_congr s u c hp hc) (congrArg List.length hc) hid.ge

theorem State.IdsOk.numbered_writeReg (hi : s.IdsOk) (v : Word) (r : Reg) :
    s.Numbered (s.writeReg v r) := by
  cases r with
  | ctrl =>
    simp only [State.writeReg, State.writeCtrl]
    split_ifs <;> exact hi.numbered (fun _ => rfl) rfl le_rfl
  | base | slots | probes | seed => exact hi.numbered_configWrite rfl rfl rfl
  | entryPtr c | entryLen c => exact hi.numbered_entryWrite rfl rfl
  | gstatus | id | param | regenK | cmd _ | status _ | result _ | reserved =>
    exact hi.numbered (fun _ => rfl) rfl le_rfl

/-! ### Hardware reset -/

/-- Dropping a context keeps what happens-before its next command (log 19). -/
theorem State.IdsOk.dropCtx (hi : s.IdsOk) (c : Nat) (p : Params) :
    s.Numbered (s.setCtx c ((s.ctx c).hwReset p)) :=
  hi.setCtx fun hc => hi.numberedBy_kept hc rfl (fun h => absurd rfl h) (fun h => by cases h)

theorem State.ctx_hwReset (s : State) (c : Nat) : s.hwReset.ctx c = (s.ctx c).hwReset s.params :=
  List.getD_map s.ctxs (Ctx.reset s.params) fun x => x.hwReset s.params

theorem State.IdsOk.hwReset (hi : s.IdsOk) : s.Numbered s.hwReset where
  ids := by
    refine ⟨fun c hc => ?_, fun c h => ?_, fun c => ?_, fun c h => ?_⟩ <;> rw [State.ctx_hwReset] at *
    · exact hi.fresh c (by simpa using hc)
    · exact absurd rfl h
    · exact hi.past c
    · cases h
  carried c n hn := by rwa [State.ctx_hwReset]

theorem State.Turned.numbered_of_turn {tn : Turn} (hx : ({ s with turn := tn } : State).Turned c t)
    (hs : s.Inv) (hi : s.IdsOk) : s.Numbered t := by
  have hn := (s.sameMachine_schedule s.hostResp s.inputs tn).numbered hi
  exact hn.trans (hx.numbered (hs.schedule s.inputs tn) hn.ids)

theorem abandon_numbered {lag : Nat} (hs : s.Inv) (hi : s.IdsOk) (hx : abandon c lag s = .next t) :
    s.Numbered t := by
  obtain rfl | ⟨u, hu, rfl⟩ := abandon_next hx
  · exact hi.numbered (fun _ => rfl) rfl le_rfl
  · obtain ⟨tn, ht⟩ := sequencerStep_turned hu
    have hsu := ht.numbered_of_turn hs hi
    exact hsu.trans (hsu.ids.dropCtx c _)

theorem assertReset_numbered {l : List (Nat × Nat)} (hs : s.Inv) (hi : s.IdsOk)
    (hx : assertReset l s = .next t) : s.Numbered t := by
  induction l generalizing s with
  | nil =>
    cases hx
    exact hi.hwReset
  | cons e l ih =>
    obtain ⟨c, lag⟩ := e
    obtain ⟨u, hu, hx⟩ := andThen_next hx
    have hsu := abandon_numbered hs hi hu
    exact hsu.trans (ih (hs.abandon hu) hsu.ids hx)

theorem State.Served.numbered {e : Input} (hx : s.Served e t) (hs : s.Inv) (hi : s.IdsOk) :
    s.Numbered t := by
  cases hx with
  | same hm => exact hm.numbered hi
  | issued hm hx => exact (hm.numbered hi).trans (hx.numbered (hm.numbered hi).ids)
  | wrote r v hm => exact (hi.numbered_writeReg v r).trans (hm.numbered (hi.numbered_writeReg v r).ids)
  | turned hx => exact hx.numbered_of_turn hs hi
  | stored h k v =>
    exact hi.numbered (fun c => State.ctx_congr s _ c (s.hostStored_params h _ v) (s.hostStored_ctxs h _ v))
      (congrArg List.length (s.hostStored_ctxs h _ v)) (by simp)
  | reset l hl => exact assertReset_numbered hs hi hl

/-- Settles O46: by what each input leaves of its context. -/
theorem everyStepKeepsTheNumbering : Obligations.EveryStepKeepsTheNumbering := by
  intro s t hs hi hx
  obtain rfl | ⟨e, rest, -, hx⟩ := step_served hx
  · exact ⟨hi, fun _ _ hn => hn⟩
  · have hm := s.sameMachine_schedule s.hostResp rest s.turn
    have hst := (hm.numbered hi).trans (hx.numbered (hs.withInputs rest) (hm.numbered hi).ids)
    exact ⟨hst.ids, hst.carried⟩

end Sys2Proof.Machine
end

section
/-! PROOFS. WordsOnlyGainBits: of the block's transactions only a CLEAR's step stores a word that may lose bits
(20_memory.md R76). -/

namespace Sys2Proof.Machine

variable {s t u : State} {c : Nat}

/-- Every aligned word has the bits it had, and perhaps more. -/
def State.Gains (s t : State) : Prop := ∀ a, a % 8 = 0 → s.word a &&& t.word a = s.word a

theorem State.Gains.of_mem (h : t.mem = s.mem) : s.Gains t := fun a _ => by
  rw [s.word_congr t h, BitVec.and_self]

theorem State.Gains.trans (h : s.Gains t) (k : t.Gains u) : s.Gains u := fun a ha => by
  calc s.word a &&& u.word a
      = s.word a &&& t.word a &&& u.word a := by rw [h a ha]
    _ = s.word a &&& (t.word a &&& u.word a) := BitVec.and_assoc ..
    _ = s.word a := by rw [k a ha, h a ha]

/-- A word ORed with a mask has the bits it had. -/
theorem and_or_self_word (v m : Word) : v &&& (v ||| m) = v := by
  refine BitVec.eq_of_getLsbD_eq fun n _ => ?_
  rw [BitVec.getLsbD_and, BitVec.getLsbD_or]
  cases v.getLsbD n <;> rfl

/-- An atomic OR of an aligned word only adds bits (20_memory.md R66, R76). -/
theorem State.gains_amoOr (c : Nat) {a : Nat} (m : Word) (ha : a % 8 = 0) : s.Gains (s.amoOr c a m) := by
  intro a2 ha2
  obtain rfl | hne := eq_or_ne a2 a
  · have hw : (s.amoOr c a2 m).word a2 = s.word a2 ||| m := s.word_writeWord_same a2 _ (s.ctx c).hb.id
    rw [hw, and_or_self_word]
  · have hw : (s.amoOr c a m).word a2 = s.word a2 :=
      s.word_writeWord_disjoint a a2 _ (s.ctx c).hb.id (by omega)
    rw [hw, BitVec.and_self]

/-- A probe's word is aligned, as BASE and LINE are (10_state.md R29; 40_probe_datapath.md R120). -/
theorem State.Inv.probeAddr_aligned (hs : s.Inv) (c i : Nat) : s.probeAddr c i % 8 = 0 := by
  have hline : 8 ∣ s.params.line := ⟨_, s.params.line_eq hs.params⟩
  have hbase : 8 ∣ s.base.toNat := hline.trans (Nat.dvd_of_mod_eq_zero hs.base)
  have hslot : 8 ∣ (s.ctx c).h.slot * s.params.line := hline.mul_left _
  unfold State.probeAddr wordAddr slotBase
  omega

/-! ### No CLEAR runs -/

/-- No context is in a CLEAR's phase while none is BUSY with a CLEAR. -/
theorem State.Inv.phase_ne_clear (hs : s.Inv) (hcl : s.clearActive = false) (c : Nat) :
    (s.ctx c).h.phase ≠ .clear := by
  intro hp
  have hc := State.exists_of_phase (s := s) (c := c) (by simp [hp])
  have hok := hs.ctx hc
  have hpos := hok.position
  simp only [Ctx.PositionOk, hp] at hpos
  have hact := (State.clearActive_iff s).mpr ⟨c, hc, hok.state_of_phase hp (by simp), hpos.1⟩
  rw [hcl] at hact
  cases hact

/-- So a turn only adds bits: it is no step of a CLEAR. -/
theorem State.Turned.gains (hx : s.Turned c t) (hs : s.Inv) (hcl : s.clearActive = false) : s.Gains t := by
  cases hx with
  | idle => exact .of_mem rfl
  | failed hp e he => exact .of_mem (s.finish_mem c e)
  | answered hp e x hx => exact .of_mem (State.setCtx_mem _ c x)
  | ored hp x hx =>
    exact (s.gains_amoOr c _ (hs.probeAddr_aligned c _)).trans (.of_mem (State.setCtx_mem _ c x))
  | zeroed hp x hx => exact absurd hp (hs.phase_ne_clear hcl c)

/-- Hardware reset performs turns and drops their contexts: it starts no CLEAR. -/
theorem State.Turned.clearActive_dropCtx (hx : s.Turned c t) (p : Params) (hcl : s.clearActive = false) :
    (t.setCtx c ((t.ctx c).hwReset p)).clearActive = false := by
  have hf := hx.frame
  rw [← Bool.not_eq_true, State.clearActive_iff] at hcl ⊢
  rintro ⟨c2, hlt, hb, hop⟩
  rw [State.nctx_setCtx] at hlt
  obtain rfl | hne := eq_or_ne c2 c
  · rw [State.ctx_setCtx_same _ _ _ hlt] at hb
    cases hb
  · rw [State.ctx_setCtx_ne _ _ _ _ hne, hf.others c2 hne] at hb hop
    exact hcl ⟨c2, hf.nctx ▸ hlt, hb, hop⟩

theorem abandon_gains {lag : Nat} (hs : s.Inv) (hcl : s.clearActive = false)
    (hx : abandon c lag s = .next t) : s.Gains t ∧ t.clearActive = false := by
  obtain rfl | ⟨u, hu, rfl⟩ := abandon_next hx
  · exact ⟨.of_mem rfl, hcl⟩
  · obtain ⟨tn, ht⟩ := sequencerStep_turned hu
    exact ⟨ht.gains (hs.schedule s.inputs tn) hcl, ht.clearActive_dropCtx _ hcl⟩

theorem assertReset_gains {l : List (Nat × Nat)} (hs : s.Inv) (hcl : s.clearActive = false)
    (hx : assertReset l s = .next t) : s.Gains t := by
  induction l generalizing s with
  | nil =>
    cases hx
    exact .of_mem rfl
  | cons e l ih =>
    obtain ⟨c, lag⟩ := e
    obtain ⟨u, hu, hx⟩ := andThen_next hx
    obtain ⟨hg, hclu⟩ := abandon_gains hs hcl hu
    exact hg.trans (ih (hs.abandon hu) hclu hx)

/-- A register write stores nothing. -/
theorem State.mem_writeReg (s : State) (v : Word) (r : Reg) : (s.writeReg v r).mem = s.mem := by
  cases r with
  | ctrl =>
    simp only [State.writeReg, State.writeCtrl]
    split_ifs <;> rfl
  | base | slots | probes | seed =>
    simp only [State.writeReg, State.configWrite]
    split_ifs <;> rfl
  | entryPtr c | entryLen c =>
    simp only [State.writeReg, State.entryWrite]
    split_ifs <;> rfl
  | gstatus | id | param | regenK | cmd _ | status _ | result _ | reserved => rfl

theorem State.Served.gains {e : Input} (hx : s.Served e t) (hs : s.Inv) (hcl : s.clearActive = false)
    (he : ∀ h k v, e ≠ .hostStore h k v) : s.Gains t := by
  cases hx with
  | same hm => exact .of_mem hm.mem
  | issued hm hi => exact .of_mem (hi.mem_eq.trans hm.mem)
  | wrote r v hm => exact .of_mem (hm.mem.trans (s.mem_writeReg v r))
  | turned ht => exact ht.gains (hs.schedule s.inputs _) hcl
  | stored h k v => exact absurd rfl (he h k v)
  | reset l hl => exact assertReset_gains hs hcl hl

/-- Settles O50: while no CLEAR runs and no host stores, only an ADD's OR reaches memory. -/
theorem wordsOnlyGainBits : Obligations.WordsOnlyGainBits := by
  intro s t a hs hcl hstore ha hx
  obtain rfl | ⟨e, rest, hi, hx⟩ := step_served hx
  · exact BitVec.and_self
  · refine hx.gains (hs.withInputs rest) hcl (fun h k v he => ?_) a ha
    exact hstore h k v rest (by rw [hi, he])

end Sys2Proof.Machine
end

section
/-! PROOFS. CommandWordsDecode, DecodeFollowsPseudocode and DecodeEncodeAgree: a command word is its two
fields (30_encoding.md R90), and the decoder inverts the encoder. -/

namespace Sys2Proof

variable {v : Word} {i : Instr}

/-! ### The fields of a command word -/

/-- Every value of field OP is a command's opcode or is reserved (30_encoding.md R91). -/
theorem opcode_or_reserved (op : BitVec 4) :
    (∃ i : Instr, op = i.opcode) ∨ op = 0x0#4 ∨ 0x4#4 ≤ op := by
  have hop : op = 0x1#4 ∨ op = 0x2#4 ∨ op = 0x3#4 ∨ op = 0x0#4 ∨ 0x4#4 ≤ op := by
    revert op
    decide
  rcases hop with h | h | h | h
  · exact .inl ⟨.add, h⟩
  · exact .inl ⟨.query, h⟩
  · exact .inl ⟨.clear, h⟩
  · exact .inr h

/-- A word with RSVD = 0 and a command's opcode is that command's word (30_encoding.md R90). -/
theorem encode_of_fields (hz : v.extractLsb' 4 60 = 0#60) (ho : v.extractLsb' 0 4 = i.opcode) :
    encode i = v := by
  rw [encode, ← hz, ← ho]
  exact BitVec.extractLsb'_append_extractLsb'

/-- The legal words are the encodings (30_encoding.md R94). -/
theorem wordWf_iff : wordWf v = true ↔ ∃ i, encode i = v := by
  constructor
  · intro h
    simp only [wordWf, wordOp, Bool.and_eq_true, Bool.or_eq_true, beq_iff_eq] at h
    obtain ⟨hz, (ho | ho) | ho⟩ := h
    · exact ⟨.add, encode_of_fields hz ho⟩
    · exact ⟨.query, encode_of_fields hz ho⟩
    · exact ⟨.clear, encode_of_fields hz ho⟩
  · rintro ⟨i, rfl⟩
    cases i <;> decide

/-! ### The decoder, clause by clause (30_encoding.md R95) -/

theorem decodeWord_encode (i : Instr) : decodeWord (encode i) = .ok i := by
  cases i <;> decide

theorem decodeWord_command (hz : v.extractLsb' 4 60 = 0#60) (ho : v.extractLsb' 0 4 = i.opcode) :
    decodeWord v = .ok i := by
  rw [← encode_of_fields hz ho, decodeWord_encode]

theorem decodeWord_reservedBits (hz : v.extractLsb' 4 60 ≠ 0#60) : decodeWord v = .error .reservedBits :=
  if_pos hz

theorem decodeOp_reserved {op : BitVec 4} (hr : op = 0x0#4 ∨ 0x4#4 ≤ op) : decodeOp op = none := by
  revert op
  decide

theorem decodeWord_reservedOp (hz : v.extractLsb' 4 60 = 0#60)
    (hr : v.extractLsb' 0 4 = 0x0#4 ∨ 0x4#4 ≤ v.extractLsb' 0 4) : decodeWord v = .error .reservedOp := by
  rw [decodeWord, if_neg (not_not.mpr hz), wordOp, decodeOp_reserved hr]

/-- Decoding inverts encoding: every word is under one clause, and only the commands' clause decodes. -/
theorem decodeWord_eq_ok_iff : decodeWord v = .ok i ↔ encode i = v := by
  constructor
  · intro h
    by_cases hz : v.extractLsb' 4 60 = 0#60
    · obtain ⟨j, ho⟩ | hr := opcode_or_reserved (v.extractLsb' 0 4)
      · rw [decodeWord_command hz ho] at h
        cases h
        exact encode_of_fields hz ho
      · rw [decodeWord_reservedOp hz hr] at h
        cases h
    · rw [decodeWord_reservedBits hz] at h
      cases h
  · rintro rfl
    exact decodeWord_encode i

/-- An illegal word decodes to no command (30_encoding.md R94). -/
theorem decodeWord_of_not_wordWf (hv : wordWf v = false) : ∃ e, decodeWord v = .error e := by
  cases hd : decodeWord v with
  | error e => exact ⟨e, rfl⟩
  | ok i =>
    have hwf : wordWf v = true := wordWf_iff.mpr ⟨i, decodeWord_eq_ok_iff.mp hd⟩
    exact absurd (hv.symm.trans hwf) Bool.false_ne_true

/-! ### Bytes -/

theorem length_bytesOf (w : Word) : (Machine.bytesOf w).length = 8 := rfl

/-- The eight bytes of a word, whatever follows them, read as that word (20_memory.md R61, R62). -/
theorem wordOf_bytesOf_append (w : Word) (rest : List Byte) :
    (Machine.wordOf fun j => (Machine.bytesOf w ++ rest).getD j 0#8) = w := by
  refine Eq.trans (Machine.wordOf_congr _ _ fun j hj => ?_) (Machine.wordOf_byteOf w)
  rw [List.getD_append _ _ _ _ (by rwa [length_bytesOf])]
  simp [Machine.bytesOf, hj]

/-- The decoder takes a word's eight bytes and hands the rest back (20_memory.md R62). -/
theorem decodeBytes_bytesOf {w : Word} (rest : List Byte) (hw : decodeWord w = .ok i) :
    decodeBytes (Machine.bytesOf w ++ rest) = .ok (i, rest) := by
  have hlen : ¬ (Machine.bytesOf w ++ rest).length < 8 := by
    rw [List.length_append, length_bytesOf]
    omega
  rw [decodeBytes, if_neg hlen, wordOf_bytesOf_append, hw]
  exact congrArg (fun l => Except.ok (i, l)) (List.drop_left' (length_bytesOf w))

/-! ### The obligations -/

/-- Settles O3: bytes, words and legality all come down to `decodeWord` inverting `encode`. -/
theorem decodeEncodeAgree : Obligations.DecodeEncodeAgree :=
  ⟨fun i rest _ => decodeBytes_bytesOf rest (decodeWord_encode i), fun _ _ => decodeWord_eq_ok_iff.mp,
    fun _ => wordWf_iff.trans (exists_congr fun _ => decodeWord_eq_ok_iff.symm)⟩

/-- Settles O1: each word by the clause it falls under. -/
theorem commandWordsDecode : Obligations.CommandWordsDecode :=
  ⟨decodeWord_encode .add, decodeWord_encode .query, decodeWord_encode .clear,
    decodeWord_reservedOp (by decide) (by decide), decodeWord_reservedOp (by decide) (by decide),
    decodeWord_reservedOp (by decide) (by decide), decodeWord_reservedBits (by decide),
    decodeWord_reservedBits (by decide), decodeWord_reservedBits (by decide),
    decodeWord_reservedBits (by decide)⟩

/-- Settles O2: the decoder's clauses. -/
theorem decodeFollowsPseudocode : Obligations.DecodeFollowsPseudocode := fun _ =>
  ⟨decodeWord_reservedBits, fun hz => ⟨decodeWord_command (i := .add) hz,
    decodeWord_command (i := .query) hz, decodeWord_command (i := .clear) hz, decodeWord_reservedOp hz⟩⟩

end Sys2Proof
end

section
/-! PROOFS. IllegalWordEndsAtOnce: the step that serves a write to CMD, and what an illegal word leaves. -/

namespace Sys2Proof.Machine

variable {s : State} {h c : Nat}

/-! ### The step that serves a register access -/

/-- A legal access to a register that exists reaches that register (10_state.md R23;
42_register_access.md R170). -/
theorem step_access_reg {r : Reg} {k : AccessKind} {rest : List Input} (hr : s.inReset = false)
    (hp : s.params.wf = true) (hn : nctxWf s.nctx = true) (hwf : r.wf s.nctx = true)
    (hi : s.inputs = .access h ⟨s.regAddr r, 8, k⟩ :: rest) :
    step s = legalAccess h ⟨s.regAddr r, 8, k⟩ { s with inputs := rest } ∧
      regAt s.nctx (Access.offset ⟨s.regAddr r, 8, k⟩ s.params) = r := by
  obtain ⟨off, hoff, hlt, h8, hreg⟩ := regAt_regOffset hn hwf
  simp only [State.regAddr, hoff, Option.getD_some] at hi ⊢
  refine ⟨step_access s h off k rest hr hp hlt h8 hi, ?_⟩
  rw [(Access.legal_at s.params hp off hlt h8 k).2]
  exact hreg

/-- A 64-bit write to the CMD register of a context that exists (42_register_access.md R183). -/
theorem step_writes_cmd {v : Word} {rest : List Input} (hr : s.inReset = false)
    (hp : s.params.wf = true) (hn : nctxWf s.nctx = true) (hc : c < s.nctx)
    (hi : s.writesNext h (.cmd c) v rest) :
    step s = cmdWrite h c v { s with inputs := rest, hostResp := .ok } := by
  obtain ⟨hstep, hreg⟩ := step_access_reg hr hp hn (by simpa [Reg.wf] using hc) hi
  have hname : regAt ({ s with inputs := rest } : State).nctx
      (Access.offset ⟨s.regAddr (.cmd c), 8, .write v⟩ s.params) = .cmd c := hreg
  rw [hstep]
  simp only [legalAccess, hname]
  rfl

/-! ### A command that ends at its issue -/

/-- What a command leaves that is accepted and ends at once (41_commands.md R140; 60_exceptions.md R202). -/
def State.endAtIssue (s : State) (h c : Nat) (op : BitVec 4) (e : ErrCode) : State :=
  (s.accept h c op).finish c e

theorem State.ctx_endAtIssue (op : BitVec 4) (e : ErrCode) (hc : c < s.nctx) :
    (s.endAtIssue h c op e).ctx c = ((s.ctx c).accept op s.nextId (s.knownBy h)).finish e := by
  rw [State.endAtIssue, State.finish, State.ctx_setCtx_same _ _ _ (by simpa using hc),
    State.ctx_accept_same _ _ _ _ hc]

theorem State.endedWith_endAtIssue (op : BitVec 4) {e : ErrCode} (he : e ≠ .none) (hc : c < s.nctx) :
    (s.endAtIssue h c op e).EndedWith c e := by
  rw [State.EndedWith, State.ctx_endAtIssue op e hc, Ctx.finish_error _ _ he, if_neg he]
  exact ⟨rfl, rfl, rfl⟩

/-- OP is recorded, and OVERRUN and RESULT are cleared. -/
theorem State.fields_endAtIssue (op : BitVec 4) {e : ErrCode} (he : e ≠ .none) (hc : c < s.nctx) :
    ((s.endAtIssue h c op e).ctx c).h.op = op ∧ ((s.endAtIssue h c op e).ctx c).overrun = false ∧
      ((s.endAtIssue h c op e).ctx c).member = false ∧
      ((s.endAtIssue h c op e).ctx c).probesDone = 0#8 := by
  rw [State.ctx_endAtIssue op e hc, Ctx.finish_error _ _ he]
  exact ⟨rfl, rfl, rfl, rfl⟩

theorem State.frame_endAtIssue (op : BitVec 4) (e : ErrCode) : s.FrameOf c (s.endAtIssue h c op e) :=
  (s.frame_accept h c op).trans (State.frame_finish _ _ _)

/-- An illegal word ends so with ILLEGAL_OP; CTRL.EN is not asked (30_encoding.md R94). -/
theorem cmdWrite_illegal {v : Word} (hv : wordWf v = false) (hc : c < s.nctx)
    (hb : (s.ctx c).state ≠ .busy) :
    cmdWrite h c v s = .next (s.endAtIssue h c (wordOp v) .illegalOp) := by
  obtain ⟨e, he⟩ := decodeWord_of_not_wordWf hv
  simp only [cmdWrite, he]
  exact State.issue_error s h c (wordOp v) none .next .illegalOp hc hb rfl

/-- Settles O20: the write is an acceptance and an end, and neither touches memory or the ports. -/
theorem illegalWordEndsAtOnce : Obligations.IllegalWordEndsAtOnce := by
  intro s h c v rest hr hp hn hc hb hv hi
  have he : ErrCode.illegalOp ≠ .none := by decide
  obtain ⟨hop, hover, hmember, hdone⟩ :=
    State.fields_endAtIssue (s := { s with inputs := rest, hostResp := .ok }) (h := h) (wordOp v) he hc
  exact ⟨_, (step_writes_cmd hr hp hn hc hi).trans (cmdWrite_illegal hv hc hb),
    State.endedWith_endAtIssue _ he hc, hop, hover, hmember, hdone, rfl, rfl,
    State.byte_congr s _ rfl, State.frame_endAtIssue _ _⟩

end Sys2Proof.Machine
end

section
/-! PROOFS. SeedPerturbation, HashCounts, HashesSufficeForProbes, MaskHasOneBit and OffsetSchedule: what the
functions of the probe datapath compute (40_probe_datapath.md R111 to R119). -/

namespace Sys2Proof

/-! ### The number of hashes -/

/-- One hash is enough for the first 1 + W_H probes (40_probe_datapath.md R111). -/
theorem Params.nh_eq_one (p : Params) {P : Nat} (h : P ≤ 1 + p.wH) : p.nh P = 1 := if_pos h

/-- More probes take the least number of regenerations whose windows reach the last of them. -/
theorem Params.nh_least (p : Params) (h : p.wf = true) (P : Nat) :
    ∃ q, p.nh P = 1 + q ∧ P - 1 - p.wH ≤ q * (p.wH + p.wH) ∧
      ∀ r, P - 1 - p.wH ≤ r * (p.wH + p.wH) → q ≤ r := by
  obtain ⟨q, hq⟩ := Nat.exists_eq_add_of_le (p.one_le_nh P)
  refine ⟨q, hq, (p.nh_le_iff h P q).mp hq.le, fun r hr => ?_⟩
  have hle : p.nh P ≤ 1 + r := (p.nh_le_iff h P r).mpr hr
  omega

/-- The number of windows in a lane decides the number of hashes. -/
theorem Params.nh_eq (p : Params) {W : Nat} (hW : p.wH = W) (P : Nat) :
    p.nh P = if P ≤ 1 + W then 1 else 1 + ceilDiv (P - 1 - W) (W + W) := by
  rw [Params.nh, Params.wL_eq, hW]

theorem Params.wH_eq (p : Params) {l : Nat} (hl : p.lineLog2 = l) : p.wH = 64 / (l + 3) := by
  rw [Params.wH, Params.log, hl]

/-- Settles O38: NH(P) - 1 is the ceiling of the rule, and with W_H known the values of the table are
computed. -/
theorem hashCounts : Obligations.HashCounts := by
  refine ⟨fun p P W hp _ _ hW => ?_, fun p P hl => ?_, fun p hl => ?_, fun p hl => ?_, fun p hl => ?_⟩
  · obtain rfl : p.wH = W := by rw [hW, Nat.add_comm, p.wH_eq rfl]
    exact ⟨p.nh_eq_one, fun _ => p.nh_least hp P⟩
  · rw [p.nh_eq (p.wH_eq hl), ceilDiv]
    split_ifs <;> omega
  all_goals
    rw [funext (p.nh_eq (p.wH_eq hl))]
    decide

namespace Machine

/-! ### Seeds and masks -/

section
variable (p : Params)

/-- The first hash takes SEED itself (40_probe_datapath.md R112). -/
@[simp] theorem seedAt_zero (seed : Word) : seedAt p seed 0 = seed := by
  simp [seedAt]

theorem seedAt_succ (seed : Word) (r : Nat) : seedAt p seed (r + 1) = seedAt p seed r + p.kRegen := by
  simp only [seedAt, Nat.succ_mul, ← Nat.add_assoc]
  rw [BitVec.ofNat_add, BitVec.ofNat_toNat, BitVec.setWidth_eq]

end

/-- Settles O37: the seeds are an arithmetic progression of words. -/
theorem seedPerturbation : Obligations.SeedPerturbation := fun p seed r =>
  ⟨BitVec.toNat_ofNat _ _, seedAt_zero p seed, seedAt_succ p seed r⟩

/-- The mask as a number (40_probe_datapath.md R119). -/
theorem toNat_mask (b : Nat) : (mask b).toNat = 2 ^ (b % 64) := by
  have hb : b % 64 < 64 := Nat.mod_lt _ (by decide)
  rw [mask, BitVec.toNat_shiftLeft, Nat.shiftLeft_eq]
  simpa using Nat.mod_eq_of_lt (Nat.pow_lt_pow_right (a := 2) (by decide) hb)

/-- Settles O42: bit b mod 64 is set, and no other of the word's bits; past the word there is none. -/
theorem maskHasOneBit : Obligations.MaskHasOneBit := by
  intro b j
  by_cases hj : j < 64
  · rw [getLsbD_mask b j hj, decide_eq_true_iff]
  · have hb : b % 64 < 64 := Nat.mod_lt _ (by decide)
    rw [BitVec.getLsbD_of_ge _ _ (Nat.not_lt.mp hj)]
    exact iff_of_false Bool.false_ne_true (by omega)

/-- Settles O39: a probe's lane is one of the NH(P), and NH(P) grows with P up to NHMAX. -/
theorem hashesSufficeForProbes : Obligations.HashesSufficeForProbes := fun p P i f g hp hi hP hfg =>
  ⟨offset_congr p hp f g P i hi hfg, p.nh_bounds hp P hP⟩

/-! ### The windows -/

section
variable (p : Params) (lanes : Nat → Lane)

/-- A window is LOG bits of its word, LOG * k bits up (40_probe_datapath.md R115). -/
theorem win_eq (x : Word) (k : Nat) : win p x k = x.toNat / 2 ^ (p.log * k) % 2 ^ p.log := by
  rw [win, Params.sb_eq]

/-- Division by SB, k times over, is division by SB ^ k. -/
theorem iterate_div (d x k : Nat) : (fun h => h / d)^[k] x = x / d ^ k := by
  induction k with
  | zero => simp
  | succ k ih => rw [Function.iterate_succ_apply', ih, Nat.div_div_eq_div_mul, Nat.pow_succ]

/-- The window form equals the source's iterated division (40_probe_datapath.md R116). -/
theorem win_eq_iterate (x : Word) (k : Nat) : win p x k = ((fun h => h / p.sb)^[k] x.toNat) % p.sb := by
  rw [iterate_div, win, Params.sb_eq, Nat.pow_mul]

/-- Probe 0 takes the first window of low_0. -/
theorem offset_zero : offset p lanes 0 = win p (lanes 0).low 0 := if_pos rfl

/-- The next W_H probes take the windows of high_0. -/
theorem offset_first {k : Nat} (hk : k < p.wH) : offset p lanes (1 + k) = win p (lanes 0).high k := by
  rw [offset, if_neg (by omega), if_pos (by omega), Nat.add_sub_cancel_left]

/-- Probe k of the W_H + W_L probes of regeneration r + 1. -/
theorem offset_regen (hp : p.wf = true) (r : Nat) {k : Nat} (hk : k < 2 * p.wH) :
    offset p lanes (1 + p.wH + 2 * p.wH * r + k) =
      if k < p.wH then win p (lanes (r + 1)).high k else win p (lanes (r + 1)).low (k - p.wH) := by
  have hw := p.wH_range hp
  have hj : 1 + p.wH + 2 * p.wH * r + k - 1 - p.wH = k + (p.wH + p.wL) * r := by
    rw [p.wL_eq, ← Nat.two_mul]
    omega
  have hk : k < p.wH + p.wL := by
    rw [p.wL_eq, ← Nat.two_mul]
    exact hk
  rw [offset, if_neg (by omega), if_neg (by omega)]
  dsimp only
  rw [hj, Nat.add_mul_div_left _ _ (by omega), Nat.add_mul_mod_self_left, Nat.div_eq_of_lt hk,
    Nat.mod_eq_of_lt hk, Nat.zero_add, Nat.add_comm 1 r]

end

/-- Settles O40: the three ranges of probes, each by its windows. -/
theorem offsetSchedule : Obligations.OffsetSchedule := by
  intro p lanes hp
  have hw : 64 / p.log = p.wH := rfl
  simp only [hw, ← win_eq]
  refine ⟨?_, fun k hk => offset_first p lanes hk, fun r k hk => ⟨?_, ?_⟩, fun i => ?_,
    win_eq_iterate p⟩
  · rw [offset_zero, win_eq]
    simp
  · rw [offset_regen p lanes hp r (by omega), if_pos hk]
  · rw [Nat.add_assoc _ p.wH k, offset_regen p lanes hp r (by omega), if_neg (by omega),
      Nat.add_sub_cancel_left]
  · rw [← p.sb_eq]
    exact offset_lt p lanes i

end Machine

end Sys2Proof
end

section
/-! PROOFS. ProbesStayInTheirSlot and RunningCommandUsesTheReferenceList: the entries of the probe list
(40_probe_datapath.md R118 to R124). -/

namespace Sys2Proof.Machine

section
variable {p : Params} {base : Word}

/-- Entry i of the probe list is the word and the bit of probe i (40_probe_datapath.md R124). -/
theorem probeList_getElem? (p : Params) (hash : Word → List Byte → Lane) (seed : Word) (P slots : Nat)
    (base : Word) (entry : List Byte) {i : Nat} (hi : i < P) :
    (probeList p hash seed P slots base entry)[i]? =
      some (wordAddr p base (slotIndex p (hash seed entry).low slots)
          (offset p (fun r => hash (seedAt p seed r) entry) i),
        mask (offset p (fun r => hash (seedAt p seed r) entry) i)) := by
  simp [probeList, hi]

/-- The probe list has P entries. -/
theorem length_probeList (p : Params) (hash : Word → List Byte → Lane) (seed : Word) (P slots : Nat)
    (base : Word) (entry : List Byte) : (probeList p hash seed P slots base entry).length = P := by
  simp [probeList]

/-- A probe's word is 8-byte aligned, as BASE and LINE are (10_state.md R29; 40_probe_datapath.md R120). -/
theorem wordAddr_aligned (hp : p.wf = true) (hb : base.toNat % p.line = 0) (slot b : Nat) :
    wordAddr p base slot b % 8 = 0 := by
  have hline : 8 ∣ p.line := ⟨_, p.line_eq hp⟩
  have hbase : 8 ∣ base.toNat := hline.trans (Nat.dvd_of_mod_eq_zero hb)
  have hslot : 8 ∣ slot * p.line := hline.mul_left _
  unfold wordAddr slotBase
  omega

/-- Settles O41: the probe's word lies in its slot, and the slot in the bit array. -/
theorem probesStayInTheirSlot : Obligations.ProbesStayInTheirSlot := by
  intro p hash seed P slots base entry i a m hp hslots hbase hget
  have hi : i < P := by
    obtain ⟨hlt, -⟩ := List.getElem?_eq_some_iff.mp hget
    rwa [length_probeList] at hlt
  rw [probeList_getElem? p hash seed P slots base entry hi, Option.some.injEq, Prod.mk.injEq] at hget
  obtain ⟨rfl, rfl⟩ := hget
  generalize hb : offset p (fun r => hash (seedAt p seed r) entry) i = b
  have hlt : b < p.sb := hb ▸ offset_lt p _ i
  obtain ⟨hlo, hhi⟩ := wordAddr_range p hp base (slotIndex p (hash seed entry).low slots) b hlt
  have harr := slotBase_range p base _ _ (slotIndex_lt p (hash seed entry).low slots hslots)
  have hsa : slotBase p base (slotIndex p (hash seed entry).low slots) =
      base.toNat + (hash seed entry).low.toNat / 2 ^ p.log % slots * p.line := by
    rw [slotBase, slotIndex, p.sb_eq]
  exact ⟨⟨b, _, rfl, hsa, rfl, toNat_mask b, hlo, hhi⟩, hi, wordAddr_aligned hp hbase _ b,
    (Nat.le_add_right _ _).trans hlo, hhi.trans harr⟩

end

/-! ### A running command's probes -/

section
variable {s : State} {c : Nat}

/-- Hash r of an entry (40_probe_datapath.md R110, R112). -/
def State.entryLane (s : State) (ptr : Word) (len : BitVec 32) (r : Nat) : Lane :=
  s.hash128 (seedAt s.params s.seed r) (s.entry ptr len)

/-- Settles O44: in its probe phase a command has all NH(P) hashes, so its offsets and its slot are the
reference's. -/
theorem runningCommandUsesTheReferenceList : Obligations.RunningCommandUsesTheReferenceList := by
  intro s c i hs hl hp hi
  have hpos := (hs.ctx (State.exists_of_phase (s := s) (c := c) (by simp [hp]))).position
  simp only [Ctx.PositionOk, hp] at hpos
  obtain ⟨-, hnh, hr, -, -, -, hslot⟩ := hpos
  have hlane : ∀ r, r < s.params.nh s.probes.toNat →
      (s.ctx c).lane r = s.entryLane (s.ctx c).entryPtr (s.ctx c).entryLen r := fun r h =>
    hl (.inr hp) r (by rwa [hr, hnh])
  have hoff : s.probeOffset c i = offset s.params (s.entryLane (s.ctx c).entryPtr (s.ctx c).entryLen) i :=
    offset_congr _ hs.params _ _ _ i hi hlane
  have hlane0 := hlane 0 (s.params.one_le_nh _)
  rw [State.entryLane, seedAt_zero] at hlane0
  rw [State.probesOf, probeList_getElem? _ _ _ _ _ _ _ hi, State.probeAddr, State.probeMask, hoff, hslot,
    hlane0]
  rfl

end

end Sys2Proof.Machine
end

section
/-! PROOFS. EveryStepKeepsTheLanes: only a hash step adds a lane, and nothing changes what the lanes a command
has obtained are the hashes of (40_probe_datapath.md R110, R122; 20_memory.md R80, R81). -/

namespace Sys2Proof.Machine

variable {s t : State} {c : Nat} {x : Ctx}

/-- The lanes that context x's command has obtained are the hashes of its entry in state s. -/
def State.HoldsLanes (s : State) (x : Ctx) : Prop :=
  (x.h.phase = .hash ∨ x.h.phase = .probe) → ∀ r, r < x.h.r →
    x.lane r = s.entryLane x.entryPtr x.entryLen r

theorem State.lanesOk_iff : s.LanesOk c ↔ s.HoldsLanes (s.ctx c) := Iff.rfl

/-- The contexts, and all that decides the answer to a hash request, are the same (00_scope.md R9). -/
structure State.SameHashing (s t : State) : Prop where
  params : t.params = s.params
  seed : t.seed = s.seed
  hashes : t.platform.hashes = s.platform.hashes
  entries : t.entries = s.entries
  ctxs : t.ctxs = s.ctxs

/-- The lanes stay the hashes of the entry while its bytes stay. -/
theorem State.HoldsLanes.of_entry (hx : s.HoldsLanes x) (hp : t.params = s.params) (hs : t.seed = s.seed)
    (hh : t.platform.hashes = s.platform.hashes)
    (he : x.h.phase = .hash ∨ x.h.phase = .probe →
      t.entry x.entryPtr x.entryLen = s.entry x.entryPtr x.entryLen) :
    t.HoldsLanes x := by
  intro hph r hr
  rw [hx hph r hr]
  simp only [State.entryLane, State.hash128, hp, hs, hh, he hph]

theorem State.SameHashing.entry (h : s.SameHashing t) (ptr : Word) (len : BitVec 32) :
    t.entry ptr len = s.entry ptr len := by
  simp only [State.entry, State.entryByte, h.entries]

theorem State.SameHashing.holdsLanes (h : s.SameHashing t) (hx : s.HoldsLanes x) : t.HoldsLanes x :=
  hx.of_entry h.params h.seed h.hashes fun _ => h.entry _ _

theorem State.SameHashing.lanesOk (h : s.SameHashing t) (hl : ∀ c, s.LanesOk c) (c : Nat) : t.LanesOk c := by
  rw [State.lanesOk_iff, State.ctx_congr s t c h.params h.ctxs]
  exact h.holdsLanes (hl c)

theorem State.sameHashing_record (s : State) (e : PortEvent) : s.SameHashing (s.record e) :=
  ⟨rfl, rfl, rfl, rfl, rfl⟩

theorem State.sameHashing_amoOr (s : State) (c a : Nat) (m : Word) : s.SameHashing (s.amoOr c a m) :=
  ⟨rfl, rfl, rfl, rfl, rfl⟩

theorem State.sameHashing_memWrite (s : State) (c a : Nat) (v : Word) : s.SameHashing (s.memWrite c a v) :=
  ⟨s.memWrite_params c a v, s.memWrite_seed c a v, congrArg Platform.hashes (s.memWrite_platform c a v),
    s.memWrite_entries c a v, s.memWrite_ctxs c a v⟩

theorem State.sameHashing_hostStored (s : State) (h a : Nat) (v : Word) :
    s.SameHashing (s.hostStored h a v) := by
  constructor <;> simp [State.hostStored]

/-! ### One context -/

/-- A context that runs no ADD and no QUERY has no lanes to account for. -/
theorem State.holdsLanes_of_phase (h1 : x.h.phase ≠ .hash) (h2 : x.h.phase ≠ .probe) : s.HoldsLanes x :=
  fun h => (h.elim h1 h2).elim

theorem State.holdsLanes_finish (s : State) (x : Ctx) (e : ErrCode) : s.HoldsLanes (x.finish e) := by
  obtain ⟨-, -, -, -, -, -, -, hp⟩ := x.finish_fields e
  exact State.holdsLanes_of_phase (by simp [hp]) (by simp [hp])

theorem State.holdsLanes_hwReset (s : State) (x : Ctx) (p : Params) : s.HoldsLanes (x.hwReset p) :=
  State.holdsLanes_of_phase (by simp [(x.hwReset_atReset p).phase]) (by simp [(x.hwReset_atReset p).phase])

/-- The lane a hash step adds is the next hash of the entry (41_commands.md R141). -/
theorem State.HoldsLanes.withLane (hx : s.HoldsLanes x) (hp : x.h.phase = .hash)
    (hlen : x.h.r < x.h.lanes.length) :
    s.HoldsLanes (x.withLane (s.entryLane x.entryPtr x.entryLen x.h.r)) := by
  intro _ r hr
  have hr : r < x.h.r + 1 := hr
  obtain rfl | hne := eq_or_ne r x.h.r
  · simp [Ctx.withLane, Ctx.lane, hlen]
  · have hold := hx (.inl hp) r (by omega)
    simpa [Ctx.withLane, Ctx.lane, hne.symm] using hold

/-- The probe phase begins with the lanes of the hash phase. -/
theorem State.HoldsLanes.toProbe (hx : s.HoldsLanes x) (hp : x.h.phase = .hash) (p : Params) (slots : Nat) :
    s.HoldsLanes (x.toProbe p slots) := fun _ => hx (.inl hp)

/-- Replacing a context leaves the others as they are. -/
theorem State.lanesOk_setCtx (hl : ∀ c, s.LanesOk c) (hx : s.HoldsLanes x) (c2 : Nat) :
    (s.setCtx c x).LanesOk c2 := by
  by_cases hc : c < s.nctx
  · obtain rfl | hne := eq_or_ne c2 c
    · rw [State.lanesOk_iff, State.ctx_setCtx_same _ _ _ hc]
      exact hx
    · rw [State.lanesOk_iff, State.ctx_setCtx_ne _ _ _ _ hne]
      exact hl c2
  · rw [State.setCtx_absent _ _ _ (Nat.not_lt.mp hc)]
    exact hl c2

/-- What a step stores or records before it replaces its context reaches no lane. -/
theorem State.SameHashing.setCtx {u : State} (h : s.SameHashing u) (hl : ∀ c, s.LanesOk c)
    (hx : s.HoldsLanes x) (c2 : Nat) : (u.setCtx c x).LanesOk c2 :=
  State.lanesOk_setCtx (h.lanesOk hl) (h.holdsLanes hx) c2

theorem State.lanesOk_overrun (hl : ∀ c, s.LanesOk c) (c c2 : Nat) : (s.overrun c).LanesOk c2 :=
  State.lanesOk_setCtx (x := { s.ctx c with overrun := true }) hl (hl c) c2

theorem State.lanesOk_finish (hl : ∀ c, s.LanesOk c) (c : Nat) (e : ErrCode) (c2 : Nat) :
    (s.finish c e).LanesOk c2 :=
  State.lanesOk_setCtx hl (s.holdsLanes_finish _ e) c2

/-! ### A context's turn -/

/-- There is room for the lane of the hash step (10_state.md R33; 40_probe_datapath.md R111). -/
theorem State.Inv.lane_room (hs : s.Inv) (hp : (s.ctx c).h.phase = .hash) :
    (s.ctx c).h.r < (s.ctx c).h.lanes.length := by
  have hok := hs.ctx (State.exists_of_phase (s := s) (c := c) (by simp [hp]))
  have hpos := hok.position
  simp only [Ctx.PositionOk, hp] at hpos
  obtain ⟨-, hnh, hr, -⟩ := hpos
  have hmax := (s.params.nh_bounds hs.params s.probes.toNat (Nat.le_of_lt_succ s.probes.isLt)).1
  rw [hok.lanes]
  omega

theorem State.hashStep_lanesOk (hs : s.Inv) (hl : ∀ c, s.LanesOk c) (hp : (s.ctx c).h.phase = .hash)
    (hx : s.hashStep c = .next t) (c2 : Nat) : t.LanesOk c2 := by
  have hlane : s.HoldsLanes ((s.ctx c).withLane (s.nextLane c)) :=
    State.HoldsLanes.withLane (hl c) hp (hs.lane_room hp)
  obtain ⟨-, rfl⟩ | ⟨-, ⟨-, rfl⟩ | ⟨-, -, rfl⟩⟩ := State.hashStep_next hx
  · exact State.lanesOk_finish hl c _ c2
  · exact (s.sameHashing_record _).setCtx hl hlane c2
  · exact (s.sameHashing_record _).setCtx hl (hlane.toProbe hp _ _) c2

theorem addProbe_lanesOk (hl : ∀ c, s.LanesOk c) (hx : addProbe c s = .next t) (c2 : Nat) : t.LanesOk c2 := by
  obtain ⟨-, rfl⟩ | ⟨-, rfl⟩ := addProbe_next hx
  · exact State.lanesOk_finish hl c _ c2
  · refine (s.sameHashing_amoOr c _ _).setCtx hl ?_ c2
    split_ifs
    · exact State.holdsLanes_finish _ _ _
    · exact hl c

theorem queryProbe_lanesOk {lag : Nat} (hl : ∀ c, s.LanesOk c) (hx : queryProbe c lag s = .next t)
    (c2 : Nat) : t.LanesOk c2 := by
  obtain ⟨-, rfl⟩ | ⟨-, y, rfl, rfl⟩ := queryProbe_next hx
  · exact State.lanesOk_finish hl c _ c2
  · refine (s.sameHashing_record _).setCtx hl ?_ c2
    split_ifs
    · exact State.holdsLanes_finish _ _ _
    · exact State.holdsLanes_finish _ _ _
    · exact hl c

theorem clearWord_lanesOk (hl : ∀ c, s.LanesOk c) (hx : clearWord c s = .next t) (c2 : Nat) :
    t.LanesOk c2 := by
  obtain ⟨-, rfl⟩ | ⟨-, rfl⟩ := clearWord_next hx
  · exact State.lanesOk_finish hl c _ c2
  · refine (s.sameHashing_memWrite c _ _).setCtx hl ?_ c2
    split_ifs
    · exact State.holdsLanes_finish _ _ _
    · exact hl c

/-- The next step of a command. -/
theorem exec_advance_lanesOk {lag : Nat} {i : Instr} (hs : s.Inv) (hl : ∀ c, s.LanesOk c)
    (ht : s.turn = .advance c lag) (hx : exec i s = .next t) : ∀ c2, t.LanesOk c2 := by
  cases i with
  | add =>
    simp only [exec, execAdd, ht, addStep] at hx
    split at hx
    case h_1 hp => exact State.hashStep_lanesOk hs hl hp hx
    case h_2 => exact addProbe_lanesOk hl hx
    case h_3 | h_4 => cases hx; exact hl
  | query =>
    simp only [exec, execQuery, ht, queryStep] at hx
    split at hx
    case h_1 hp => exact State.hashStep_lanesOk hs hl hp hx
    case h_2 => exact queryProbe_lanesOk hl hx
    case h_3 | h_4 => cases hx; exact hl
  | clear =>
    simp only [exec, execClear, ht, clearStep] at hx
    split at hx
    case h_1 => exact clearWord_lanesOk hl hx
    case h_2 | h_3 | h_4 => cases hx; exact hl

/-- A context's turn adds lanes by its hash steps alone (41_commands.md R141). -/
theorem sequencerStep_lanesOk {lag : Nat} (hs : s.Inv) (hl : ∀ c, s.LanesOk c)
    (hx : sequencerStep c lag s = .next t) : ∀ c2, t.LanesOk c2 := by
  obtain rfl | ⟨i, -, -, hx⟩ := sequencerStep_next hx
  · exact hl
  · exact exec_advance_lanesOk (s := { s with turn := .advance c lag }) (hs.schedule s.inputs _) hl rfl hx

/-! ### Hardware reset -/

/-- Hardware reset leaves no command running, so no lane to account for (70_reset_and_hazards.md R230). -/
theorem assertReset_lanesOk {l : List (Nat × Nat)} (hx : assertReset l s = .next t) (c2 : Nat) :
    t.LanesOk c2 := by
  obtain ⟨u, rfl, -⟩ := assertReset_next hx
  rw [State.lanesOk_iff, State.ctx_hwReset]
  exact State.holdsLanes_hwReset _ _ _

/-! ### Register accesses -/

/-- What a write to CMD answers (41_commands.md R140). -/
theorem State.issue_next {h : Nat} {op : BitVec 4} {cmd : Option Instr} {start : State → Result}
    (hx : s.issue h c op cmd start = .next t) :
    t = s ∨ t = s.overrun c ∨ (∃ e, t = (s.accept h c op).finish c e) ∨
      start (s.accept h c op) = .next t := by
  unfold State.issue at hx
  split at hx
  · cases hx
    exact .inl rfl
  · split at hx
    · cases hx
      exact .inr (.inl rfl)
    · dsimp only at hx
      split at hx
      · cases hx
        exact .inr (.inr (.inl ⟨_, rfl⟩))
      · exact .inr (.inr (.inr hx))

/-- A command starts with no lane of its own (41_commands.md R140). -/
theorem State.lanesOk_start (hl : ∀ c, s.LanesOk c) (c : Nat) (i : Instr) (c2 : Nat) :
    (s.start c i).LanesOk c2 := by
  cases i with
  | add | query => exact State.lanesOk_setCtx hl (fun _ r hr => absurd hr (Nat.not_lt_zero r)) c2
  | clear =>
    exact State.lanesOk_setCtx hl (State.holdsLanes_of_phase (by simp) (by simp)) c2

/-- An issue keeps the lanes, when what an accepted command does keeps them. -/
theorem State.issue_lanesOk {h : Nat} {op : BitVec 4} {cmd : Option Instr} {start : State → Result}
    (hl : ∀ c, s.LanesOk c)
    (hst : ∀ u, (∀ c, u.LanesOk c) → start u = .next t → ∀ c, t.LanesOk c)
    (hx : s.issue h c op cmd start = .next t) : ∀ c2, t.LanesOk c2 := by
  have hacc : ∀ c2, (s.accept h c op).LanesOk c2 := State.lanesOk_setCtx hl (hl c)
  obtain rfl | rfl | ⟨e, rfl⟩ | hx := State.issue_next hx
  · exact hl
  · exact State.lanesOk_overrun hl c
  · exact State.lanesOk_finish hacc c e
  · exact hst _ hacc hx

theorem cmdWrite_lanesOk {h : Nat} {v : Word} (hl : ∀ c, s.LanesOk c)
    (hx : cmdWrite h c v s = .next t) : ∀ c2, t.LanesOk c2 := by
  unfold cmdWrite at hx
  split at hx
  · rename_i i _
    rw [exec_issue (s := { s with turn := .issue h c }) rfl] at hx
    refine State.issue_lanesOk (s := { s with turn := .issue h c }) hl (fun u hu hst => ?_) hx
    obtain ⟨rfl, -⟩ := State.starts_next hst
    exact State.lanesOk_start hu c i
  · refine State.issue_lanesOk hl (fun u hu hst => ?_) hx
    cases hst
    exact hu

/-- A context that is not BUSY holds no lanes. -/
theorem State.Inv.holdsLanes_of_not_busy (hs : s.Inv) (hb : (s.ctx c).state ≠ .busy) (u : State)
    (hx : x.h.phase = (s.ctx c).h.phase) : u.HoldsLanes x := by
  have hp : (s.ctx c).h.phase = .none := by
    by_contra hne
    exact hb ((hs.ctx (State.exists_of_phase hne)).busy.mpr hne)
  exact State.holdsLanes_of_phase (by simp [hx, hp]) (by simp [hx, hp])

/-- A configuration register changes only while no command runs (42_register_access.md R173, R179). -/
theorem State.Inv.lanesOk_configWrite (hs : s.Inv) (hl : ∀ c, s.LanesOk c) (hp : t.params = s.params)
    (hc : t.ctxs = s.ctxs) (c2 : Nat) : (s.configWrite t).LanesOk c2 := by
  unfold State.configWrite
  split
  · exact hl c2
  · rename_i hen
    refine hs.holdsLanes_of_not_busy (c := c2) (fun hb => ?_) t (by rw [State.ctx_congr s t c2 hp hc])
    have hlt : c2 < s.nctx := by
      by_contra hge
      rw [s.ctx_absent c2 (Nat.not_lt.mp hge)] at hb
      exact Ctx.reset_not_busy _ hb
    exact hen (hs.en_of_busy hlt hb)

/-- An entry register changes only while its context runs nothing (42_register_access.md R181, R182). -/
theorem State.Inv.lanesOk_entryWrite (hs : s.Inv) (hl : ∀ c, s.LanesOk c)
    (hx : x.h.phase = (s.ctx c).h.phase) (c2 : Nat) : (s.entryWrite c x).LanesOk c2 := by
  unfold State.entryWrite
  split
  · exact State.lanesOk_overrun hl c c2
  · rename_i hb
    exact State.lanesOk_setCtx hl
      (hs.holdsLanes_of_not_busy (c := c) (by simpa [Ctx.busy] using hb) s hx) c2

theorem State.Inv.lanesOk_writeReg (hs : s.Inv) (hl : ∀ c, s.LanesOk c) (v : Word) (r : Reg) :
    ∀ c2, (s.writeReg v r).LanesOk c2 := by
  cases r with
  | ctrl =>
    simp only [State.writeReg, State.writeCtrl]
    split_ifs <;> exact hl
  | base | slots | probes | seed => exact hs.lanesOk_configWrite hl rfl rfl
  | entryPtr c | entryLen c => exact hs.lanesOk_entryWrite hl rfl
  | gstatus | id | param | regenK | cmd _ | status _ | result _ | reserved => exact hl

theorem hostAccess_lanesOk {h : Nat} {a : Access} (hs : s.Inv) (hl : ∀ c, s.LanesOk c)
    (hx : hostAccess h a s = .next t) : ∀ c2, t.LanesOk c2 := by
  obtain ⟨ids, v, rfl⟩ | ⟨c, v, hw⟩ | ⟨r, v, rfl⟩ := hostAccess_next hx
  · exact hl
  · exact cmdWrite_lanesOk (s := s.respond .ok) hl hw
  · exact hs.lanesOk_writeReg hl v r

/-! ### What hosts do past the block -/

/-- A byte outside the entry is none of its bytes (40_probe_datapath.md R110). -/
theorem State.entry_store_outside (s : State) (a : Nat) (b : Byte) {ptr : Word} {len : BitVec 32}
    (ha : ¬ (ptr.toNat ≤ a ∧ a < ptr.toNat + len.toNat)) :
    ({ s with entries := Memory.store s.entries a b } : State).entry ptr len = s.entry ptr len := by
  refine List.map_congr_left fun j hj => ?_
  have hj : j < len.toNat := List.mem_range.mp hj
  simp only [State.entryByte, Memory.lookup_store_ne _ a (ptr.toNat + j) b (by omega)]

/-- A running ADD's or QUERY's context is BUSY, and its command is no CLEAR. -/
theorem State.Inv.probing_of_phase (hs : s.Inv)
    (hp : (s.ctx c).h.phase = .hash ∨ (s.ctx c).h.phase = .probe) :
    c < s.nctx ∧ (s.ctx c).state = .busy ∧ (s.ctx c).h.op ≠ Instr.clear.opcode := by
  have hne : (s.ctx c).h.phase ≠ .none := by rcases hp with hp | hp <;> simp [hp]
  have hc := State.exists_of_phase hne
  have hpos := (hs.ctx hc).position
  refine ⟨hc, (hs.ctx hc).busy.mpr hne, probing_not_clear ?_⟩
  rcases hp with hp | hp <;> simp only [Ctx.PositionOk, hp] at hpos <;> exact hpos.1

/-- An entry byte changes only while no running command hashes it (20_memory.md R80). -/
theorem entryStore_lanesOk {a : Nat} {b : Byte} (hs : s.Inv) (hl : ∀ c, s.LanesOk c)
    (hx : entryStore a b s = .next t) (c2 : Nat) : t.LanesOk c2 := by
  unfold entryStore at hx
  split at hx
  · cases hx
  · rename_i hfree
    cases hx
    refine State.HoldsLanes.of_entry (t := { s with entries := Memory.store s.entries a b }) (hl c2)
      rfl rfl rfl fun hp => s.entry_store_outside a b fun hspan => hfree ?_
    obtain ⟨hc, hb, hop⟩ := hs.probing_of_phase hp
    exact (State.any_hashes_iff a).mpr ⟨c2, hc, (Ctx.hashes_iff _ a).mpr ⟨hb, hop, hspan⟩⟩

theorem hostStore_lanesOk {h a : Nat} {v : Word} (hl : ∀ c, s.LanesOk c)
    (hx : hostStore h a v s = .next t) : ∀ c2, t.LanesOk c2 := by
  obtain ⟨-, rfl | rfl⟩ := hostStore_next hx
  · exact hl
  · exact (s.sameHashing_hostStored h a v).lanesOk hl

theorem hostLoad_lanesOk {h a n : Nat} {lags : List Nat} (hl : ∀ c, s.LanesOk c)
    (hx : hostLoad h a n lags s = .next t) : ∀ c2, t.LanesOk c2 := by
  obtain ⟨-, ⟨-, rfl⟩ | ⟨-, rfl⟩⟩ := hostReach_next hx
  · exact hl
  · exact hl

/-! ### The step -/

theorem serve_lanesOk {e : Input} (hs : s.Inv) (hl : ∀ c, s.LanesOk c) (hx : serve e s = .next t) :
    ∀ c2, t.LanesOk c2 := by
  cases e with
  | access h a => exact hostAccess_lanesOk hs hl hx
  | sequencer c lag => exact sequencerStep_lanesOk hs hl hx
  | assertReset l =>
    simp only [serve] at hx
    split at hx
    · cases hx
      exact hl
    · exact assertReset_lanesOk hx
  | hostStore h k v => exact hostStore_lanesOk hl hx
  | hostLoad h a n lags => exact hostLoad_lanesOk hl hx
  | entryStore a b => exact entryStore_lanesOk hs hl hx
  | releaseReset | sync src dst | portFaults busErrs hashErrs =>
    cases hx
    exact hl

/-- Settles O45: input by input. -/
theorem everyStepKeepsTheLanes : Obligations.EveryStepKeepsTheLanes := by
  intro s t hs hl hx
  cases hi : s.inputs with
  | nil =>
    rw [step_nil hi] at hx
    cases hx
    exact hl
  | cons e rest =>
    rw [step_cons hi] at hx
    exact serve_lanesOk (s := { s with inputs := rest }) (hs.withInputs rest) hl hx

end Sys2Proof.Machine
end

section
/-! PROOFS. IssueErrorsInOrder, AddAndQueryStart and ClearStarts: what the issue of a legal command answers, refused
or started (41_commands.md R140; 60_exceptions.md R202). -/

namespace Sys2Proof.Machine

variable {s : State} {h c : Nat} {i : Instr}

/-- A command that may not start ends with DISABLED, else with CONFLICT: acceptance neither changes CTRL.EN nor ends
what conflicts (41_commands.md R140). -/
theorem State.issueError_accept_some (h : Nat) (op : BitVec 4) (hb : (s.ctx c).state ≠ .busy)
    (hno : s.en = false ∨ s.Conflicts c i) :
    (s.accept h c op).issueError c (some i) = some (if s.en then .conflict else .disabled) := by
  cases hen : s.en with
  | false => simp [State.issueError, hen]
  | true =>
    obtain ⟨rfl, c2, hc2, hne, hb2⟩ | ⟨c2, hc2, hb2, hop⟩ := hno.resolve_left (by simp [hen])
    · have hother : (s.accept h c op).otherBusy c = true := (State.otherBusy_iff _ c).mpr
        ⟨c2, by simpa using hc2, hne, by rwa [State.ctx_accept_ne _ _ _ _ _ hne]⟩
      simp [State.issueError, hen, hother]
    · have hne : c2 ≠ c := fun heq => hb (heq ▸ hb2)
      have hclear : (s.accept h c op).clearActive = true := (State.clearActive_iff _).mpr
        ⟨c2, by simpa using hc2, by rwa [State.ctx_accept_ne _ _ _ _ _ hne],
          by rwa [State.ctx_accept_ne _ _ _ _ _ hne]⟩
      simp [State.issueError, hen, hclear]

/-- Settles O21: the command is accepted and ends at once; neither touches memory or the ports. -/
theorem issueErrorsInOrder : Obligations.IssueErrorsInOrder := by
  intro s h c i ht hc hb hno
  have he : (if s.en then ErrCode.conflict else .disabled) ≠ .none := by split <;> simp
  obtain ⟨hop, hover, hmem, hpd⟩ := State.fields_endAtIssue (s := s) (h := h) i.opcode he hc
  refine ⟨_, ?_, State.endedWith_endAtIssue (h := h) i.opcode he hc, hop, hover, hmem, hpd, rfl, rfl,
    fun _ => rfl, State.frame_endAtIssue i.opcode _⟩
  rw [exec_issue ht, State.issue_error _ _ _ _ _ _ _ hc hb (State.issueError_accept_some h _ hb hno)]
  rfl

/-- What the start of an accepted command leaves of its context. -/
theorem State.ctx_start_accept (i : Instr) (hc : c < s.nctx) :
    let x := ((s.accept h c i.opcode).start c i).ctx c
    x.state = .busy ∧ x.errcode = .none ∧ x.overrun = false ∧ x.member = false ∧ x.probesDone = 0#8 ∧
      x.h.op = i.opcode ∧
      (i ≠ .clear → x.h.phase = .hash ∧ x.h.r = 0 ∧ x.h.i = 0 ∧ x.h.nh = s.params.nh s.probes.toNat) ∧
      (i = .clear → x.h.phase = .clear ∧ x.h.k = 0) := by
  have hc' : c < (s.accept h c i.opcode).nctx := by simpa using hc
  cases i <;> simp [State.start, State.startProbe, State.startClear, State.ctx_setCtx_same _ _ _ hc',
    State.ctx_accept_same _ _ _ _ hc, Ctx.accept]

/-- A command starts on a bit array in normal memory, an ADD or QUERY on a zeroed one (log 9, log 17). -/
theorem exec_issue_started (ht : s.turn = .issue h c) (hc : c < s.nctx) (hb : (s.ctx c).state ≠ .busy)
    (hen : s.en = true) (hcf : ¬ s.Conflicts c i) (hpl : s.placement = none)
    (hcl : i ≠ .clear → s.arrayCleared (s.knownAtIssue h c) = true) :
    exec i s = .next ((s.accept h c i.opcode).start c i) := by
  have hcl' : i ≠ .clear →
      (s.accept h c i.opcode).arrayCleared ((s.accept h c i.opcode).ctx c).hb.known = true := fun hi => by
      rw [State.ctx_accept_same _ _ _ _ hc]
      exact (State.arrayCleared_congr s _ rfl rfl rfl rfl _).trans (hcl hi)
  have hpl' : (s.accept h c i.opcode).placement = none :=
    (State.placement_congr s _ rfl rfl rfl rfl).trans hpl
  have hno : (s.accept h c i.opcode).refusal c i = none := by
    simpa [State.refusal, hpl'] using hcl'
  rw [exec_issue_starts ht hc hb hen hcf, State.starts, hno]

/-- An issue makes no request and no transaction, and changes nothing outside its context (41_commands.md R140). -/
theorem exec_issue_frame (ht : s.turn = .issue h c) {t : State} (hx : exec i s = .next t) :
    t.history = s.history ∧ t.writes = s.writes ∧ s.SameBytes t ∧ s.FrameOf c t := by
  have hi := exec_issued ht hx
  exact ⟨by cases hi <;> rfl, hi.writes_eq, s.byte_congr t hi.mem_eq, hi.frame⟩

/-- Settles O22: nothing ends or refuses the command, so it starts its hash phase. -/
theorem addAndQueryStart : Obligations.AddAndQueryStart := by
  intro s h c i hi ht hc hb hen hcf hpl hcl
  have hx := exec_issue_started ht hc hb hen hcf hpl fun _ => hcl
  obtain ⟨hst, herr, hover, hmem, hpd, hop, hhash, -⟩ := State.ctx_start_accept (s := s) (h := h) i hc
  obtain ⟨hph, hr, hi0, hnh⟩ := hhash (by rcases hi with rfl | rfl <;> simp)
  exact ⟨_, hx, hst, herr, hover, hmem, hpd, hop, hph, hr, hi0, hnh, exec_issue_frame ht hx⟩

/-- Settles O23: with no context BUSY nothing conflicts, and the CLEAR starts at word 0. -/
theorem clearStarts : Obligations.ClearStarts := by
  intro s h c ht hc hidle hen hpl
  have hcf : ¬ s.Conflicts c .clear := by
    rintro (⟨-, c2, hc2, -, hb2⟩ | ⟨c2, hc2, hb2, -⟩) <;> exact hidle c2 hc2 hb2
  have hx := exec_issue_started ht hc (hidle c hc) hen hcf hpl fun hne => absurd rfl hne
  obtain ⟨hst, herr, hover, hmem, hpd, hop, -, hclear⟩ := State.ctx_start_accept (s := s) (h := h) .clear hc
  obtain ⟨hph, hk⟩ := hclear rfl
  exact ⟨_, hx, hst, herr, hover, hmem, hpd, hop, hph, hk, exec_issue_frame ht hx⟩

end Sys2Proof.Machine
end

section
/-! PROOFS. CommandsKeepEverythingElse, CommandsStoreOnlyTheirWord and StepRunsTheRunningCommand: the frames of the
commands' steps, and the step that serves a context's turn. -/

namespace Sys2Proof.Machine

variable {s t : State} {c lag : Nat} {i : Instr}

/-- Settles O30: an issue and a turn by what they leave. -/
theorem commandsKeepEverythingElse : Obligations.CommandsKeepEverythingElse := fun _ _ _ hx =>
  ⟨fun _ _ ht => (exec_issued ht hx).frame, fun _ _ ht => (exec_turned ht hx).frame⟩

/-! ### The memory frame -/

theorem State.SameBytes.outside (hs : s.SameBytes t) (a : Nat) : s.SameBytesOutside a t := fun x _ => hs x

theorem State.sameBytes_of_mem (h : t.mem = s.mem) : s.SameBytes t := s.byte_congr t h

/-- A hash step stores nothing (41_commands.md R141). -/
theorem State.mem_hashStep (hx : s.hashStep c = .next t) : t.mem = s.mem := by
  obtain ⟨-, rfl⟩ | ⟨-, ⟨-, rfl⟩ | ⟨-, -, rfl⟩⟩ := State.hashStep_next hx <;> rfl

/-- Nor does a probe step of QUERY (41_commands.md R149). -/
theorem mem_queryProbe (hx : queryProbe c lag s = .next t) : t.mem = s.mem := by
  obtain ⟨-, rfl⟩ | ⟨-, -, -, rfl⟩ := queryProbe_next hx <;> rfl

theorem mem_queryStep (hx : queryStep c lag s = .next t) : t.mem = s.mem := by
  unfold queryStep at hx
  split at hx
  case h_1 => exact State.mem_hashStep hx
  case h_2 => exact mem_queryProbe hx
  case h_3 | h_4 => cases hx; rfl

/-- An ADD stores in its probe phase alone. -/
theorem mem_addStep (hp : (s.ctx c).h.phase ≠ .probe) (hx : addStep c s = .next t) : t.mem = s.mem := by
  unfold addStep at hx
  split at hx
  case h_1 => exact State.mem_hashStep hx
  case h_2 hp' => exact absurd hp' hp
  case h_3 | h_4 => cases hx; rfl

/-- A CLEAR stores in its own phase alone. -/
theorem mem_clearStep (hp : (s.ctx c).h.phase ≠ .clear) (hx : clearStep c s = .next t) : t.mem = s.mem := by
  unfold clearStep at hx
  split at hx
  case h_1 hp' => exact absurd hp' hp
  case h_2 | h_3 | h_4 => cases hx; rfl

/-- A probe step of ADD stores to its probe's word alone (41_commands.md R147). -/
theorem addProbe_sameBytesOutside (hx : addProbe c s = .next t) :
    s.SameBytesOutside (s.probeAddr c (s.ctx c).h.i) t := by
  obtain ⟨-, rfl⟩ | ⟨-, rfl⟩ := addProbe_next hx
  · exact fun _ _ => rfl
  · exact s.byte_writeWord_outside _ _ (s.ctx c).hb.id

/-- A step of CLEAR stores to its next word alone (41_commands.md R151). -/
theorem clearWord_sameBytesOutside (hx : clearWord c s = .next t) :
    s.SameBytesOutside (s.clearAddr (s.ctx c).h.k) t := by
  obtain ⟨-, rfl⟩ | ⟨-, rfl⟩ := clearWord_next hx
  · exact fun _ _ => rfl
  · exact s.byte_writeWord_outside _ _ (s.ctx c).hb.id

theorem mem_execQuery (hx : execQuery s = .next t) : t.mem = s.mem := by
  cases ht : s.turn with
  | issue h c => exact (exec_issued (i := .query) ht hx).mem_eq
  | advance c lag =>
    simp only [execQuery, ht] at hx
    exact mem_queryStep hx

/-- Settles O31: phase by phase; only an ADD's probe and a CLEAR's word reach memory. -/
theorem commandsStoreOnlyTheirWord : Obligations.CommandsStoreOnlyTheirWord := by
  refine fun s t => ⟨fun hx => State.sameBytes_of_mem (mem_execQuery hx),
    fun h c i ht hx => State.sameBytes_of_mem (exec_issued ht hx).mem_eq, fun c lag ht hx => ?_, fun c lag ht hx => ?_⟩
  · simp only [exec, execAdd, ht] at hx
    refine ⟨?_, fun hp => State.sameBytes_of_mem (mem_addStep hp hx)⟩
    by_cases hp : (s.ctx c).h.phase = .probe
    · simp only [addStep, hp] at hx
      exact addProbe_sameBytesOutside hx
    · exact (State.sameBytes_of_mem (mem_addStep hp hx)).outside _
  · simp only [exec, execClear, ht] at hx
    refine ⟨?_, fun hp => State.sameBytes_of_mem (mem_clearStep hp hx)⟩
    by_cases hp : (s.ctx c).h.phase = .clear
    · simp only [clearStep, hp] at hx
      exact clearWord_sameBytesOutside hx
    · exact (State.sameBytes_of_mem (mem_clearStep hp hx)).outside _

/-! ### A context's turn -/

/-- Every command's opcode selects it (30_encoding.md R91). -/
theorem decodeOp_opcode (i : Instr) : decodeOp i.opcode = some i := by
  cases i <;> decide

theorem opcode_injective {j : Instr} (h : i.opcode = j.opcode) : i = j :=
  Option.some.inj ((decodeOp_opcode i).symm.trans ((congrArg decodeOp h).trans (decodeOp_opcode j)))

/-- A context in a phase runs the command its h.op names (60_exceptions.md R212). -/
theorem State.running_eq (hp : (s.ctx c).h.phase ≠ .none) (ho : (s.ctx c).h.op = i.opcode) :
    s.running c = some i := by
  have hdec : decodeOp (s.ctx c).h.op = some i := ho ▸ decodeOp_opcode i
  unfold State.running
  split
  case h_1 hp' => exact absurd hp' hp
  case h_2 | h_3 | h_4 => exact hdec

theorem State.running_none (hp : (s.ctx c).h.phase = .none) : s.running c = none := by
  simp only [State.running, hp]

/-- With reset released the turn of a running context is a step of its command (41_commands.md R142). -/
theorem sequencerStep_running (lag : Nat) (hr : s.inReset = false) (hrun : s.running c = some i) :
    sequencerStep c lag s = exec i { s with turn := .advance c lag } := by
  simp [sequencerStep, hr, hrun]

/-- A context that runs nothing takes no step (60_exceptions.md R212). -/
theorem sequencerStep_idle (lag : Nat) (hrun : s.running c = none) : sequencerStep c lag s = .next s := by
  simp [sequencerStep, hrun]

/-- Settles O33: the input is taken, and with reset released the turn is the running command's. -/
theorem stepRunsTheRunningCommand : Obligations.StepRunsTheRunningCommand := by
  intro s c lag rest hr hi
  rw [step_cons hi]
  exact ⟨fun i hp ho => sequencerStep_running (s := { s with inputs := rest }) lag hr (State.running_eq hp ho),
    fun hp => sequencerStep_idle (s := { s with inputs := rest }) lag (State.running_none hp)⟩

end Sys2Proof.Machine
end

section
/-! PROOFS. HashStepOfAddAndQuery, AddProbeSetsItsBit, QueryProbeTestsItsBit and ClearStepZeroesItsWord: which step a
turn is, and what an answered request or transaction leaves of its context. -/

namespace Sys2Proof.Machine

variable {s t : State} {c lag : Nat} {i : Instr}

/-! ### The step of a turn -/

theorem exec_hash (hi : i ≠ .clear) (ht : s.turn = .advance c lag) (hp : (s.ctx c).h.phase = .hash) :
    exec i s = s.hashStep c := by
  cases i with
  | add => simp only [exec, execAdd, addStep, ht, hp]
  | query => simp only [exec, execQuery, queryStep, ht, hp]
  | clear => exact absurd rfl hi

theorem exec_add (ht : s.turn = .advance c lag) (hp : (s.ctx c).h.phase = .probe) :
    exec .add s = addProbe c s := by
  simp only [exec, execAdd, addStep, ht, hp]

theorem exec_query (ht : s.turn = .advance c lag) (hp : (s.ctx c).h.phase = .probe) :
    exec .query s = queryProbe c lag s := by
  simp only [exec, execQuery, queryStep, ht, hp]

theorem exec_clear (ht : s.turn = .advance c lag) (hp : (s.ctx c).h.phase = .clear) :
    exec .clear s = clearWord c s := by
  simp only [exec, execClear, clearStep, ht, hp]

theorem State.memStep_ok {a : Nat} {u : State} (hr : s.reach a = .ok) : s.memStep c a u = .next u := by
  simp only [State.memStep, hr]

theorem State.memStep_busErr {a : Nat} {u : State} (hr : s.reach a = .busErr) :
    s.memStep c a u = .next (s.finish c .busErr) := by
  simp only [State.memStep, hr]

/-- A command that ends so has the outcome of its code (41_commands.md R146). -/
theorem State.endedWith_finish (hc : c < s.nctx) {e : ErrCode} (he : e ≠ .none) :
    (s.finish c e).EndedWith c e ∧ ((s.finish c e).ctx c).member = false := by
  rw [State.EndedWith, State.finish, State.ctx_setCtx_same _ _ _ hc, Ctx.finish_error _ _ he]
  exact ⟨⟨rfl, rfl, (if_neg he).symm⟩, rfl⟩

/-- A context that was replaced by one that ended DONE. -/
theorem State.endedWith_setCtx {x : Ctx} (hc : c < s.nctx) (hp : x.h.phase = .none) (he : x.errcode = .none)
    (hd : x.state = .done) : (s.setCtx c x).EndedWith c .none := by
  rw [State.EndedWith, State.ctx_setCtx_same _ _ _ hc]
  exact ⟨hp, he, hd⟩

/-! ### The hash step -/

/-- What an answered hash request leaves of its context: the lane is stored, and the last one chooses the slot
(41_commands.md R141). -/
def Ctx.hashed (x : Ctx) (l : Lane) (p : Params) (slots : Nat) : Ctx :=
  if x.h.r + 1 = x.h.nh then (x.withLane l).toProbe p slots else x.withLane l

theorem State.hashStep_error (h : s.hashOK (s.nextSeed c) (s.ctx c).entryPtr (s.ctx c).entryLen = false) :
    s.hashStep c = .next (s.finish c .hashErr) := by
  simp [State.hashStep, h]

theorem State.hashStep_ok (h : s.hashOK (s.nextSeed c) (s.ctx c).entryPtr (s.ctx c).entryLen = true)
    (hsl : s.slots.toNat ≠ 0) :
    s.hashStep c = .next ((s.record (s.hashEvent c)).setCtx c
      ((s.ctx c).hashed (s.nextLane c) s.params s.slots.toNat)) := by
  simp only [State.hashStep, h, Bool.not_true, Bool.false_eq_true, if_false, hsl, Ctx.hashed, Ctx.withLane]
  split <;> rfl

section
variable (x : Ctx) (l : Lane) (p : Params) (slots : Nat)

theorem Ctx.hashed_fields : (x.hashed l p slots).state = x.state ∧ (x.hashed l p slots).h.r = x.h.r + 1 ∧
    (x.hashed l p slots).hb = { x.hb with acted := true } ∧
    (x.hashed l p slots).h.lanes = x.h.lanes.set x.h.r l ∧
    (x.hashed l p slots).entryPtr = x.entryPtr ∧ (x.hashed l p slots).entryLen = x.entryLen := by
  unfold Ctx.hashed
  split <;> exact ⟨rfl, rfl, rfl, rfl, rfl, rfl⟩

theorem Ctx.hashed_lane_same (h : x.h.r < x.h.lanes.length) : (x.hashed l p slots).lane x.h.r = l := by
  obtain ⟨-, -, -, hl, -⟩ := x.hashed_fields l p slots
  simp [Ctx.lane, hl, h]

theorem Ctx.hashed_lane_ne {r : Nat} (h : r ≠ x.h.r) : (x.hashed l p slots).lane r = x.lane r := by
  obtain ⟨-, -, -, hl, -⟩ := x.hashed_fields l p slots
  simp [Ctx.lane, hl, List.getElem?_set_ne h.symm]

theorem Ctx.hashed_more (h : x.h.r + 1 ≠ x.h.nh) : (x.hashed l p slots).h.phase = x.h.phase := by
  rw [Ctx.hashed, if_neg h]
  rfl

theorem Ctx.hashed_last (h : x.h.r + 1 = x.h.nh) : (x.hashed l p slots).h.phase = .probe ∧
    (x.hashed l p slots).h.i = 0 ∧
    (x.hashed l p slots).h.slot = ((x.hashed l p slots).lane 0).low.toNat / 2 ^ p.log % slots := by
  rw [Ctx.hashed, if_pos h, ← p.sb_eq]
  exact ⟨rfl, rfl, rfl⟩

end

/-- Settles O25: the request is answered or not, and an answer's lane has room. -/
theorem hashStepOfAddAndQuery : Obligations.HashStepOfAddAndQuery := by
  intro s c lag i hi hs ht hp
  have hc : c < s.nctx := State.exists_of_phase (by simp [hp])
  have hok := hs.ctx hc
  have hpos := hok.position
  simp only [Ctx.PositionOk, hp] at hpos
  obtain ⟨-, -, -, -, hpd⟩ := hpos
  have hb := hok.state_of_phase hp (by simp)
  rw [exec_hash (by rcases hi with rfl | rfl <;> simp) ht hp]
  cases hh : s.hashOK (seedAt s.params s.seed (s.ctx c).h.r) (s.ctx c).entryPtr (s.ctx c).entryLen with
  | false =>
    obtain ⟨-, hop, hhb, hpd', -⟩ := (s.ctx c).finish_fields .hashErr
    obtain ⟨hend, hmem⟩ := State.endedWith_finish hc (e := .hashErr) (by simp)
    refine ⟨_, State.hashStep_error hh, s.frame_finish _ _, fun _ => rfl, rfl, rfl, fun _ => ?_,
      fun hno => absurd hno (by simp)⟩
    refine ⟨hend, hmem, ?_, ?_, rfl, ?_⟩ <;> rw [State.finish, State.ctx_setCtx_same _ _ _ hc]
    exacts [hop, hpd'.trans hpd, hhb]
  | true =>
    obtain ⟨hslots, -⟩ := hs.config_of_phase (c := c) (by simp [hp])
    obtain ⟨hst, hr, hhb, -, hptr, hlen⟩ :=
      (s.ctx c).hashed_fields (s.nextLane c) s.params s.slots.toNat
    have hlane := (s.ctx c).hashed_lane_same (s.nextLane c) s.params s.slots.toNat (hs.lane_room hp)
    refine ⟨_, State.hashStep_ok hh (by omega),
      (s.frame_record (s.hashEvent c) c).trans (State.frame_setCtx _ _ _ hptr hlen), fun _ => rfl, rfl, rfl,
      fun hno => absurd hno (by simp), fun _ => ?_⟩
    rw [State.ctx_setCtx_same _ _ _ (by exact hc), hlane]
    exact ⟨hst.trans hb, hr, hhb, rfl, rfl, fun r hne => Ctx.hashed_lane_ne _ _ _ _ hne,
      fun hne => (Ctx.hashed_more _ _ _ _ hne).trans hp, fun heq => Ctx.hashed_last _ _ _ _ heq⟩

/-! ### The probe step of ADD -/

/-- What an answered probe of an ADD leaves of its context when PROBES.P is P (41_commands.md R147). -/
def Ctx.addedProbe (x : Ctx) (P : Nat) : Ctx :=
  if x.h.i + 1 = P then ((x.act.probed (x.h.i + 1)).atProbe (x.h.i + 1)).finish .none
  else (x.act.probed (x.h.i + 1)).atProbe (x.h.i + 1)

theorem addProbe_ok (hr : s.reach (s.probeAddr c (s.ctx c).h.i) = .ok) :
    addProbe c s = .next ((s.amoOr c (s.probeAddr c (s.ctx c).h.i) (s.probeMask c (s.ctx c).h.i)).setCtx c
      ((s.ctx c).addedProbe s.probes.toNat)) := State.memStep_ok hr

theorem Ctx.acted_addedProbe (x : Ctx) (P : Nat) : x.Acted (x.addedProbe P) := by
  have hy := (x.acted_act.probed (x.h.i + 1)).atProbe (x.h.i + 1)
  unfold Ctx.addedProbe
  split
  · exact hy.finish
  · exact hy

theorem Ctx.addedProbe_fields (x : Ctx) (P : Nat) : (x.addedProbe P).hb = { x.hb with acted := true } ∧
    (x.addedProbe P).probesDone = BitVec.ofNat 8 (x.h.i + 1) ∧ (x.addedProbe P).h.i = x.h.i + 1 ∧
    (x.addedProbe P).member = x.member ∧ (x.addedProbe P).overrun = x.overrun := by
  unfold Ctx.addedProbe
  split <;> exact ⟨rfl, rfl, rfl, rfl, rfl⟩

theorem Ctx.addedProbe_more (x : Ctx) {P : Nat} (h : x.h.i + 1 ≠ P) :
    (x.addedProbe P).state = x.state ∧ (x.addedProbe P).h.phase = x.h.phase := by
  rw [Ctx.addedProbe, if_neg h]
  exact ⟨rfl, rfl⟩

theorem Ctx.addedProbe_last (x : Ctx) {P : Nat} (h : x.h.i + 1 = P) :
    (x.addedProbe P).h.phase = .none ∧ (x.addedProbe P).errcode = .none ∧ (x.addedProbe P).state = .done := by
  rw [Ctx.addedProbe, if_pos h]
  exact ⟨rfl, rfl, rfl⟩

/-- The probe index after a probe fits PROBES_DONE (10_state.md R36). -/
theorem State.Inv.probesDone_fits (hs : s.Inv) (hp : (s.ctx c).h.phase = .probe) :
    (BitVec.ofNat 8 ((s.ctx c).h.i + 1)).toNat = (s.ctx c).h.i + 1 := by
  have hpos := (hs.ctx (State.exists_of_phase (s := s) (c := c) (by simp [hp]))).position
  simp only [Ctx.PositionOk, hp] at hpos
  obtain ⟨-, -, -, hlt, -⟩ := hpos
  have := s.probes.isLt
  rw [BitVec.toNat_ofNat, Nat.mod_eq_of_lt (by omega)]

/-- Settles O26: the transaction is answered, so the word gains its bit and the context is one probe further. -/
theorem addProbeSetsItsBit : Obligations.AddProbeSetsItsBit := by
  rintro s c lag _ _ _ hs ht hp rfl rfl rfl hmem
  have hc : c < s.nctx := State.exists_of_phase (by simp [hp])
  have hok := hs.ctx hc
  have hb := hok.state_of_phase hp (by simp)
  have hr : s.reach (s.probeAddr c (s.ctx c).h.i) = .ok := by rw [hs.reach_probe hp, hmem, if_pos rfl]
  have hacted := (s.ctx c).acted_addedProbe s.probes.toNat
  obtain ⟨hhb, hpd, hi, hm, hover⟩ := (s.ctx c).addedProbe_fields s.probes.toNat
  refine ⟨_, (exec_add ht hp).trans (addProbe_ok hr), State.word_amoOr_setCtx _ _ _ _ _,
    s.byte_writeWord_outside _ _ (s.ctx c).hb.id, (s.frame_amoOr c _ _).setCtx hacted, rfl, rfl, rfl, ?_⟩
  have hdone := State.endedWith_setCtx
    (s := s.amoOr c (s.probeAddr c (s.ctx c).h.i) (s.probeMask c (s.ctx c).h.i))
    (x := (s.ctx c).addedProbe s.probes.toNat) (c := c) hc
  rw [State.ctx_setCtx_same _ _ _ (by exact hc)]
  refine ⟨hhb, by rw [hpd, hs.probesDone_fits hp], hi, hm.trans (hok.member_busy hb), hover, hacted.op,
    fun hne => ?_, fun heq => ?_⟩
  · obtain ⟨hst, hph⟩ := (s.ctx c).addedProbe_more hne
    exact ⟨hst.trans hb, hph.trans hp⟩
  · obtain ⟨hph, herr, hst⟩ := (s.ctx c).addedProbe_last heq
    exact hdone hph herr hst

/-! ### The probe step of QUERY -/

/-- What an answered probe of a QUERY leaves of its context, its load of the word at a having returned v at position
n: the first clear bit and the last set one end the command (41_commands.md R149). -/
def Ctx.queriedProbe (x : Ctx) (P a n : Nat) (v m : Word) : Ctx :=
  if v &&& m = 0#64 then (((x.saw a n).probed (x.h.i + 1)).withMember false).finish .none
  else if x.h.i + 1 = P then ((((x.saw a n).probed (x.h.i + 1)).atProbe (x.h.i + 1)).finish .none).withMember true
  else ((x.saw a n).probed (x.h.i + 1)).atProbe (x.h.i + 1)

theorem queryProbe_ok (hr : s.reach (s.probeAddr c (s.ctx c).h.i) = .ok) :
    queryProbe c lag s = .next ((s.memRead c (s.probeAddr c (s.ctx c).h.i) lag).setCtx c
      ((s.ctx c).queriedProbe s.probes.toNat (s.probeAddr c (s.ctx c).h.i)
        (s.loadPosition c (s.probeAddr c (s.ctx c).h.i) lag) (s.loadValue c (s.probeAddr c (s.ctx c).h.i) lag)
        (s.probeMask c (s.ctx c).h.i))) := State.memStep_ok hr

section
variable (x : Ctx) (P a n : Nat) {v m : Word}

theorem Ctx.acted_queriedProbe (v m : Word) : x.Acted (x.queriedProbe P a n v m) := by
  have hy := (x.acted_saw a n).probed (x.h.i + 1)
  unfold Ctx.queriedProbe
  split_ifs
  · exact (hy.withMember false).finish
  · exact ((hy.atProbe _).finish).withMember true
  · exact hy.atProbe _

theorem Ctx.queriedProbe_fields (v m : Word) :
    (x.queriedProbe P a n v m).hb = { x.hb with seen := (a, n) :: x.hb.seen, acted := true } ∧
    (x.queriedProbe P a n v m).probesDone = BitVec.ofNat 8 (x.h.i + 1) ∧
    (x.queriedProbe P a n v m).overrun = x.overrun := by
  unfold Ctx.queriedProbe
  split_ifs <;> exact ⟨rfl, rfl, rfl⟩

theorem Ctx.queriedProbe_clear (h : v &&& m = 0#64) : (x.queriedProbe P a n v m).h.phase = .none ∧
    (x.queriedProbe P a n v m).errcode = .none ∧ (x.queriedProbe P a n v m).state = .done ∧
    (x.queriedProbe P a n v m).member = false := by
  rw [Ctx.queriedProbe, if_pos h]
  exact ⟨rfl, rfl, rfl, rfl⟩

theorem Ctx.queriedProbe_last (h : v &&& m ≠ 0#64) (hP : x.h.i + 1 = P) :
    (x.queriedProbe P a n v m).h.phase = .none ∧ (x.queriedProbe P a n v m).errcode = .none ∧
    (x.queriedProbe P a n v m).state = .done ∧ (x.queriedProbe P a n v m).member = true := by
  rw [Ctx.queriedProbe, if_neg h, if_pos hP]
  exact ⟨rfl, rfl, rfl, rfl⟩

theorem Ctx.queriedProbe_more (h : v &&& m ≠ 0#64) (hP : x.h.i + 1 ≠ P) :
    (x.queriedProbe P a n v m).h.phase = x.h.phase ∧ (x.queriedProbe P a n v m).state = x.state ∧
    (x.queriedProbe P a n v m).member = x.member ∧ (x.queriedProbe P a n v m).h.i = x.h.i + 1 := by
  rw [Ctx.queriedProbe, if_neg h, if_neg hP]
  exact ⟨rfl, rfl, rfl, rfl⟩

end

/-- The position a command has read last of a word is its floor there (20_memory.md R72 (b)). -/
theorem Hb.floor_seen {g g' : Hb} {a n : Nat} (h : g'.seen = (a, n) :: g.seen) (a2 : Nat) :
    g'.floor a2 = if a2 = a then n else g.floor a2 := by
  by_cases ha : a2 = a
  · simp [Hb.floor, h, ha]
  · simp [Hb.floor, h, ha, Ne.symm ha]

/-- Settles O27: the load is answered, and its value decides among the three ways the step can leave its context. -/
theorem queryProbeTestsItsBit : Obligations.QueryProbeTestsItsBit := by
  rintro s c lag _ _ _ _ hs ht hp - rfl rfl rfl hmem rfl
  have hc : c < s.nctx := State.exists_of_phase (by simp [hp])
  have hok := hs.ctx hc
  have hb := hok.state_of_phase hp (by simp)
  have hr : s.reach (s.probeAddr c (s.ctx c).h.i) = .ok := by rw [hs.reach_probe hp, hmem, if_pos rfl]
  generalize hq : (s.ctx c).queriedProbe s.probes.toNat (s.probeAddr c (s.ctx c).h.i)
    (s.loadPosition c (s.probeAddr c (s.ctx c).h.i) lag) (s.loadValue c (s.probeAddr c (s.ctx c).h.i) lag)
    (s.probeMask c (s.ctx c).h.i) = y
  have hacted := hq ▸ (s.ctx c).acted_queriedProbe s.probes.toNat _ _ _ _
  obtain ⟨hhb, hpd, hover⟩ := hq ▸ (s.ctx c).queriedProbe_fields s.probes.toNat _ _ _ _
  have hx := (exec_query ht hp).trans (queryProbe_ok (lag := lag) hr)
  rw [hq] at hx
  refine ⟨_, hx, fun _ => rfl, rfl,
    (s.frame_memRead c _ _).setCtx hacted, rfl, ?_⟩
  have hdone := State.endedWith_setCtx (s := s.memRead c (s.probeAddr c (s.ctx c).h.i) lag) (x := y) (c := c) hc
  rw [State.ctx_setCtx_same _ _ _ (by exact hc)]
  have hfloor := Hb.floor_seen (g := (s.ctx c).hb) (g' := y.hb) (by rw [hhb])
  refine ⟨by rw [hpd, hs.probesDone_fits hp], rfl, by rw [hfloor, if_pos rfl],
    fun a2 hne => by rw [hfloor, if_neg hne], by rw [hhb], hover, hacted.op, fun hz => ?_, fun hnz hP => ?_,
    fun hnz hP => ?_⟩
  · obtain ⟨hph, herr, hst, hm⟩ := hq ▸ (s.ctx c).queriedProbe_clear s.probes.toNat _ _ hz
    exact ⟨hdone hph herr hst, hm⟩
  · obtain ⟨hph, herr, hst, hm⟩ := hq ▸ (s.ctx c).queriedProbe_last s.probes.toNat _ _ hnz hP
    exact ⟨hdone hph herr hst, hm⟩
  · obtain ⟨hph, hst, hm, hi⟩ := hq ▸ (s.ctx c).queriedProbe_more s.probes.toNat _ _ hnz hP
    exact ⟨hst.trans hb, hph.trans hp, hi, hm.trans (hok.member_busy hb)⟩

/-! ### The step of CLEAR -/

/-- What an answered word of a CLEAR leaves of its context when the bit array has W words (41_commands.md R151). -/
def Ctx.clearedWord (x : Ctx) (W : Nat) : Ctx :=
  if x.h.k + 1 = W then (x.act.atWord (x.h.k + 1)).finish .none else x.act.atWord (x.h.k + 1)

theorem clearWord_ok (hr : s.reach (s.clearAddr (s.ctx c).h.k) = .ok) :
    clearWord c s = .next ((s.memWrite c (s.clearAddr (s.ctx c).h.k) 0#64).setCtx c
      ((s.ctx c).clearedWord s.arrayWords)) := State.memStep_ok hr

theorem Ctx.acted_clearedWord (x : Ctx) (W : Nat) : x.Acted (x.clearedWord W) := by
  have hy := x.acted_act.atWord (x.h.k + 1)
  unfold Ctx.clearedWord
  split
  · exact hy.finish
  · exact hy

theorem Ctx.clearedWord_fields (x : Ctx) (W : Nat) : (x.clearedWord W).hb = { x.hb with acted := true } ∧
    (x.clearedWord W).h.k = x.h.k + 1 ∧ (x.clearedWord W).probesDone = x.probesDone ∧
    (x.clearedWord W).member = x.member ∧ (x.clearedWord W).overrun = x.overrun := by
  unfold Ctx.clearedWord
  split <;> exact ⟨rfl, rfl, rfl, rfl, rfl⟩

theorem Ctx.clearedWord_more (x : Ctx) {W : Nat} (h : x.h.k + 1 ≠ W) :
    (x.clearedWord W).state = x.state ∧ (x.clearedWord W).h.phase = x.h.phase := by
  rw [Ctx.clearedWord, if_neg h]
  exact ⟨rfl, rfl⟩

theorem Ctx.clearedWord_last (x : Ctx) {W : Nat} (h : x.h.k + 1 = W) :
    (x.clearedWord W).h.phase = .none ∧ (x.clearedWord W).errcode = .none ∧ (x.clearedWord W).state = .done := by
  rw [Ctx.clearedWord, if_pos h]
  exact ⟨rfl, rfl, rfl⟩

/-- A CLEAR's write zeroes its word for every command (log 9). -/
theorem State.wordCleared_memWrite_setCtx (s : State) (c a : Nat) (v : Word) (x : Ctx) (known : List Nat) (a2 : Nat) :
    ((s.memWrite c a v).setCtx c x).wordCleared known a2 = (s.mark a v none).wordCleared known a2 :=
  State.wordCleared_congr rfl known a2

/-- Settles O28: the transaction is answered or not. -/
theorem clearStepZeroesItsWord : Obligations.ClearStepZeroesItsWord := by
  rintro s c lag _ hs ht hp rfl
  have hc : c < s.nctx := State.exists_of_phase (by simp [hp])
  have hok := hs.ctx hc
  have hb := hok.state_of_phase hp (by simp)
  have hpos := hok.position
  simp only [Ctx.PositionOk, hp] at hpos
  obtain ⟨-, -, hpd0⟩ := hpos
  have hreach := hs.reach_clear hp
  rw [show s.base.toNat + 8 * (s.ctx c).h.k = s.clearAddr (s.ctx c).h.k from rfl,
    show s.slots.toNat * s.params.wps = s.arrayWords from rfl]
  refine ⟨fun hmem => ?_, fun hmem => ?_⟩
  · have hr : s.reach (s.clearAddr (s.ctx c).h.k) = .ok := hreach.trans (if_pos hmem)
    have hc' : c < (s.memWrite c (s.clearAddr (s.ctx c).h.k) 0#64).nctx := by rwa [State.nctx_memWrite]
    have hacted := (s.ctx c).acted_clearedWord s.arrayWords
    obtain ⟨hhb, hk, hpd, hm, hover⟩ := (s.ctx c).clearedWord_fields s.arrayWords
    refine ⟨_, (exec_clear ht hp).trans (clearWord_ok hr), s.word_writeWord_same _ _ (s.ctx c).hb.id,
      s.byte_writeWord_outside _ _ (s.ctx c).hb.id, (s.frame_memWrite c _ _).setCtx hacted, rfl, rfl,
      fun known => ?_, fun known a hne => ?_, ?_⟩
    · rw [State.wordCleared_memWrite_setCtx, s.wordCleared_mark_same]
      rfl
    · rw [State.wordCleared_memWrite_setCtx, s.wordCleared_mark_ne _ _ _ _ _ hne]
    have hdone := State.endedWith_setCtx (s := s.memWrite c (s.clearAddr (s.ctx c).h.k) 0#64)
      (x := (s.ctx c).clearedWord s.arrayWords) hc'
    rw [State.ctx_setCtx_same _ _ _ hc']
    refine ⟨hhb, hk, hacted.op, hpd.trans hpd0, hm.trans (hok.member_busy hb), hover, fun hne => ?_, fun heq => ?_⟩
    · obtain ⟨hst, hph⟩ := (s.ctx c).clearedWord_more (W := s.arrayWords) hne
      exact ⟨hst.trans hb, hph.trans hp⟩
    · obtain ⟨hph, herr, hst⟩ := (s.ctx c).clearedWord_last (W := s.arrayWords) heq
      exact hdone hph herr hst
  · have hr : s.reach (s.clearAddr (s.ctx c).h.k) = .busErr := hreach.trans (if_neg (by simpa using hmem))
    obtain ⟨hend, -⟩ := State.endedWith_finish hc (e := .busErr) (by simp)
    refine ⟨_, (exec_clear ht hp).trans (State.memStep_busErr hr), hend, fun _ => rfl, s.frame_finish _ _, rfl, rfl, ?_⟩
    rw [State.finish, State.ctx_setCtx_same _ _ _ hc, Ctx.finish_error _ _ (by simp)]

end Sys2Proof.Machine
end

section
/-! PROOFS. What a load may return, as a predicate on its value: State.Covers with any predicate in place of a mask
(20_memory.md R71, R72). -/

namespace Sys2Proof.Machine

variable {s t : State} {known : List Nat} {a c : Nat} {P : Word → Prop}

/-- Every value 20_memory.md R72 (a) admits for a load of the word at a, when the commands and stores in `known`
happen-before it, meets P. -/
def State.Shows (s : State) (known : List Nat) (a : Nat) (P : Word → Prop) : Prop :=
  ∀ lag, lag ≤ s.maxLag a known 0 → P (s.pastWord a lag)

theorem State.covers_iff_shows {m : Word} : s.Covers known a m ↔ s.Shows known a fun v => v &&& m = m := Iff.rfl

/-- The latest value is admitted. -/
theorem State.Shows.word (h : s.Shows known a P) : P (s.word a) := h 0 (Nat.zero_le _)

/-- Knowing of more admits less. -/
theorem State.Shows.mono (h : s.Shows known a P) {known' : List Nat} (hk : ∀ n, n ∈ known → n ∈ known') :
    s.Shows known' a P := fun lag hl => h lag (hl.trans (s.maxLag_mono a known known' 0 0 hk le_rfl))

/-- What a context's load returns is admitted, whatever it has read and its draw. -/
theorem State.Shows.loadValue (h : s.Shows (s.ctx c).hb.known a P) (lag : Nat) : P (s.loadValue c a lag) :=
  h _ ((Nat.min_le_right _ _).trans (s.maxLag_mono a _ _ 0 _ (fun _ hn => hn) (Nat.zero_le _)))

/-- The memory and the coherence order decide what is admitted. -/
theorem State.Shows.congr (h : s.Shows known a P) (hw : t.word a = s.word a) (ho : t.writes = s.writes) :
    t.Shows known a P := by
  have hww : t.wordWrites a = s.wordWrites a := by rw [State.wordWrites, ho, State.wordWrites]
  intro lag hl
  rw [State.pastWord_congr hw hww]
  refine h lag ?_
  rwa [State.maxLag, hww] at hl

/-- After a write that the load knows of only its value is admitted. -/
theorem State.shows_writeWord (a : Nat) {v : Word} {id : Nat} (hid : id ∈ known) (hv : P v) :
    (s.writeWord a v id).Shows known a P := by
  intro lag hl
  rw [s.maxLag_writeWord_known a v id known 0 hid, Nat.le_zero] at hl
  subst hl
  simpa [State.pastWord] using hv

/-- A write of a value that meets P, or apart from the word, keeps that every admitted value does. -/
theorem State.Shows.writeWord (h : s.Shows known a P) {a' : Nat} {v : Word} (id : Nat)
    (ha : (a' = a ∧ P v) ∨ a + 8 ≤ a' ∨ a' + 8 ≤ a) : (s.writeWord a' v id).Shows known a P := by
  intro lag hl
  obtain ⟨rfl, hv⟩ | ha := ha
  · have hmax := s.maxLag_writeWord_same a' v id known
    have hlen := s.maxLag_le a' known 0
    cases lag with
    | zero => simpa [State.pastWord] using hv
    | succ n =>
      rw [s.pastWord_writeWord_same a' v id n (by omega)]
      exact h n (by omega)
  · rw [s.pastWord_writeWord_ne a' a v id lag ha]
    rw [s.maxLag_writeWord_ne a' a v id known 0 (by omega)] at hl
    exact h lag hl

/-- What bytes outside a word keep, an apart word keeps. -/
theorem State.SameBytesOutside.word {a' : Nat} (h : s.SameBytesOutside a t) (ha : a' + 8 ≤ a ∨ a + 8 ≤ a') :
    t.word a' = s.word a' := wordOf_congr _ _ fun j hj => h _ (by omega)

theorem State.SameBytes.word (h : s.SameBytes t) (a : Nat) : t.word a = s.word a :=
  wordOf_congr _ _ fun _ _ => h _

/-- An aligned word of the bit array is one of its words (20_memory.md R60). -/
theorem State.Inv.exists_clearAddr (hs : s.Inv) (ha : a % 8 = 0) (hlo : s.base.toNat ≤ a)
    (hhi : a + 8 ≤ s.base.toNat + s.slots.toNat * s.params.line) :
    ∃ k, k < s.slots.toNat * s.params.wps ∧ s.clearAddr k = a := by
  have hline := s.params.line_eq hs.params
  have hbytes : s.slots.toNat * s.params.line = 8 * (s.slots.toNat * s.params.wps) := by
    rw [hline, Nat.mul_left_comm]
  have hbase : s.base.toNat % 8 = 0 :=
    Nat.mod_eq_zero_of_dvd ((hline ▸ Nat.dvd_mul_right 8 _).trans (Nat.dvd_of_mod_eq_zero hs.base))
  refine ⟨(a - s.base.toNat) / 8, ?_, ?_⟩
  · omega
  · rw [State.clearAddr]
    omega

end Sys2Proof.Machine
end

section
/-! PROOFS. ClearRunsToDone, and the hash phase of ADD and QUERY: runs in which one context takes turns, its command's
progress counted by them (41_commands.md R153). -/

namespace Sys2Proof.Machine

variable {s t u : State} {c lag : Nat} {i : Instr}

/-! ### What the turns of a context leave as it was -/

/-- What the operands of context c are read from is the same in t as in s, and so is the platform. -/
structure State.SameSetup (s : State) (c : Nat) (t : State) : Prop where
  params : t.params = s.params
  platform : t.platform = s.platform
  base : t.base = s.base
  slots : t.slots = s.slots
  probes : t.probes = s.probes
  seed : t.seed = s.seed
  entries : t.entries = s.entries
  entryPtr : (t.ctx c).entryPtr = (s.ctx c).entryPtr
  entryLen : (t.ctx c).entryLen = (s.ctx c).entryLen

theorem State.SameSetup.refl (s : State) (c : Nat) : s.SameSetup c s := ⟨rfl, rfl, rfl, rfl, rfl, rfl, rfl, rfl, rfl⟩

/-- A step of context c keeps them. -/
theorem State.SameSetup.step (h : s.SameSetup c t) (hf : t.FrameOf c u) : s.SameSetup c u where
  params := hf.params.trans h.params
  platform := hf.platform.trans h.platform
  base := hf.base.trans h.base
  slots := hf.slots.trans h.slots
  probes := hf.probes.trans h.probes
  seed := hf.seed.trans h.seed
  entries := hf.entries.trans h.entries
  entryPtr := hf.entryPtr.trans h.entryPtr
  entryLen := hf.entryLen.trans h.entryLen

/-- The state that exec steps when context c's turn is served and these inputs are left. -/
def State.onTurn (s : State) (rest : List Input) (c lag : Nat) : State :=
  { s with inputs := rest, turn := .advance c lag }

theorem State.Inv.onTurn (hs : s.Inv) (rest : List Input) (c lag : Nat) : (s.onTurn rest c lag).Inv :=
  hs.schedule rest (.advance c lag)

theorem State.SameSetup.withInputs (h : s.SameSetup c t) (rest : List Input) :
    s.SameSetup c { t with inputs := rest } :=
  ⟨h.params, h.platform, h.base, h.slots, h.probes, h.seed, h.entries, h.entryPtr, h.entryLen⟩

/-- So does a step that serves its turn. -/
theorem State.SameSetup.step_turn (h : s.SameSetup c t) {rest : List Input}
    (hf : (t.onTurn rest c lag).FrameOf c u) : s.SameSetup c u :=
  State.SameSetup.step (t := t.onTurn rest c lag)
    ⟨h.params, h.platform, h.base, h.slots, h.probes, h.seed, h.entries, h.entryPtr, h.entryLen⟩ hf

section
variable (h : s.SameSetup c t)
include h

theorem State.SameSetup.memOK (a : Nat) : t.memOK a = s.memOK a := by
  rw [State.memOK, State.memOK, h.platform]

theorem State.SameSetup.hashOK (seed ptr : Word) (len : BitVec 32) : t.hashOK seed ptr len = s.hashOK seed ptr len := by
  rw [State.hashOK, State.hashOK, h.platform]

theorem State.SameSetup.clearAddr (k : Nat) : t.clearAddr k = s.clearAddr k := by
  rw [State.clearAddr, State.clearAddr, h.base]

theorem State.SameSetup.inArray (a : Nat) : t.inArray a = s.inArray a := by
  rw [State.inArray, State.inArray, State.arrayBytes, State.arrayBytes, h.base, h.slots, h.params]

theorem State.SameSetup.hash128 : t.hash128 = s.hash128 := by
  funext seed data
  rw [State.hash128, State.hash128, h.platform]

/-- The probe list of the context's entry is the same. -/
theorem State.SameSetup.probesOf : t.probesOf (t.ctx c).entryPtr (t.ctx c).entryLen =
    s.probesOf (s.ctx c).entryPtr (s.ctx c).entryLen := by
  have hentry : t.entry (s.ctx c).entryPtr (s.ctx c).entryLen = s.entry (s.ctx c).entryPtr (s.ctx c).entryLen := by
    simp only [State.entry, State.entryByte, h.entries]
  rw [State.probesOf, State.probesOf, h.entryPtr, h.entryLen, h.params, h.hash128, h.seed, h.probes, h.slots, h.base,
    hentry]

end

/-! ### Turn after turn -/

/-- While reset is asserted no context runs (70_reset_and_hazards.md R230). -/
theorem State.Inv.released (hs : s.Inv) (hp : (s.ctx c).h.phase ≠ .none) : s.inReset = false := by
  rw [← Bool.not_eq_true]
  exact fun hr => hp ((hs.reset hr).ctx c).phase

/-- A step that serves the turn of a context with a command in a phase is that command's. -/
theorem step_turn {rest : List Input} (hs : s.Inv) (hp : (s.ctx c).h.phase ≠ .none)
    (ho : (s.ctx c).h.op = i.opcode) (hi : s.inputs = .sequencer c lag :: rest) :
    step s = exec i (s.onTurn rest c lag) :=
  (stepRunsTheRunningCommand s c lag rest (hs.released hp) hi).1 i hp ho

/-- What each turn carries one further, n turns carry n further. -/
theorem run_turns {N : Nat} {P : Nat → State → Prop} {lags : List Nat} {rest : List Input}
    (hstep : ∀ n u lag rest, n < N → lag ∈ lags → P n u → u.inputs = .sequencer c lag :: rest →
      ∃ t, step u = .next t ∧ t.inputs = rest ∧ P (n + 1) t)
    (h0 : P 0 s) (hi : s.inputs = lags.map (Input.sequencer c) ++ rest)
    (hlen : N ≤ lags.length) {n : Nat} (hn : n ≤ N) :
    ∃ u : State, core.run n s = .next u ∧ u.inputs = (lags.drop n).map (Input.sequencer c) ++ rest ∧ P n u := by
  induction n with
  | zero => exact ⟨s, rfl, hi, h0⟩
  | succ n ih =>
    obtain ⟨u, hu, hui, hP⟩ := ih (by omega)
    rw [List.drop_eq_getElem_cons (by omega), List.map_cons, List.cons_append] at hui
    obtain ⟨t, ht, hti, hPt⟩ := hstep n u _ _ hn (List.getElem_mem _) hP hui
    exact ⟨t, run_add n 1 s u t hu ((run_succ 0 u t).mpr ⟨t, ht, rfl⟩), hti, hPt⟩

/-! ### CLEAR -/

/-- n words of a CLEAR that was accepted in context c at state s are stored. -/
structure State.ClearedUpTo (s : State) (c n : Nat) (u : State) : Prop where
  inv : u.Inv
  params : s.params.wf = true
  setup : s.SameSetup c u
  running : n < s.arrayWords → (u.ctx c).h.phase = .clear ∧ (u.ctx c).h.k = n
  ended : n = s.arrayWords → u.EndedWith c .none
  words : ∀ k, k < n → u.word (s.clearAddr k) = 0#64
  outside : ∀ x, s.inArray x = false → u.byte x = s.byte x

/-- A context in the CLEAR's phase runs a CLEAR at a word of the bit array. -/
theorem State.Inv.clear_position (hs : s.Inv) (hp : (s.ctx c).h.phase = .clear) :
    (s.ctx c).h.op = Instr.clear.opcode ∧ (s.ctx c).h.k < s.arrayWords := by
  have hpos := (hs.ctx (State.exists_of_phase (s := s) (c := c) (by simp [hp]))).position
  simp only [Ctx.PositionOk, hp] at hpos
  exact ⟨hpos.1, hpos.2.1⟩

/-- A context in a phase is BUSY (10_state.md R33). -/
theorem State.Inv.busy_of_phase (hs : s.Inv) (hp : (s.ctx c).h.phase ≠ .none) : (s.ctx c).state = .busy :=
  (hs.ctx (State.exists_of_phase hp)).busy.mpr hp

/-- A turn of the CLEAR stores one word more. -/
theorem State.ClearedUpTo.turn {n : Nat} {rest : List Input} (h : s.ClearedUpTo c n u) (hn : n < s.arrayWords)
    (hmem : s.memOK (s.clearAddr n) = true) (hi : u.inputs = .sequencer c lag :: rest) :
    ∃ t, step u = .next t ∧ t.inputs = rest ∧ s.ClearedUpTo c (n + 1) t := by
  obtain ⟨hp, hk⟩ := h.running hn
  have hW : u.arrayWords = s.arrayWords := by
    rw [State.arrayWords, h.setup.slots, h.setup.params, State.arrayWords]
  have hst := step_turn (i := .clear) h.inv (by simp [hp]) (h.inv.clear_position hp).1 hi
  have haddr : (u.onTurn rest c lag).base.toNat + 8 * n = s.clearAddr n := h.setup.clearAddr n
  obtain ⟨hok, -⟩ := clearStepZeroesItsWord _ c lag n (h.inv.onTurn rest c lag) rfl hp hk
  obtain ⟨t, hx, hword, hout, hframe, -, -, -, -, -, hk', -, -, -, -, hmore, hlast⟩ :=
    hok ((h.setup.memOK _).trans (haddr ▸ hmem))
  rw [haddr] at hword hout
  refine ⟨t, hst.trans hx, hframe.inputs, everyStepKeepsTheInvariant u t h.inv (hst.trans hx), h.params,
    h.setup.step_turn hframe, fun hlt => ⟨(hmore fun heq => absurd (heq.trans hW) (by omega)).2, hk'⟩,
    fun heq => hlast (heq.trans hW.symm), fun k hk => ?_, fun x hx => ?_⟩
  · obtain rfl | hlt : k = n ∨ k < n := by omega
    · exact hword
    · have hapart : t.word (s.clearAddr k) = u.word (s.clearAddr k) :=
        hout.word (by simp only [State.clearAddr]; omega)
      rw [hapart, h.words k hlt]
  · have hx' := hx
    rw [← Bool.not_eq_true, State.inArray_iff, State.arrayBytes_eq h.params] at hx'
    rw [hout x (by simp only [State.clearAddr]; omega)]
    exact h.outside x hx

/-- Settles O54: turn after turn, one word each. -/
theorem clearRunsToDone : Obligations.ClearRunsToDone := by
  intro s c lags rest hs hp hk hlen hi hmem
  have h0 : s.ClearedUpTo c 0 s := ⟨hs, hs.params, .refl s c, fun _ => ⟨hp, hk⟩,
    fun h => absurd (hs.clear_position hp).2 (by omega), fun _ hk => absurd hk (Nat.not_lt_zero _), fun _ _ => rfl⟩
  have hrun := fun n (hn : n ≤ s.arrayWords) => run_turns (P := s.ClearedUpTo c)
    (fun n u lag rest hn _ hP hi => hP.turn hn (hmem n hn) hi) h0 hi hlen.ge hn
  refine ⟨fun n hn => ?_, ?_⟩
  · obtain ⟨u, hu, -, hP⟩ := hrun n (Nat.le_of_lt hn)
    exact ⟨u, hu, hP.inv.busy_of_phase (by simp [(hP.running hn).1])⟩
  · obtain ⟨t, ht, hti, hP⟩ := hrun _ le_rfl
    rw [List.drop_eq_nil_of_le (i := s.arrayWords) hlen.le] at hti
    exact ⟨t, ht, hti, hP.ended rfl, hP.words, hP.outside⟩

/-! ### The lanes of one context -/

/-- What a step stores or records before it replaces its context reaches no lane of that context. -/
theorem State.SameHashing.lanesOk_setCtx_self (h : s.SameHashing u) (hc : c < u.nctx) {x : Ctx} (hx : s.HoldsLanes x) :
    (u.setCtx c x).LanesOk c := by
  rw [State.lanesOk_iff, State.ctx_setCtx_same _ _ _ hc]
  exact h.holdsLanes hx

/-- A turn of an ADD or QUERY keeps its own lanes, whatever those of the other contexts (40_probe_datapath.md R110). -/
theorem exec_advance_lanesOk_self (hs : s.Inv) (hl : s.LanesOk c) (hi : i ≠ .clear) (ht : s.turn = .advance c lag)
    (hp : (s.ctx c).h.phase = .hash ∨ (s.ctx c).h.phase = .probe) (hx : exec i s = .next t) : t.LanesOk c := by
  obtain ⟨hc, -, -⟩ := hs.probing_of_phase hp
  have hself := fun u (h : s.SameHashing u) (hc : c < u.nctx) {x} (hx : s.HoldsLanes x) => h.lanesOk_setCtx_self hc hx
  have hfin : ∀ e, (s.finish c e).LanesOk c := fun e => hself s ⟨rfl, rfl, rfl, rfl, rfl⟩ hc (s.holdsLanes_finish _ e)
  obtain hp | hp := hp
  · have hlane : s.HoldsLanes ((s.ctx c).withLane (s.nextLane c)) :=
      State.HoldsLanes.withLane hl hp (hs.lane_room hp)
    rw [exec_hash hi ht hp] at hx
    obtain ⟨-, rfl⟩ | ⟨-, ⟨-, rfl⟩ | ⟨-, -, rfl⟩⟩ := State.hashStep_next hx
    · exact hfin _
    · exact hself _ (s.sameHashing_record _) hc hlane
    · exact hself _ (s.sameHashing_record _) hc (hlane.toProbe hp _ _)
  · cases i with
    | clear => exact absurd rfl hi
    | add =>
      rw [exec_add ht hp] at hx
      obtain ⟨-, rfl⟩ | ⟨-, rfl⟩ := addProbe_next hx
      · exact hfin _
      · refine hself _ (s.sameHashing_amoOr c _ _) hc ?_
        split_ifs
        · exact State.holdsLanes_finish _ _ _
        · exact hl
    | query =>
      rw [exec_query ht hp] at hx
      obtain ⟨-, rfl⟩ | ⟨-, y, rfl, rfl⟩ := queryProbe_next hx
      · exact hfin _
      · refine hself _ (s.sameHashing_record _) hc ?_
        split_ifs
        · exact State.holdsLanes_finish _ _ _
        · exact State.holdsLanes_finish _ _ _
        · exact hl

/-- What a turn leaves of its context: the context itself, or its command ended with an error, or one event on. -/
theorem State.Turned.self (h : s.Turned c t) : t.ctx c = s.ctx c ∨
    (∃ e, e ≠ .none ∧ t.ctx c = (s.ctx c).finish e) ∨ (s.ctx c).Acted (t.ctx c) := by
  have hset : ∀ (u : State) (x : Ctx), u.nctx = s.nctx → (s.ctx c).h.phase ≠ .none → (u.setCtx c x).ctx c = x :=
    fun u x hu hp => u.ctx_setCtx_same c x (hu ▸ State.exists_of_phase hp)
  cases h with
  | idle => exact .inl rfl
  | failed hp e he => exact .inr (.inl ⟨e, he, hset s _ rfl hp⟩)
  | answered hp e x hx => exact .inr (.inr (by rwa [hset _ _ (by simp) hp]))
  | ored hp x hx => exact .inr (.inr (by rwa [hset _ _ (by simp) (by simp [hp])]))
  | zeroed hp x hx => exact .inr (.inr (by rwa [hset _ _ (by simp) (by simp [hp])]))

/-- A turn keeps its command's number and opcode. -/
theorem State.Turned.command (h : s.Turned c t) : (t.ctx c).hb.id = (s.ctx c).hb.id ∧
    (t.ctx c).hb.known = (s.ctx c).hb.known ∧ (t.ctx c).h.op = (s.ctx c).h.op := by
  obtain heq | ⟨e, -, heq⟩ | hx := h.self
  · simp [heq]
  · obtain ⟨-, hop, hhb, -⟩ := (s.ctx c).finish_fields e
    rw [heq, hop, hhb]
    exact ⟨rfl, rfl, rfl⟩
  · exact ⟨hx.id, hx.known, hx.op⟩

/-! ### The hash phase -/

/-- n hashes of a command that was accepted in context c at state s have been answered. -/
structure State.HashedUpTo (s : State) (c : Nat) (i : Instr) (n : Nat) (u : State) : Prop where
  inv : u.Inv
  setup : s.SameSetup c u
  op : (u.ctx c).h.op = i.opcode
  lanes : u.LanesOk c
  hashing : n < s.params.nh s.probes.toNat → (u.ctx c).h.phase = .hash ∧ (u.ctx c).h.r = n
  probing : n = s.params.nh s.probes.toNat → (u.ctx c).h.phase = .probe ∧ (u.ctx c).h.i = 0
  bytes : s.SameBytes u
  writes : u.writes = s.writes
  known : (u.ctx c).hb.known = (s.ctx c).hb.known

/-- A turn of the hash phase gets one lane more (41_commands.md R141). -/
theorem State.HashedUpTo.turn {n : Nat} {rest : List Input} (h : s.HashedUpTo c i n u)
    (hi : i = .add ∨ i = .query) (hn : n < s.params.nh s.probes.toNat)
    (hhash : s.hashOK (seedAt s.params s.seed n) (s.ctx c).entryPtr (s.ctx c).entryLen = true)
    (hin : u.inputs = .sequencer c lag :: rest) :
    ∃ t, step u = .next t ∧ t.inputs = rest ∧ s.HashedUpTo c i (n + 1) t := by
  obtain ⟨hp, hr⟩ := h.hashing hn
  have hne : (u.ctx c).h.phase ≠ .none := by simp [hp]
  have hst := step_turn h.inv hne h.op hin
  have hpos := (h.inv.ctx (State.exists_of_phase hne)).position
  simp only [Ctx.PositionOk, hp] at hpos
  obtain ⟨-, hnh, -⟩ := hpos
  rw [h.setup.params, h.setup.probes] at hnh
  have hu := h.inv.onTurn rest c lag
  have hans : u.hashOK (seedAt u.params u.seed (u.ctx c).h.r) (u.ctx c).entryPtr (u.ctx c).entryLen = true := by
    rw [h.setup.hashOK, h.setup.params, h.setup.seed, h.setup.entryPtr, h.setup.entryLen, hr]
    exact hhash
  obtain ⟨t, hx, hframe, hbytes, hwrites, -, -, hok⟩ := hashStepOfAddAndQuery _ c lag i hi hu rfl hp
  obtain ⟨-, hr', hhb, -, -, -, hmore, hlast⟩ := hok hans
  have hrn : (u.ctx c).h.r + 1 = (u.ctx c).h.nh ↔ n + 1 = s.params.nh s.probes.toNat := by rw [hr, hnh]
  exact ⟨t, hst.trans hx, hframe.inputs, everyStepKeepsTheInvariant u t h.inv (hst.trans hx), h.setup.step_turn hframe,
    (exec_turned rfl hx).command.2.2.trans h.op,
    exec_advance_lanesOk_self hu h.lanes (by rcases hi with rfl | rfl <;> simp) rfl (.inl hp) hx,
    fun hlt => ⟨hmore fun heq => absurd (hrn.mp heq) (by omega), hr'.trans (congrArg (· + 1) hr)⟩,
    fun heq => ⟨(hlast (hrn.mpr heq)).1, (hlast (hrn.mpr heq)).2.1⟩, fun x => (hbytes x).trans (h.bytes x),
    hwrites.trans h.writes, (congrArg Hb.known hhb).trans h.known⟩

/-- A command just accepted runs through its NH(P) hashes, BUSY after each (41_commands.md R141, R153). -/
theorem run_hashes {lags : List Nat} {rest : List Input} (hi : i = .add ∨ i = .query) (hs : s.Inv)
    (hp : (s.ctx c).h.phase = .hash) (hr : (s.ctx c).h.r = 0) (ho : (s.ctx c).h.op = i.opcode)
    (hlen : s.params.nh s.probes.toNat ≤ lags.length)
    (hin : s.inputs = lags.map (Input.sequencer c) ++ rest)
    (hhash : ∀ r, r < s.params.nh s.probes.toNat →
      s.hashOK (seedAt s.params s.seed r) (s.ctx c).entryPtr (s.ctx c).entryLen = true)
    {n : Nat} (hn : n ≤ s.params.nh s.probes.toNat) :
    ∃ u : State, core.run n s = .next u ∧ u.inputs = (lags.drop n).map (Input.sequencer c) ++ rest ∧
      s.HashedUpTo c i n u ∧ (u.ctx c).state = .busy := by
  have h0 : s.HashedUpTo c i 0 s := ⟨hs, .refl s c, ho, fun _ r hlt => absurd hlt (by omega), fun _ => ⟨hp, hr⟩,
    fun h => absurd (s.params.one_le_nh s.probes.toNat) (by omega), fun _ => rfl, rfl, rfl⟩
  obtain ⟨u, hu, hui, hP⟩ := run_turns (P := s.HashedUpTo c i)
    (fun n u lag rest hn _ hP hin => hP.turn hi hn (hhash n hn) hin) h0 hin hlen hn
  refine ⟨u, hu, hui, hP, hP.inv.busy_of_phase ?_⟩
  obtain hlt | heq := Nat.lt_or_eq_of_le hn
  · simp [(hP.hashing hlt).1]
  · simp [(hP.probing heq).1]

end Sys2Proof.Machine
end

section
/-! PROOFS. AddRunsToDone, QueryRunsToDone and QueryOfAClearedArray: the probe phase, and the runs put together
(41_commands.md R147 to R150, R153). -/

namespace Sys2Proof.Machine

variable {s t u : State} {c lag : Nat} {i : Instr}

/-! ### The probe phase -/

/-- The reference probe list has words of the bit array (40_probe_datapath.md R120). -/
theorem State.Inv.probesOf_inside (hs : s.Inv) (hsl : 1 ≤ s.slots.toNat) {ptr : Word} {len : BitVec 32} {a : Nat}
    {m : Word} (h : (a, m) ∈ s.probesOf ptr len) :
    a % 8 = 0 ∧ s.base.toNat ≤ a ∧ a + 8 ≤ s.base.toNat + s.slots.toNat * s.params.line := by
  obtain ⟨j, hj⟩ := List.mem_iff_getElem?.mp h
  obtain ⟨-, -, ha, hlo, hhi⟩ := probesStayInTheirSlot _ _ _ _ _ _ _ j a m hs.params hsl hs.base hj
  exact ⟨ha, hlo, hhi⟩

/-- A mask has one bit, which a word has or has not (40_probe_datapath.md R119). -/
theorem and_mask_ne_zero_iff (v : Word) (b : Nat) : v &&& mask b ≠ 0#64 ↔ v &&& mask b = mask b := by
  have hb : b % 64 < 64 := Nat.mod_lt _ (by decide)
  refine ⟨fun hne => ?_, fun heq => ?_⟩
  · have hv : v.getLsbD (b % 64) = true := by
      by_contra hv
      refine hne (BitVec.eq_of_getLsbD_eq fun j hj => ?_)
      rw [BitVec.getLsbD_and, getLsbD_mask b j hj]
      by_cases hjb : j = b % 64 <;> simp_all
    refine BitVec.eq_of_getLsbD_eq fun j hj => ?_
    rw [BitVec.getLsbD_and, getLsbD_mask b j hj]
    by_cases hjb : j = b % 64 <;> simp_all
  · rw [heq]
    exact fun hz => by simpa [hz] using getLsbD_mask b (b % 64) hb

theorem State.probesOf_and_ne_zero_iff {ptr : Word} {len : BitVec 32} {a : Nat} {m : Word}
    (h : (a, m) ∈ s.probesOf ptr len) (v : Word) : v &&& m ≠ 0#64 ↔ v &&& m = m := by
  obtain ⟨j, -, hj⟩ := List.mem_map.mp h
  obtain ⟨-, rfl⟩ := Prod.mk.inj hj
  exact and_mask_ne_zero_iff v _

theorem State.length_probesOf (ptr : Word) (len : BitVec 32) : (s.probesOf ptr len).length = s.probes.toNat :=
  length_probeList _ _ _ _ _ _ _

/-- A word ORed with another mask keeps the bits it has. -/
theorem or_and_of_and {v m : Word} (h : v &&& m = m) (m' : Word) : (v ||| m') &&& m = m := by
  ext j hj
  have hbit : (v &&& m)[j] = m[j] := by rw [h]
  simp only [BitVec.getElem_and, BitVec.getElem_or] at hbit ⊢
  cases hv : v[j] <;> simp_all

theorem or_and_self_word (v m : Word) : (v ||| m) &&& m = m := by
  ext j hj
  simp only [BitVec.getElem_and, BitVec.getElem_or]
  cases hm : m[j] <;> simp

/-- An atomic OR of one aligned word keeps the bits of every aligned word (20_memory.md R66). -/
theorem State.and_word_of_or {a a' : Nat} {m m' : Word} (hw : t.word a' = s.word a' ||| m')
    (ho : s.SameBytesOutside a' t) (ha' : a' % 8 = 0) (ha : a % 8 = 0) (h : s.word a &&& m = m) :
    t.word a &&& m = m := by
  by_cases heq : a = a'
  · rw [heq, hw]
    exact or_and_of_and (heq ▸ h) m'
  · rw [ho.word (by omega)]
    exact h

/-- n probes of an ADD that was accepted in context c at state s are performed. -/
structure State.AddedUpTo (s : State) (c n : Nat) (u : State) : Prop where
  inv : u.Inv
  setup : s.SameSetup c u
  op : (u.ctx c).h.op = Instr.add.opcode
  lanes : u.LanesOk c
  running : n < s.probes.toNat → (u.ctx c).h.phase = .probe ∧ (u.ctx c).h.i = n
  ended : n = s.probes.toNat → u.EndedWith c .none ∧ (u.ctx c).probesDone = s.probes
  bits : ∀ j a m, j < n → (s.probesOf (s.ctx c).entryPtr (s.ctx c).entryLen)[j]? = some (a, m) → u.word a &&& m = m

/-- A running probe is an entry of the reference probe list of the state its command was accepted in. -/
theorem State.SameSetup.probe (h : s.SameSetup c u) (hu : u.Inv) (hl : u.LanesOk c) (hp : (u.ctx c).h.phase = .probe) :
    (s.probesOf (s.ctx c).entryPtr (s.ctx c).entryLen)[(u.ctx c).h.i]? =
      some (u.probeAddr c (u.ctx c).h.i, u.probeMask c (u.ctx c).h.i) := by
  have hpos := (hu.ctx (State.exists_of_phase (s := u) (c := c) (by simp [hp]))).position
  simp only [Ctx.PositionOk, hp] at hpos
  obtain ⟨-, -, -, hlt, -⟩ := hpos
  rw [← h.probesOf]
  exact runningCommandUsesTheReferenceList u c _ hu hl hp hlt

/-- A turn of the ADD sets one bit more (41_commands.md R147). -/
theorem State.AddedUpTo.turn {n : Nat} {rest : List Input} (h : s.AddedUpTo c n u) (hn : n < s.probes.toNat)
    (hmem : ∀ a m, (a, m) ∈ s.probesOf (s.ctx c).entryPtr (s.ctx c).entryLen → s.memOK a = true)
    (hin : u.inputs = .sequencer c lag :: rest) :
    ∃ t, step u = .next t ∧ t.inputs = rest ∧ s.AddedUpTo c (n + 1) t := by
  obtain ⟨hp, hi⟩ := h.running hn
  have hst := step_turn (i := .add) h.inv (by simp [hp]) h.op hin
  have hu := h.inv.onTurn rest c lag
  have hent := h.setup.probe h.inv h.lanes hp
  have hok : u.memOK (u.probeAddr c (u.ctx c).h.i) = true :=
    (h.setup.memOK _).trans (hmem _ _ (List.mem_of_getElem? hent))
  obtain ⟨t, hx, hword, hout, hframe, -, -, -, -, hpd, hi', -, -, hop, hmore, hlast⟩ :=
    addProbeSetsItsBit _ c lag _ _ _ hu rfl hp rfl rfl rfl hok
  have hslots := (h.inv.config_of_phase (c := c) (by simp [hp])).1
  have hlist : ∀ a m, (a, m) ∈ s.probesOf (s.ctx c).entryPtr (s.ctx c).entryLen → a % 8 = 0 := fun a m hmem =>
    (h.inv.probesOf_inside (m := m) hslots (h.setup.probesOf.symm ▸ hmem)).1
  have hin1 : (u.ctx c).h.i + 1 = u.probes.toNat ↔ n + 1 = s.probes.toNat := by rw [hi, h.setup.probes]
  refine ⟨t, hst.trans hx, hframe.inputs, everyStepKeepsTheInvariant u t h.inv (hst.trans hx),
    h.setup.step_turn hframe, hop.trans h.op, exec_advance_lanesOk_self hu h.lanes (by simp) rfl (.inr hp) hx,
    fun hlt => ⟨(hmore fun heq => absurd (hin1.mp heq) (by omega)).2, hi'.trans (congrArg (· + 1) hi)⟩,
    fun heq => ⟨hlast (hin1.mpr heq), ?_⟩, fun j a m hj hent' => ?_⟩
  · exact BitVec.eq_of_toNat_eq (hpd.trans ((congrArg (· + 1) hi).trans heq))
  · have h1 := hlist _ _ (List.mem_of_getElem? hent)
    have h2 := hlist _ _ (List.mem_of_getElem? hent')
    obtain hlt | rfl := Nat.lt_succ_iff_lt_or_eq.mp hj
    · exact State.and_word_of_or (s := u) hword hout h1 h2 (h.bits j a m hlt hent')
    · rw [← hi, hent] at hent'
      obtain ⟨rfl, rfl⟩ := Prod.mk.inj (Option.some.inj hent')
      exact (congrArg (· &&& _) hword).trans (or_and_self_word _ _)

/-- Two runs of turns one after the other, the second from where the first has ended. -/
theorem run_turns_append {N M : Nat} {P Q : Nat → State → Prop} {lags : List Nat} {rest : List Input}
    (hP : ∀ n, n ≤ N → ∃ u : State, core.run n s = .next u ∧
      u.inputs = (lags.drop n).map (Input.sequencer c) ++ rest ∧ P n u)
    (hPQ : ∀ u, P N u → Q 0 u)
    (hQ : ∀ n u lag rest, n < M → lag ∈ lags → Q n u → u.inputs = .sequencer c lag :: rest →
      ∃ t, step u = .next t ∧ t.inputs = rest ∧ Q (n + 1) t)
    (hlen : N + M ≤ lags.length) {n : Nat} (hn : n ≤ M) :
    ∃ u : State, core.run (N + n) s = .next u ∧ u.inputs = (lags.drop (N + n)).map (Input.sequencer c) ++ rest ∧
      Q n u := by
  obtain ⟨u, hu, hui, hPu⟩ := hP N le_rfl
  obtain ⟨t, ht, hti, hQt⟩ := run_turns
    (fun n u lag rest hn hm => hQ n u lag rest hn (List.mem_of_mem_drop hm)) (hPQ u hPu) hui
    (by rw [List.length_drop]; omega) hn
  rw [List.drop_drop] at hti
  exact ⟨t, run_add N n s u t hu ht, hti, hQt⟩

/-- An ADD with its hashes answered has no probe performed yet. -/
theorem State.HashedUpTo.added (h : s.HashedUpTo c .add (s.params.nh s.probes.toNat) u) (hP : 1 ≤ s.probes.toNat) :
    s.AddedUpTo c 0 u :=
  ⟨h.inv, h.setup, h.op, h.lanes, fun _ => h.probing rfl, fun h0 => absurd hP (by omega),
    fun _ _ _ hj => absurd hj (Nat.not_lt_zero _)⟩

/-- Settles O55: the NH(P) turns of the hash phase, then one probe each. -/
theorem addRunsToDone : Obligations.AddRunsToDone := by
  intro s c lags rest hs hp hr ho hlen hin hhash hmem
  have hP := (hs.config_of_phase (c := c) (by simp [hp])).2.1
  have hhashes := fun n (hn : n ≤ s.params.nh s.probes.toNat) =>
    run_hashes (i := .add) (.inl rfl) hs hp hr ho (by omega) hin hhash hn
  have hprobes := fun n (hn : n ≤ s.probes.toNat) => run_turns_append (Q := s.AddedUpTo c) hhashes
    (fun u hu => hu.1.added hP) (fun n u lag rest hn _ hQ hin => hQ.turn hn hmem hin) hlen.ge hn
  refine ⟨fun n hn => ?_, ?_⟩
  · by_cases hle : n ≤ s.params.nh s.probes.toNat
    · obtain ⟨u, hu, -, -, hb⟩ := hhashes n hle
      exact ⟨u, hu, hb⟩
    · obtain ⟨m, rfl⟩ := Nat.exists_eq_add_of_lt (Nat.not_le.mp hle)
      obtain ⟨u, hu, -, hQ⟩ := hprobes (m + 1) (by omega)
      exact ⟨u, hu, hQ.inv.busy_of_phase (by simp [(hQ.running (by omega)).1])⟩
  · obtain ⟨t, ht, hti, hQ⟩ := hprobes _ le_rfl
    rw [List.drop_eq_nil_of_le hlen.le] at hti
    obtain ⟨hend, hpd⟩ := hQ.ended rfl
    refine ⟨t, ht, hti, hend, hpd, fun a m hmem => ?_⟩
    obtain ⟨j, hj⟩ := List.mem_iff_getElem?.mp hmem
    obtain ⟨hlt, -⟩ := List.getElem?_eq_some_iff.mp hj
    exact hQ.bits j a m (by rwa [State.length_probesOf] at hlt) hj

/-! ### QUERY -/

/-- n turns after its hashes, each load returning the latest value, a QUERY that was accepted in context c at state s
has found n bits set, or it has ended with what memory shows. -/
structure State.QueriedUpTo (s : State) (c n : Nat) (u : State) : Prop where
  inv : u.Inv
  setup : s.SameSetup c u
  bytes : s.SameBytes u
  progress : (n < s.probes.toNat ∧ (u.ctx c).h.op = Instr.query.opcode ∧ u.LanesOk c ∧ (u.ctx c).h.phase = .probe ∧
      (u.ctx c).h.i = n ∧ ∀ j a m, j < n →
        (s.probesOf (s.ctx c).entryPtr (s.ctx c).entryLen)[j]? = some (a, m) → s.word a &&& m = m) ∨
    (u.EndedWith c .none ∧ ((u.ctx c).member = true ↔
      ∀ a m, (a, m) ∈ s.probesOf (s.ctx c).entryPtr (s.ctx c).entryLen → s.word a &&& m = m))

/-- A context that runs nothing keeps the machine as it is in its turn (60_exceptions.md R212). -/
theorem step_turn_idle {rest : List Input} (hp : (s.ctx c).h.phase = .none)
    (hi : s.inputs = .sequencer c lag :: rest) : step s = .next { s with inputs := rest } := by
  rw [step_cons hi]
  exact sequencerStep_idle (s := { s with inputs := rest }) lag (State.running_none hp)

/-- A turn tests one bit more, or finds the command ended (41_commands.md R149, R150). -/
theorem State.QueriedUpTo.turn {n : Nat} {rest : List Input} (h : s.QueriedUpTo c n u)
    (hmem : ∀ a m, (a, m) ∈ s.probesOf (s.ctx c).entryPtr (s.ctx c).entryLen → s.memOK a = true)
    (hin : u.inputs = .sequencer c 0 :: rest) :
    ∃ t, step u = .next t ∧ t.inputs = rest ∧ s.QueriedUpTo c (n + 1) t := by
  obtain ⟨hn, ho, hl, hp, hi, hbits⟩ | ⟨hend, hres⟩ := h.progress
  · have hst := step_turn (i := .query) h.inv (by simp [hp]) ho hin
    have hu := h.inv.onTurn rest c 0
    have hent := h.setup.probe h.inv hl hp
    have hval : u.loadValue c (u.probeAddr c (u.ctx c).h.i) 0 = s.word (u.probeAddr c (u.ctx c).h.i) :=
      State.loadValue_zero.trans (h.bytes.word _)
    have hent' := List.mem_of_getElem? hent
    have hok : u.memOK (u.probeAddr c (u.ctx c).h.i) = true := (h.setup.memOK _).trans (hmem _ _ hent')
    obtain ⟨t, hx, hbytes, -, hframe, -, -, -, -, -, -, -, hop, hzero, hlast, hmore⟩ :=
      queryProbeTestsItsBit _ c 0 _ _ _ _ hu rfl hp ho rfl rfl rfl hok hval
    have hin1 : (u.ctx c).h.i + 1 = u.probes.toNat ↔ n + 1 = s.probes.toNat := by rw [hi, h.setup.probes]
    refine ⟨t, hst.trans hx, hframe.inputs, everyStepKeepsTheInvariant u t h.inv (hst.trans hx),
      h.setup.step_turn hframe, fun x => (hbytes x).trans (h.bytes x), ?_⟩
    by_cases hz : s.word (u.probeAddr c (u.ctx c).h.i) &&& u.probeMask c (u.ctx c).h.i = 0#64
    · obtain ⟨hend, hm⟩ := hzero hz
      exact .inr ⟨hend, fun hm' => absurd (hm.symm.trans hm') Bool.false_ne_true,
        fun hall => absurd hz ((State.probesOf_and_ne_zero_iff hent' _).mpr (hall _ _ hent'))⟩
    · have hset := (State.probesOf_and_ne_zero_iff hent' _).mp hz
      have hbits' : ∀ j a m, j < n + 1 →
          (s.probesOf (s.ctx c).entryPtr (s.ctx c).entryLen)[j]? = some (a, m) → s.word a &&& m = m := by
        intro j a m hj hjent
        obtain hlt | rfl := Nat.lt_succ_iff_lt_or_eq.mp hj
        · exact hbits j a m hlt hjent
        · rw [← hi, hent] at hjent
          obtain ⟨rfl, rfl⟩ := Prod.mk.inj (Option.some.inj hjent)
          exact hset
      by_cases hP : n + 1 = s.probes.toNat
      · obtain ⟨hend, hm⟩ := hlast hz (hin1.mpr hP)
        refine .inr ⟨hend, fun _ a m hmem => ?_, fun _ => hm⟩
        obtain ⟨j, hj⟩ := List.mem_iff_getElem?.mp hmem
        obtain ⟨hlt, -⟩ := List.getElem?_eq_some_iff.mp hj
        rw [State.length_probesOf] at hlt
        exact hbits' j a m (by omega) hj
      · obtain ⟨-, hp', hi', -⟩ := hmore hz fun heq => hP (hin1.mp heq)
        exact .inl ⟨by omega, hop.trans ho, exec_advance_lanesOk_self hu hl (by simp) rfl (.inr hp) hx, hp',
          hi'.trans (congrArg (· + 1) hi), hbits'⟩
  · obtain ⟨hp, -, -⟩ := id hend
    exact ⟨_, step_turn_idle hp hin, rfl, h.inv.withInputs rest, h.setup.withInputs rest, h.bytes, .inr ⟨hend, hres⟩⟩

/-- A QUERY with its hashes answered has tested no bit yet. -/
theorem State.HashedUpTo.queried (h : s.HashedUpTo c .query (s.params.nh s.probes.toNat) u) (hP : 1 ≤ s.probes.toNat) :
    s.QueriedUpTo c 0 u :=
  ⟨h.inv, h.setup, h.bytes,
    .inl ⟨hP, h.op, h.lanes, (h.probing rfl).1, (h.probing rfl).2, fun _ _ _ hj => absurd hj (Nat.not_lt_zero _)⟩⟩

/-- Settles O56: the NH(P) turns of the hash phase, then one bit each until one is clear. -/
theorem queryRunsToDone : Obligations.QueryRunsToDone := by
  intro s c rest hs hp hr ho hin hhash hmem
  have hP := (hs.config_of_phase (c := c) (by simp [hp])).2.1
  rw [← List.map_replicate (f := Input.sequencer c)] at hin
  have hlen := List.length_replicate (n := s.params.nh s.probes.toNat + s.probes.toNat) (a := (0 : Nat))
  have hhashes := fun n (hn : n ≤ s.params.nh s.probes.toNat) =>
    run_hashes (i := .query) (.inr rfl) hs hp hr ho (by omega) hin hhash hn
  have hprobes := run_turns_append (Q := s.QueriedUpTo c) hhashes (fun u hu => hu.1.queried hP)
    (fun n u lag rest _ hlag hQ hin => hQ.turn hmem (List.eq_of_mem_replicate hlag ▸ hin)) hlen.ge le_rfl
  refine ⟨fun n hn => ?_, ?_⟩
  · obtain ⟨u, hu, -, -, hb⟩ := hhashes n hn
    exact ⟨u, hu, hb⟩
  · obtain ⟨t, ht, hti, hQ⟩ := hprobes
    rw [List.drop_eq_nil_of_le hlen.le] at hti
    obtain ⟨hend, hres⟩ := hQ.progress.resolve_left fun h => Nat.lt_irrefl _ h.1
    exact ⟨t, ht, hti, hend, hQ.bytes, hres⟩

/-! ### QUERY of a cleared array -/

/-- A probe's word is a word of the bit array (40_probe_datapath.md R118, R120). -/
theorem State.Inv.exists_probeAddr (hs : s.Inv) (hp : (s.ctx c).h.phase = .probe) (i : Nat) :
    ∃ k, k < s.slots.toNat * s.params.wps ∧ s.clearAddr k = s.probeAddr c i :=
  hs.exists_clearAddr (hs.probeAddr_aligned c i)
    ((Nat.le_add_right _ _).trans (wordAddr_range s.params hs.params s.base _ _ (offset_lt _ _ _)).1)
    (hs.probeAddr_inside hp i)

/-- A probe whose every admitted value is 0 ends its QUERY with MEMBER = 0 (41_commands.md R149). -/
theorem exec_query_zero (hs : s.Inv) (ht : s.turn = .advance c lag) (hp : (s.ctx c).h.phase = .probe)
    (ho : (s.ctx c).h.op = Instr.query.opcode) (hmem : s.memOK (s.probeAddr c (s.ctx c).h.i) = true)
    (hz : s.Shows (s.ctx c).hb.known (s.probeAddr c (s.ctx c).h.i) (· = 0#64)) :
    ∃ t, exec .query s = .next t ∧ s.FrameOf c t ∧ s.SameBytes t ∧ t.EndedWith c .none ∧ (t.ctx c).member = false ∧
      (t.ctx c).probesDone.toNat = (s.ctx c).h.i + 1 := by
  obtain ⟨t, hx, hbytes, -, hframe, -, hpd, -, -, -, -, -, -, hzero, -, -⟩ :=
    queryProbeTestsItsBit s c lag _ _ _ _ hs ht hp ho rfl rfl rfl hmem rfl
  obtain ⟨hend, hm⟩ := hzero (by rw [hz.loadValue lag, BitVec.zero_and])
  exact ⟨t, hx, hframe, hbytes, hend, hm, hpd⟩

/-- Settles O57: the NH(P) turns of the hash phase, then one word, which shows 0. -/
theorem queryOfAClearedArray : Obligations.QueryOfAClearedArray := by
  intro s c lags rest hs hp hr ho hlen hin hhash hzero
  have hhashes := fun n (hn : n ≤ s.params.nh s.probes.toNat) =>
    run_hashes (i := .query) (.inr rfl) hs hp hr ho (by omega) hin hhash hn
  refine ⟨fun n hn => ?_, ?_⟩
  · obtain ⟨u, hu, -, -, hb⟩ := hhashes n hn
    exact ⟨u, hu, hb⟩
  · obtain ⟨u, hu, hui, h, -⟩ := hhashes _ le_rfl
    rw [List.drop_eq_getElem_cons (by omega), List.drop_eq_nil_of_le (by omega)] at hui
    obtain ⟨hp', hi0⟩ := h.probing rfl
    obtain ⟨k, hk, hka⟩ := h.inv.exists_probeAddr hp' (u.ctx c).h.i
    rw [h.setup.slots, h.setup.params] at hk
    rw [h.setup.clearAddr] at hka
    obtain ⟨hok, hpast⟩ := hzero k hk
    have hshows : u.Shows (u.ctx c).hb.known (u.probeAddr c (u.ctx c).h.i) (· = 0#64) := by
      rw [h.known, ← hka]
      exact State.Shows.congr (s := s) hpast (h.bytes.word _) h.writes
    obtain ⟨t, hx, hframe, hbytes, hend, hm, hpd⟩ := exec_query_zero (h.inv.onTurn rest c _) rfl hp' h.op
      ((h.setup.memOK _).trans (hka ▸ hok)) hshows
    have hst := step_turn (i := .query) h.inv (by simp [hp']) h.op hui
    refine ⟨t, run_add _ 1 s u t hu ((run_succ 0 u t).mpr ⟨t, hst.trans hx, rfl⟩), hframe.inputs, hend, hm,
      BitVec.eq_of_toNat_eq (hpd.trans (congrArg (· + 1) hi0)), fun x => (hbytes x).trans (h.bytes x)⟩

end Sys2Proof.Machine
end

section
/-! PROOFS. What one input does, with what it leaves of one context, of memory and its coherence order, and of what the
operands of commands are read from: the run statements are proved by these cases. -/

namespace Sys2Proof.Machine

variable {s t u : State} {c : Nat}

/-- What serving an input does outside hardware reset. -/
inductive State.Effect (s : State) : State → Prop
  | quiet {t : State} (hm : s.SameMachine t) (hw : t.writes = s.writes)
      (hh : t.platform.hashes = s.platform.hashes) (he : t.entries = s.entries) : Effect s t
  | issued {r : HostResp} {tn : Turn} {h c : Nat} {op : BitVec 4} {t : State}
      (hi : ({ s with hostResp := r, turn := tn } : State).Issued h c op t) : Effect s t
  | wrote (r : Reg) (v : Word) : Effect s ((s.writeReg v r).respond .ok)
  | turned {c lag : Nat} {i : Instr} {t : State} (hr : s.running c = some i)
      (hx : exec i (s.onTurn s.inputs c lag) = .next t) : Effect s t
  | stored (h : Nat) (k : BitVec 61) (v : Word) (hout : ¬ (s.en = true ∧ s.inArray (8 * k.toNat) = true)) :
      Effect s (s.hostStored h (8 * k.toNat) v)
  | entryStored (a : Nat) (b : Byte) (hfree : ¬ (s.ctxs.any fun x => x.hashes a) = true) :
      Effect s { s with entries := Memory.store s.entries a b }

theorem hostAccess_effect {h : Nat} {a : Access} (hx : hostAccess h a s = .next t) : s.Effect t := by
  obtain ⟨ids, v, rfl⟩ | ⟨c, v, hw⟩ | ⟨r, v, rfl⟩ := hostAccess_next hx
  · exact .quiet ⟨rfl, rfl, rfl, rfl, rfl, rfl, rfl, rfl, rfl⟩ rfl rfl rfl
  · obtain ⟨tn, op, hi⟩ := cmdWrite_issued hw
    exact .issued hi
  · exact .wrote r v

/-- Every input has one of these effects, or ends in hardware reset. -/
theorem serve_effect {e : Input} (hx : serve e s = .next t) (hr : ¬ t.AtReset) : s.Effect t := by
  have hsame : s.Effect s := .quiet ⟨rfl, rfl, rfl, rfl, rfl, rfl, rfl, rfl, rfl⟩ rfl rfl rfl
  cases e with
  | access h a => exact hostAccess_effect hx
  | sequencer c lag =>
    obtain rfl | ⟨i, -, hrun, hx⟩ := sequencerStep_next hx
    · exact hsame
    · exact .turned hrun hx
  | assertReset l =>
    simp only [serve] at hx
    split at hx
    · cases hx
      exact hsame
    · obtain ⟨u, rfl, -⟩ := assertReset_next hx
      exact absurd State.hwReset_atReset hr
  | hostStore h k v =>
    obtain ⟨hout, rfl | rfl⟩ := hostStore_next hx
    · exact .quiet (s.sameMachine_respond _) rfl rfl rfl
    · exact .stored h k v hout
  | hostLoad h a n lags =>
    obtain ⟨-, ⟨-, rfl⟩ | ⟨-, rfl⟩⟩ := hostReach_next hx <;> exact .quiet (s.sameMachine_respond _) rfl rfl rfl
  | entryStore a b =>
    simp only [serve, entryStore] at hx
    split at hx
    · cases hx
    · cases hx
      exact .entryStored _ b ‹_›
  | releaseReset | sync src dst | portFaults busErrs hashErrs =>
    cases hx
    exact .quiet ⟨rfl, rfl, rfl, rfl, rfl, rfl, rfl, rfl, rfl⟩ rfl rfl rfl

/-! ### One context -/

/-- y is x but for OVERRUN and the entry registers. -/
structure Ctx.Kept (x y : Ctx) : Prop where
  state : y.state = x.state
  member : y.member = x.member
  probesDone : y.probesDone = x.probesDone
  h : y.h = x.h
  hb : y.hb = x.hb

theorem Ctx.Kept.refl (x : Ctx) : x.Kept x := ⟨rfl, rfl, rfl, rfl, rfl⟩

theorem State.kept_of_eq (h : t.ctx c = s.ctx c) : (s.ctx c).Kept (t.ctx c) := h ▸ .refl _

theorem State.kept_setCtx {c2 : Nat} {x : Ctx} (hx : (s.ctx c2).Kept x) (c : Nat) :
    (s.ctx c).Kept ((s.setCtx c2 x).ctx c) := by
  by_cases hc : c2 < s.nctx
  · obtain rfl | hne := eq_or_ne c c2
    · rwa [State.ctx_setCtx_same _ _ _ hc]
    · exact State.kept_of_eq (State.ctx_setCtx_ne _ _ _ _ hne)
  · exact State.kept_of_eq (by rw [State.setCtx_absent _ _ _ (Nat.not_lt.mp hc)])

theorem State.kept_overrun (s : State) (c2 c : Nat) : (s.ctx c).Kept ((s.overrun c2).ctx c) :=
  State.kept_setCtx (x := { s.ctx c2 with overrun := true }) ⟨rfl, rfl, rfl, rfl, rfl⟩ c

theorem State.kept_entryWrite {c2 : Nat} {x : Ctx} (hx : (s.ctx c2).Kept x) (c : Nat) :
    (s.ctx c).Kept ((s.entryWrite c2 x).ctx c) := by
  unfold State.entryWrite
  split
  · exact s.kept_overrun c2 c
  · exact State.kept_setCtx hx c

theorem State.kept_configWrite (hp : u.params = s.params) (hu : u.ctxs = s.ctxs) (c : Nat) :
    (s.ctx c).Kept ((s.configWrite u).ctx c) := by
  unfold State.configWrite
  split
  · exact .refl _
  · exact State.kept_of_eq (State.ctx_congr s u c hp hu)

/-- A write to a register other than CMD (42_register_access.md R172 to R182). -/
theorem State.kept_writeReg (s : State) (v : Word) (r : Reg) (c : Nat) : (s.ctx c).Kept ((s.writeReg v r).ctx c) := by
  cases r with
  | ctrl =>
    simp only [State.writeReg, State.writeCtrl]
    split_ifs <;> exact .refl _
  | base | slots | probes | seed => exact State.kept_configWrite (by rfl) (by rfl) c
  | entryPtr c2 | entryLen c2 => exact State.kept_entryWrite (by constructor <;> rfl) c
  | gstatus | id | param | regenK | cmd _ | status _ | result _ | reserved => exact .refl _

/-- A write to CMD keeps the context, or gives it a new command (41_commands.md R140). -/
theorem State.Issued.kept_or_new {h c2 : Nat} {op : BitVec 4} (hi : s.Issued h c2 op t) (c : Nat) :
    (s.ctx c).Kept (t.ctx c) ∨ ((s.ctx c).state ≠ .busy ∧ (t.ctx c).hb.id = s.nextId) := by
  obtain rfl | hne := eq_or_ne c c2
  · cases id hi with
    | absent hc => exact .inl (.refl _)
    | overrun hc hb => exact .inl (s.kept_overrun c c)
    | accepted hc hb x hhb hst hptr hlen => exact .inr ⟨hb, by rw [hi.hb_eq hc hb]⟩
  · exact .inl (State.kept_of_eq (hi.frame.others c hne))

/-- What an input leaves of a context: it is kept, its command is new, or it was its turn. -/
theorem State.Effect.ctx (hx : s.Effect t) (c : Nat) :
    (s.ctx c).Kept (t.ctx c) ∨ ((s.ctx c).state ≠ .busy ∧ (t.ctx c).hb.id = s.nextId) ∨
      ∃ lag i, s.running c = some i ∧ exec i (s.onTurn s.inputs c lag) = .next t := by
  cases hx with
  | quiet hm hw hh he => exact .inl (State.kept_of_eq (hm.ctx c))
  | issued hi => exact (hi.kept_or_new c).imp_right .inl
  | wrote r v => exact .inl (s.kept_writeReg v r c)
  | @turned c2 lag i t hr hx =>
    obtain rfl | hne := eq_or_ne c c2
    · exact .inr (.inr ⟨lag, i, hr, hx⟩)
    · exact .inl (State.kept_of_eq ((exec_turned rfl hx).frame.others c hne))
  | stored h k v hout => exact .inl (State.kept_of_eq (State.ctx_congr s _ c (by simp) (by simp)))
  | entryStored a b hfree => exact .inl (.refl _)

/-! ### Memory and its coherence order -/

/-- From s to t memory and its coherence order gained one write, of v to the word at a. -/
def State.Wrote (s : State) (a : Nat) (v : Word) (t : State) : Prop :=
  ∃ id, t.mem = (s.writeWord a v id).mem ∧ t.writes = (s.writeWord a v id).writes

/-- A CLEAR's words are aligned, as BASE is (10_state.md R29). -/
theorem State.Inv.clearAddr_aligned (hs : s.Inv) (k : Nat) : s.clearAddr k % 8 = 0 := by
  have hline : 8 ∣ s.params.line := ⟨_, s.params.line_eq hs.params⟩
  have hbase : 8 ∣ s.base.toNat := hline.trans (Nat.dvd_of_mod_eq_zero hs.base)
  unfold State.clearAddr
  omega

/-- What an input stores: nothing, or one word: a host's outside the bit array of an enabled block, the probe of an ADD,
or the next word of a CLEAR (20_memory.md R65, R79). -/
inductive State.Stores (s t : State) : Prop
  | nothing (hm : t.mem = s.mem) (hw : t.writes = s.writes)
  | host {a : Nat} {v : Word} (ha : a % 8 = 0) (hout : ¬ (s.en = true ∧ s.inArray a = true)) (hw : s.Wrote a v t)
  | added (c : Nat) (hp : (s.ctx c).h.phase = .probe) (ho : (s.ctx c).h.op = Instr.add.opcode)
      (hw : s.Wrote (s.probeAddr c (s.ctx c).h.i)
        (s.word (s.probeAddr c (s.ctx c).h.i) ||| s.probeMask c (s.ctx c).h.i) t)
  | cleared (c : Nat) (hp : (s.ctx c).h.phase = .clear) (hw : s.Wrote (s.clearAddr (s.ctx c).h.k) 0#64 t)

theorem State.stores_hashStep (hx : s.hashStep c = .next t) : s.Stores t := by
  obtain ⟨-, rfl⟩ | ⟨-, ⟨-, rfl⟩ | ⟨-, -, rfl⟩⟩ := State.hashStep_next hx <;> exact .nothing rfl rfl

/-- A turn of the command that a context runs. -/
theorem exec_advance_stores {lag : Nat} {i : Instr} (ht : s.turn = .advance c lag) (ho : (s.ctx c).h.op = i.opcode)
    (hx : exec i s = .next t) : s.Stores t := by
  cases i with
  | add =>
    simp only [exec, execAdd, ht, addStep] at hx
    split at hx
    case h_1 => exact State.stores_hashStep hx
    case h_2 hp =>
      obtain ⟨-, rfl⟩ | ⟨-, rfl⟩ := addProbe_next hx
      · exact .nothing rfl rfl
      · exact .added c hp ho ⟨(s.ctx c).hb.id, rfl, rfl⟩
    case h_3 | h_4 => cases hx; exact .nothing rfl rfl
  | query =>
    simp only [exec, execQuery, ht, queryStep] at hx
    split at hx
    case h_1 => exact State.stores_hashStep hx
    case h_2 => obtain ⟨-, rfl⟩ | ⟨-, -, -, rfl⟩ := queryProbe_next hx <;> exact .nothing rfl rfl
    case h_3 | h_4 => cases hx; exact .nothing rfl rfl
  | clear =>
    simp only [exec, execClear, ht, clearStep] at hx
    split at hx
    case h_1 hp =>
      obtain ⟨-, rfl⟩ | ⟨-, rfl⟩ := clearWord_next hx
      · exact .nothing rfl rfl
      · exact .cleared c hp ⟨(s.ctx c).hb.id, rfl, rfl⟩
    case h_2 | h_3 | h_4 => cases hx; exact .nothing rfl rfl

/-- A write to a register other than CMD reaches neither memory nor what the hash unit answers nor the numbering. -/
theorem State.writeReg_rest (s : State) (v : Word) (r : Reg) : (s.writeReg v r).writes = s.writes ∧
    (s.writeReg v r).platform = s.platform ∧ (s.writeReg v r).entries = s.entries ∧
    (s.writeReg v r).nextId = s.nextId := by
  cases r with
  | ctrl =>
    simp only [State.writeReg, State.writeCtrl]
    split_ifs <;> exact ⟨rfl, rfl, rfl, rfl⟩
  | base | slots | probes | seed =>
    simp only [State.writeReg, State.configWrite]
    split_ifs <;> exact ⟨rfl, rfl, rfl, rfl⟩
  | entryPtr c | entryLen c =>
    simp only [State.writeReg, State.entryWrite]
    split_ifs <;> exact ⟨rfl, rfl, rfl, rfl⟩
  | gstatus | id | param | regenK | cmd _ | status _ | result _ | reserved => exact ⟨rfl, rfl, rfl, rfl⟩

theorem State.Effect.stores (hx : s.Effect t) : s.Stores t := by
  cases hx with
  | quiet hm hw hh he => exact .nothing hm.mem hw
  | issued hi => exact .nothing hi.mem_eq hi.writes_eq
  | wrote r v => exact .nothing (s.mem_writeReg v r) (s.writeReg_rest v r).1
  | @turned c lag i t hr hx =>
    cases exec_advance_stores (s := s.onTurn s.inputs c lag) rfl (running_some hr).2 hx with
    | nothing hm hw => exact .nothing hm hw
    | host ha hout hw => exact .host ha hout hw
    | added c hp ho hw => exact .added c hp ho hw
    | cleared c hp hw => exact .cleared c hp hw
  | stored h k v hout =>
    exact .host (v := v) (Nat.mul_mod_right 8 _) hout
      ⟨s.nextId, s.hostStored_mem h _ v, s.hostStored_writes h _ v⟩
  | entryStored a b hfree => exact .nothing rfl rfl

/-- What every admitted value of a word of the bit array meets, it meets after any input while CTRL.EN = 1, if the
stores of the commands that run keep it. -/
theorem State.Shows.stores {known : List Nat} {a : Nat} {P : Word → Prop} (h : s.Shows known a P) (hx : s.Stores t)
    (hs : s.Inv) (hen : s.en = true) (ha : a % 8 = 0) (hin : s.inArray a = true)
    (hadd : ∀ c, (s.ctx c).h.phase = .probe → (s.ctx c).h.op = Instr.add.opcode → ∀ v m, P v → P (v ||| m))
    (hclear : ∀ c, (s.ctx c).h.phase = .clear → P 0#64) : t.Shows known a P := by
  have hwrote : ∀ {a' v}, s.Wrote a' v t → a' % 8 = 0 → (a' = a → P v) → t.Shows known a P := by
    rintro a' v ⟨id, hm, hw⟩ ha' hv
    refine State.Shows.congr (s := s.writeWord a' v id) (h.writeWord id ?_) (State.word_congr _ t hm a) hw
    obtain heq | hne := eq_or_ne a' a
    · exact .inl ⟨heq, hv heq⟩
    · exact .inr (by omega)
  cases hx with
  | nothing hm hw => exact h.congr (s.word_congr t hm a) hw
  | host ha' hout hw => exact hwrote hw ha' fun heq => absurd ⟨hen, heq ▸ hin⟩ hout
  | added c hp ho hw =>
    exact hwrote hw (hs.probeAddr_aligned c _) fun heq => hadd c hp ho _ _ (heq ▸ h.word)
  | cleared c hp hw => exact hwrote hw (hs.clearAddr_aligned _) fun _ => hclear c hp

/-! ### What commands are read from -/

/-- The configuration and the hash unit's answers are the same. -/
structure State.SameConfig (s t : State) : Prop where
  params : t.params = s.params
  base : t.base = s.base
  slots : t.slots = s.slots
  probes : t.probes = s.probes
  seed : t.seed = s.seed
  hashes : t.platform.hashes = s.platform.hashes

theorem State.SameConfig.refl (s : State) : s.SameConfig s := ⟨rfl, rfl, rfl, rfl, rfl, rfl⟩

theorem State.SameConfig.trans (h : s.SameConfig t) (k : t.SameConfig u) : s.SameConfig u :=
  ⟨k.params.trans h.params, k.base.trans h.base, k.slots.trans h.slots, k.probes.trans h.probes, k.seed.trans h.seed,
    k.hashes.trans h.hashes⟩

theorem State.Turned.nextId (h : s.Turned c t) : t.nextId = s.nextId := by
  cases h with
  | idle => rfl
  | failed hp e he => rw [State.finish_nextId]
  | answered hp e x hx => rw [State.setCtx_nextId, State.record_nextId]
  | ored hp x hx => rw [State.setCtx_nextId, State.amoOr_nextId]
  | zeroed hp x hx => rw [State.setCtx_nextId, State.memWrite_nextId]

theorem State.Effect.rest (hx : s.Effect t) : t.platform.hashes = s.platform.hashes ∧ s.nextId ≤ t.nextId := by
  cases hx with
  | quiet hm hw hh he => exact ⟨hh, hm.nextId.ge⟩
  | issued hi =>
    refine ⟨by rw [hi.frame.platform], ?_⟩
    cases hi with
    | absent hc => exact le_rfl
    | overrun hc hb => exact le_rfl
    | accepted hc hb x hhb hst hptr hlen => exact Nat.le_succ _
  | wrote r v =>
    obtain ⟨-, hp, -, hn⟩ := s.writeReg_rest v r
    exact ⟨congrArg Platform.hashes hp, hn.ge⟩
  | @turned c lag i t hr hx =>
    have ht := exec_turned (s := s.onTurn s.inputs c lag) rfl hx
    exact ⟨by rw [ht.frame.platform]; rfl, ht.nextId.ge⟩
  | stored h k v hout =>
    exact ⟨(s.sameHashing_hostStored h _ v).hashes, by rw [State.hostStored_nextId]; exact Nat.le_succ _⟩
  | entryStored a b hfree => exact ⟨rfl, le_rfl⟩

/-- An entry stays while its command runs: a store to it is refused (20_memory.md R80). -/
theorem State.Effect.entry (hx : s.Effect t) (hs : s.Inv)
    (hp : (s.ctx c).h.phase = .hash ∨ (s.ctx c).h.phase = .probe) :
    t.entry (s.ctx c).entryPtr (s.ctx c).entryLen = s.entry (s.ctx c).entryPtr (s.ctx c).entryLen := by
  have hsame : t.entries = s.entries →
      t.entry (s.ctx c).entryPtr (s.ctx c).entryLen = s.entry (s.ctx c).entryPtr (s.ctx c).entryLen := fun he => by
    simp only [State.entry, State.entryByte, he]
  cases hx with
  | quiet hm hw hh he => exact hsame he
  | issued hi => exact hsame hi.frame.entries
  | wrote r v => exact hsame (s.writeReg_rest v r).2.2.1
  | turned hr hx => exact hsame (exec_turned rfl hx).frame.entries
  | stored h k v hout => exact hsame (s.sameHashing_hostStored h _ v).entries
  | entryStored a b hfree =>
    refine s.entry_store_outside a b fun hspan => hfree ?_
    obtain ⟨hc, hb, hop⟩ := hs.probing_of_phase hp
    exact (State.any_hashes_iff a).mpr ⟨c, hc, (Ctx.hashes_iff _ a).mpr ⟨hb, hop, hspan⟩⟩

end Sys2Proof.Machine
end

section
/-! PROOFS. FairRunsEndEveryCommand: a running command has a number of turns left, which each of its turns makes less
and nothing makes more (41_commands.md R153; 70_reset_and_hazards.md R241). -/

namespace Sys2Proof.Machine

variable {s t : State} {c lag : Nat} {i : Instr}

/-- The turns a context's command needs at most, of P probes, on a bit array of W words. -/
def Ctx.turnsLeft (x : Ctx) (P W : Nat) : Nat :=
  match x.h.phase with
  | .none => 0
  | .hash => x.h.nh - x.h.r + P
  | .probe => P - x.h.i
  | .clear => W - x.h.k

def State.turnsLeft (s : State) (c : Nat) : Nat := (s.ctx c).turnsLeft s.probes.toNat s.arrayWords

section
variable {x : Ctx} (P W : Nat)

theorem Ctx.turnsLeft_hash (h : x.h.phase = .hash) : x.turnsLeft P W = x.h.nh - x.h.r + P := by
  simp only [Ctx.turnsLeft, h]

theorem Ctx.turnsLeft_probe (h : x.h.phase = .probe) : x.turnsLeft P W = P - x.h.i := by
  simp only [Ctx.turnsLeft, h]

theorem Ctx.turnsLeft_clear (h : x.h.phase = .clear) : x.turnsLeft P W = W - x.h.k := by
  simp only [Ctx.turnsLeft, h]

end

/-- A command in its hash or probe phase is an ADD or a QUERY. -/
theorem probing_instr {x : Ctx} (h : x.probing) (ho : x.h.op = i.opcode) : i = .add ∨ i = .query := by
  cases i with
  | add => exact .inl rfl
  | query => exact .inr rfl
  | clear => exact absurd ho (probing_not_clear h)

/-- A probe at an address where MemOK does not hold ends its command (60_exceptions.md R200). -/
theorem exec_probe_busErr (hs : s.Inv) (hi : i = .add ∨ i = .query) (ht : s.turn = .advance c lag)
    (hp : (s.ctx c).h.phase = .probe) (hmem : s.memOK (s.probeAddr c (s.ctx c).h.i) = false) :
    exec i s = .next (s.finish c .busErr) := by
  have hr : s.reach (s.probeAddr c (s.ctx c).h.i) = .busErr := by
    rw [hs.reach_probe hp, hmem, if_neg Bool.false_ne_true]
  obtain rfl | rfl := hi
  · rw [exec_add ht hp]
    exact State.memStep_busErr hr
  · rw [exec_query ht hp]
    exact State.memStep_busErr hr

/-- A context that ended is not BUSY. -/
theorem State.EndedWith.not_busy {e : ErrCode} (h : t.EndedWith c e) : (t.ctx c).state ≠ .busy := by
  obtain ⟨-, -, hst⟩ := h
  rw [hst]
  split <;> simp

/-- A hash step takes one turn off: a lane more, or the probe phase begins. -/
theorem exec_hash_turnsLeft (hs : s.Inv) (ht : s.turn = .advance c lag) (hp : (s.ctx c).h.phase = .hash)
    (ho : (s.ctx c).h.op = i.opcode) (hx : exec i s = .next t) (hts : t.Inv) (hb : (t.ctx c).state = .busy) :
    t.turnsLeft c < s.turnsLeft c := by
  have hpos := (hs.ctx (State.exists_of_phase (s := s) (c := c) (by simp [hp]))).position
  simp only [Ctx.PositionOk, hp] at hpos
  obtain ⟨hpr, hnh, hlt, -⟩ := hpos
  obtain ⟨t', hx', hframe, -, -, -, herr, hok⟩ :=
    hashStepOfAddAndQuery s c lag i (probing_instr hpr ho) hs ht hp
  obtain rfl : t = t' := by simpa [hx] using hx'
  rw [State.turnsLeft, State.turnsLeft, hframe.probes, Ctx.turnsLeft_hash _ _ hp]
  obtain ⟨-, hr, -, -, -, -, hmore, hlast⟩ :=
    hok (by rw [← Bool.not_eq_false]; exact fun hno => (herr hno).1.not_busy hb)
  by_cases hl : (s.ctx c).h.r + 1 = (s.ctx c).h.nh
  · obtain ⟨hp', hi0, -⟩ := hlast hl
    rw [Ctx.turnsLeft_probe _ _ hp', hi0]
    omega
  · have hp' := hmore hl
    have hpos' := (hts.ctx (State.exists_of_phase (s := t) (c := c) (by simp [hp']))).position
    simp only [Ctx.PositionOk, hp'] at hpos'
    obtain ⟨-, hnh', -⟩ := hpos'
    rw [Ctx.turnsLeft_hash _ _ hp', hnh', hframe.params, hframe.probes, ← hnh, hr]
    omega

/-- So does a probe step. -/
theorem exec_probe_turnsLeft (hs : s.Inv) (ht : s.turn = .advance c lag) (hp : (s.ctx c).h.phase = .probe)
    (ho : (s.ctx c).h.op = i.opcode) (hx : exec i s = .next t) (hb : (t.ctx c).state = .busy) :
    t.turnsLeft c < s.turnsLeft c := by
  have hok := hs.ctx (State.exists_of_phase (s := s) (c := c) (by simp [hp]))
  have hpos := hok.position
  simp only [Ctx.PositionOk, hp] at hpos
  obtain ⟨hpr, -, -, hlt, -⟩ := hpos
  have hi := probing_instr hpr ho
  have hmem : s.memOK (s.probeAddr c (s.ctx c).h.i) = true := by
    rw [← Bool.not_eq_false]
    intro hno
    rw [exec_probe_busErr hs hi ht hp hno] at hx
    cases hx
    exact (State.endedWith_finish (State.exists_of_phase (s := s) (c := c) (by simp [hp])) (by simp)).1.not_busy hb
  suffices hnext : (t.ctx c).h.phase = .probe ∧ (t.ctx c).h.i = (s.ctx c).h.i + 1 by
    rw [State.turnsLeft, State.turnsLeft, (exec_turned ht hx).frame.probes, Ctx.turnsLeft_probe _ _ hp,
      Ctx.turnsLeft_probe _ _ hnext.1, hnext.2]
    omega
  obtain rfl | rfl := hi
  · obtain ⟨t', hx', -, -, -, -, -, -, -, -, hi', -, -, -, hmore, hlast⟩ :=
      addProbeSetsItsBit s c lag _ _ _ hs ht hp rfl rfl rfl hmem
    obtain rfl : t = t' := by simpa [hx] using hx'
    exact ⟨(hmore fun heq => (hlast heq).not_busy hb).2, hi'⟩
  · obtain ⟨t', hx', -, -, -, -, -, -, -, -, -, -, -, hzero, hlast, hmore⟩ :=
      queryProbeTestsItsBit s c lag _ _ _ _ hs ht hp ho rfl rfl rfl hmem rfl
    obtain rfl : t = t' := by simpa [hx] using hx'
    have hz := fun hz => (hzero hz).1.not_busy hb
    obtain ⟨-, hp', hi', -⟩ := hmore hz fun heq => (hlast hz heq).1.not_busy hb
    exact ⟨hp', hi'⟩

/-- So does a step of CLEAR. -/
theorem exec_clear_turnsLeft (hs : s.Inv) (ht : s.turn = .advance c lag) (hp : (s.ctx c).h.phase = .clear)
    (hx : exec .clear s = .next t) (hb : (t.ctx c).state = .busy) : t.turnsLeft c < s.turnsLeft c := by
  obtain ⟨-, hlt⟩ := hs.clear_position hp
  obtain ⟨hok, hbad⟩ := clearStepZeroesItsWord s c lag _ hs ht hp rfl
  have hmem : s.memOK (s.base.toNat + 8 * (s.ctx c).h.k) = true := by
    rw [← Bool.not_eq_false]
    intro hno
    obtain ⟨t', hx', hend, -⟩ := hbad hno
    obtain rfl : t = t' := by simpa [hx] using hx'
    exact hend.not_busy hb
  obtain ⟨t', hx', -, -, hframe, -, -, -, -, -, hk, -, -, -, -, hmore, hlast⟩ := hok hmem
  obtain rfl : t = t' := by simpa [hx] using hx'
  obtain ⟨-, hp'⟩ := hmore fun heq => (hlast heq).not_busy hb
  have hW : t.arrayWords = s.arrayWords := by
    rw [State.arrayWords, hframe.slots, hframe.params, State.arrayWords]
  rw [State.turnsLeft, State.turnsLeft, Ctx.turnsLeft_clear _ _ hp, Ctx.turnsLeft_clear _ _ hp', hk, hW]
  omega

/-- A turn of the running command takes one off, if the command goes on. -/
theorem exec_turnsLeft (hs : s.Inv) (ht : s.turn = .advance c lag) (hp : (s.ctx c).h.phase ≠ .none)
    (ho : (s.ctx c).h.op = i.opcode) (hx : exec i s = .next t) (hts : t.Inv) (hb : (t.ctx c).state = .busy) :
    t.turnsLeft c < s.turnsLeft c := by
  cases hph : (s.ctx c).h.phase with
  | none => exact absurd hph hp
  | hash => exact exec_hash_turnsLeft hs ht hph ho hx hts hb
  | probe => exact exec_probe_turnsLeft hs ht hph ho hx hb
  | clear =>
    have hop := (hs.clear_position hph).1
    cases i with
    | clear => exact exec_clear_turnsLeft hs ht hph hx hb
    | add | query => exact absurd (ho.symm.trans hop) (by decide)

/-! ### Whatever is served -/

/-- A BUSY context exists. -/
theorem State.exists_of_busy (hb : (s.ctx c).state = .busy) : c < s.nctx := by
  by_contra hc
  rw [State.ctx_absent _ _ (Nat.not_lt.mp hc)] at hb
  cases hb

/-- A BUSY context is in a phase (10_state.md R33). -/
theorem State.Inv.phase_of_busy (hs : s.Inv) (hb : (s.ctx c).state = .busy) : (s.ctx c).h.phase ≠ .none :=
  (hs.ctx (State.exists_of_busy hb)).busy.mp hb

theorem State.AtReset.not_busy (h : s.AtReset) : (s.ctx c).state ≠ .busy := by
  simp [(h.ctx c).state]

/-- A context in a phase runs a command. -/
theorem State.Inv.exists_running (hs : s.Inv) (hp : (s.ctx c).h.phase ≠ .none) :
    ∃ i : Instr, (s.ctx c).h.op = i.opcode := by
  have hpos := (hs.ctx (State.exists_of_phase hp)).position
  have hprobing : (s.ctx c).probing → ∃ i : Instr, (s.ctx c).h.op = i.opcode := fun h => h.elim (⟨_, ·⟩) (⟨_, ·⟩)
  cases hph : (s.ctx c).h.phase with
  | none => exact absurd hph hp
  | hash | probe =>
    simp only [Ctx.PositionOk, hph] at hpos
    exact hprobing hpos.1
  | clear => exact ⟨_, (hs.clear_position hph).1⟩

/-- What commands read from stays through an input while CTRL.EN stays 1 (20_memory.md R81). -/
theorem serve_keepsOperands {e : Input} (hs : s.Inv) (hx : serve e s = .next t) (hen : t.en = true) :
    s.KeepsOperands t :=
  (serve_served hx).keepsOperands (by
    rw [← Bool.not_eq_true]
    exact fun hr => Bool.false_ne_true (((hs.serve hx).reset hr).en.symm.trans hen))

/-- While a context stays BUSY no input gives its command more turns, and its own turn takes one off. -/
theorem serve_turnsLeft {e : Input} (hs : s.Inv) (hx : serve e s = .next t) (hb : (s.ctx c).state = .busy)
    (hbt : (t.ctx c).state = .busy) :
    t.turnsLeft c ≤ s.turnsLeft c ∧ ∀ lag, e = .sequencer c lag → t.turnsLeft c < s.turnsLeft c := by
  have hp := hs.phase_of_busy hb
  have ht := hs.serve hx
  have hturn : ∀ (u : State) lag i, u.Inv → u.turn = .advance c lag → u.ctx c = s.ctx c → (s.ctx c).h.op = i.opcode →
      exec i u = .next t → t.turnsLeft c < u.turnsLeft c := fun u lag i hu hut huc ho hx =>
    exec_turnsLeft hu hut (huc ▸ hp) (huc ▸ ho) hx ht hbt
  refine ⟨?_, ?_⟩
  · obtain hk | ⟨hnb, -⟩ | ⟨lag, i, hrun, hx⟩ := (serve_effect hx fun hr => hr.not_busy hbt).ctx c
    · have hen := hs.en_of_busy (State.exists_of_busy hb) hb
      have hent := ht.en_of_busy (State.exists_of_busy hbt) hbt
      obtain ⟨-, hslots, hprobes, -, hparams⟩ := (serve_keepsOperands hs hx hent).config hen hent
      rw [State.turnsLeft, Ctx.turnsLeft, hk.h, hprobes, State.arrayWords, hslots, hparams]
      exact le_rfl
    · exact absurd hb hnb
    · exact (hturn (s.onTurn s.inputs c lag) lag i (hs.onTurn _ c lag) rfl rfl (running_some hrun).2 hx).le
  · rintro lag rfl
    obtain ⟨i, ho⟩ := hs.exists_running hp
    have hx : exec i (s.onTurn s.inputs c lag) = .next t :=
      (sequencerStep_running lag (hs.released hp) (State.running_eq hp ho)).symm.trans hx
    exact hturn (s.onTurn s.inputs c lag) lag i (hs.onTurn _ c lag) rfl rfl ho hx

/-! ### Under a schedule -/

/-- A step under a schedule serves its input. -/
theorem runUnder_succ {sched : Schedule} {n : Nat} {u : State} (hu : runUnder sched s n = .next u)
    (ht : runUnder sched s (n + 1) = .next t) : serve (sched n) { u with inputs := [] } = .next t := by
  rw [runUnder, hu] at ht
  exact ht

/-- Under a schedule the invariant stays. -/
theorem runUnder_inv {sched : Schedule} (hs : s.Inv) : ∀ {n : Nat} {t : State}, runUnder sched s n = .next t → t.Inv
  | 0, t, ht => by cases ht; exact hs
  | n + 1, t, ht => by
    obtain ⟨u, hu, -⟩ := andThen_next ht
    exact State.Inv.serve ((runUnder_inv hs hu).withInputs []) (runUnder_succ hu ht)

section
variable {sched : Schedule} {n : Nat} (hs : s.Inv)
  (hrun : ∀ m, n ≤ m → ∃ t, runUnder sched s m = .next t ∧ (t.ctx c).state = .busy)
include hs hrun

/-- One step on, the turns left are no more, and fewer after the context's turn. -/
theorem runUnder_turnsLeft {m : Nat} {u : State} (hm : n ≤ m) (hu : runUnder sched s m = .next u) :
    ∃ t, runUnder sched s (m + 1) = .next t ∧ t.turnsLeft c ≤ u.turnsLeft c ∧
      (sched.turnOf c m → t.turnsLeft c < u.turnsLeft c) := by
  obtain ⟨u', hu', hb⟩ := hrun m hm
  obtain rfl : u = u' := by simpa [hu] using hu'
  obtain ⟨t, ht, hbt⟩ := hrun (m + 1) (by omega)
  obtain ⟨hle, hlt⟩ := serve_turnsLeft (s := { u with inputs := [] }) ((runUnder_inv hs hu).withInputs [])
    (runUnder_succ hu ht) hb hbt
  exact ⟨t, ht, hle, fun ⟨lag, hlag⟩ => hlt lag hlag⟩

theorem runUnder_turnsLeft_le {m : Nat} {u : State} (hm : n ≤ m) (hu : runUnder sched s m = .next u) (k : Nat) :
    ∃ t, runUnder sched s (m + k) = .next t ∧ t.turnsLeft c ≤ u.turnsLeft c := by
  induction k with
  | zero => exact ⟨u, hu, le_rfl⟩
  | succ k ih =>
    obtain ⟨v, hv, hvu⟩ := ih
    obtain ⟨t, ht, htv, -⟩ := runUnder_turnsLeft hs hrun (by omega) hv
    exact ⟨t, ht, htv.trans hvu⟩

/-- A context cannot stay BUSY from step n on under a schedule that gives it turns: it runs out of them. -/
theorem not_busy_for_ever (hfair : ∀ m, n ≤ m → ∃ m', m ≤ m' ∧ sched.turnOf c m') : False := by
  have key : ∀ N m u, n ≤ m → runUnder sched s m = .next u → ¬ u.turnsLeft c < N := by
    intro N
    induction N with
    | zero => exact fun _ _ _ _ => Nat.not_lt_zero _
    | succ N ih =>
      intro m u hm hu hN
      obtain ⟨m', hm', hturn⟩ := hfair m hm
      obtain ⟨k, rfl⟩ := Nat.exists_eq_add_of_le hm'
      obtain ⟨v, hv, hvu⟩ := runUnder_turnsLeft_le hs hrun hm hu k
      obtain ⟨t, ht, -, hlt⟩ := runUnder_turnsLeft hs hrun (by omega) hv
      exact ih _ t (by omega) ht (by have := hlt hturn; omega)
  obtain ⟨u, hu, -⟩ := hrun n le_rfl
  exact key _ n u le_rfl hu (Nat.lt_succ_self _)

end

/-- Settles O60: while a context stays BUSY it is enabled, so it gets its turns. -/
theorem fairRunsEndEveryCommand : Obligations.FairRunsEndEveryCommand := by
  intro s sched c hs hfair hrun n
  by_contra hno
  push Not at hno
  have hbusy : ∀ m, n ≤ m → ∃ t, runUnder sched s m = .next t ∧ (t.ctx c).state = .busy := fun m hm => by
    obtain ⟨t, ht⟩ := hrun m
    exact ⟨t, ht, hno m t hm ht⟩
  refine not_busy_for_ever hs hbusy fun m hm => hfair c m fun m' hm' => ?_
  obtain ⟨t, ht, hb⟩ := hbusy m' (hm.trans hm')
  have hp := (runUnder_inv hs ht).phase_of_busy hb
  exact ⟨t, ht, (runUnder_inv hs ht).released hp, hp⟩

end Sys2Proof.Machine
end

section
/-! PROOFS. What a command's number tells of it: a statement about a command that runs, and about one that has ended
DONE, is proved by the command's own turns, since nothing else reaches it (20_memory.md R73; 41_commands.md R146). -/

namespace Sys2Proof.Machine

variable {s s0 t : State} {c id : Nat} {i : Instr}

/-- What the premises of the run statements keep from state s0 on: the invariants, the configuration, and that the
number of the command spoken of is given. -/
structure State.Ambient (s0 : State) (id : Nat) (s : State) : Prop where
  inv : s.Inv
  ids : s.IdsOk
  config : s0.SameConfig s
  fresh : id < s.nextId

theorem State.Ambient.withInputs (h : s0.Ambient id s) (l : List Input) : s0.Ambient id { s with inputs := l } :=
  ⟨h.inv.withInputs l, ⟨h.ids.fresh, h.ids.self, h.ids.past, h.ids.acted⟩,
    ⟨h.config.params, h.config.base, h.config.slots, h.config.probes, h.config.seed, h.config.hashes⟩, h.fresh⟩

/-- A state whose CTRL.EN is 1 is none of hardware reset. -/
theorem State.not_atReset_of_en (h : s.en = true) : ¬ s.AtReset := fun hr => Bool.false_ne_true (hr.en.symm.trans h)

theorem State.Ambient.serve {e : Input} (h : s0.Ambient id s) (hx : serve e s = .next t) (hs : s.en = true)
    (ht : t.en = true) : s0.Ambient id t := by
  obtain ⟨hhashes, hnext⟩ := (serve_effect hx (State.not_atReset_of_en ht)).rest
  obtain ⟨hbase, hslots, hprobes, hseed, hparams⟩ := (serve_keepsOperands h.inv hx ht).config hs ht
  exact ⟨h.inv.serve hx, ((serve_served hx).numbered h.inv h.ids).ids,
    h.config.trans ⟨hparams, hbase, hslots, hprobes, hseed, hhashes⟩, h.fresh.trans_le hnext⟩

/-- While the command numbered id runs in context c, R holds; when it has ended DONE, D holds. -/
def State.Tracks (s : State) (c id : Nat) (R D : State → Prop) : Prop :=
  (s.ctx c).hb.id = id → ((s.ctx c).state = .busy → R s) ∧ ((s.ctx c).state = .done → D s)

/-- A command is followed through an input: what keeps its context keeps R and D, and each of its turns leads from R
to R or, when it ends DONE, to D. -/
theorem State.Tracks.serve {R D : State → Prop} {e : Input} (h : s.Tracks c id R D) (hx : serve e s = .next t)
    (ht : t.en = true) (hs : s.Inv) (hfresh : id < s.nextId)
    (hkept : (s.ctx c).Kept (t.ctx c) → ((s.ctx c).state = .busy → R s → R t) ∧ ((s.ctx c).state = .done → D s → D t))
    (hturn : ∀ lag i, (s.ctx c).hb.id = id → (s.ctx c).state = .busy → (s.ctx c).h.op = i.opcode → R s →
      exec i (s.onTurn s.inputs c lag) = .next t → ((t.ctx c).state = .busy → R t) ∧ ((t.ctx c).state = .done → D t)) :
    t.Tracks c id R D := by
  intro hid
  obtain hk | ⟨-, hnew⟩ | ⟨lag, i, hrun, hx⟩ := (serve_effect hx (State.not_atReset_of_en ht)).ctx c
  · obtain ⟨hR, hD⟩ := h (hk.hb ▸ hid)
    obtain ⟨hR', hD'⟩ := hkept hk
    rw [hk.state]
    exact ⟨fun hb => hR' hb (hR hb), fun hd => hD' hd (hD hd)⟩
  · exact absurd (hnew.symm.trans hid) hfresh.ne'
  · obtain ⟨hp, ho⟩ := running_some hrun
    have hb := hs.busy_of_phase hp
    have hcmd := (exec_turned (s := s.onTurn s.inputs c lag) rfl hx).command.1
    have hid := hcmd.symm.trans hid
    exact hturn lag i hid hb ho ((h hid).1 hb) hx

/-- What every served input keeps, while the premise Q holds before and after, a run keeps. -/
theorem run_keeps_while {P Q : State → Prop} (hin : ∀ s l, P s → P { s with inputs := l })
    (hserve : ∀ s t e, P s → Q s → Q t → serve e s = .next t → P t)
    (hQin : ∀ s l, Q s → Q { s with inputs := l }) {n : Nat} (hs : P s)
    (hQ : ∀ k t, k ≤ n → core.run k s = .next t → Q t) (hrun : core.run n s = .next t) : P t := by
  induction n generalizing s with
  | zero => cases hrun; exact hs
  | succ n ih =>
    obtain ⟨u, hu, hrun⟩ := (run_succ n s t).mp hrun
    have hQs := hQ 0 s (Nat.zero_le _) rfl
    have hQu : ∀ k v, k ≤ n → core.run k u = .next v → Q v := fun k v hk hv =>
      hQ (k + 1) v (by omega) ((run_succ k s v).mpr ⟨u, hu, hv⟩)
    refine ih ?_ hQu hrun
    cases hi : s.inputs with
    | nil =>
      rw [step_nil hi] at hu
      cases hu
      exact hs
    | cons e rest =>
      rw [step_cons hi] at hu
      exact hserve _ u e (hin s rest hs) (hQin s rest hQs) (hQu 0 u (Nat.zero_le _) rfl) hu

end Sys2Proof.Machine
end

section
/-! PROOFS. NoFalseNegatives: the bits an ADD has set are shown to every load that it happens-before, and the QUERY's
probes are the ADD's (41_commands.md R160; 20_memory.md R72, R73, R76). -/

namespace Sys2Proof.Machine

variable {s s0 t : State} {c id lag : Nat} {i : Instr} {L : List (Nat × Word)}

/-! ### The probe list -/

/-- The configuration and the entry's bytes decide the probe list (40_probe_datapath.md R124). -/
theorem State.SameConfig.probesOf (h : s.SameConfig t) {p p' : Word} {l l' : BitVec 32}
    (he : t.entry p' l' = s.entry p l) : t.probesOf p' l' = s.probesOf p l := by
  have hhash : t.hash128 = s.hash128 := by
    funext seed data
    rw [State.hash128, State.hash128, h.hashes]
  rw [State.probesOf, State.probesOf, h.params, hhash, h.seed, h.probes, h.slots, h.base, he]

/-- A running command's probe list stays through an input (20_memory.md R80, R81). -/
theorem serve_probesOf {e : Input} (hs : s.Inv) (hx : serve e s = .next t) (hen : s.en = true) (hent : t.en = true)
    (hp : (s.ctx c).h.phase = .hash ∨ (s.ctx c).h.phase = .probe) :
    t.probesOf (t.ctx c).entryPtr (t.ctx c).entryLen = s.probesOf (s.ctx c).entryPtr (s.ctx c).entryLen := by
  have hx' := serve_effect hx (State.not_atReset_of_en hent)
  have hk := serve_keepsOperands hs hx hent
  obtain ⟨hbase, hslots, hprobes, hseed, hparams⟩ := hk.config hen hent
  obtain ⟨-, hb, -⟩ := hs.probing_of_phase hp
  obtain ⟨hptr, hlen⟩ := hk.entry c hb
  refine State.SameConfig.probesOf ⟨hparams, hbase, hslots, hprobes, hseed, hx'.rest.1⟩ ?_
  rw [hptr, hlen]
  exact hx'.entry hs hp

/-- A BUSY command that is no CLEAR is in its hash or its probe phase. -/
theorem State.Inv.probing_phase (hs : s.Inv) (hb : (s.ctx c).state = .busy)
    (ho : (s.ctx c).h.op ≠ Instr.clear.opcode) : (s.ctx c).h.phase = .hash ∨ (s.ctx c).h.phase = .probe := by
  cases hp : (s.ctx c).h.phase with
  | none => exact absurd hp (hs.phase_of_busy hb)
  | hash => exact .inl rfl
  | probe => exact .inr rfl
  | clear => exact absurd (hs.clear_position hp).1 ho

/-! ### What the ADD's bits show -/

/-- The first n probes of the list are covered for those who know of these commands. -/
def State.CoversFirst (s : State) (known : List Nat) (L : List (Nat × Word)) (n : Nat) : Prop :=
  ∀ j a m, j < n → L[j]? = some (a, m) → s.Covers known a m

/-- No input takes a covered bit back while CTRL.EN = 1 and no CLEAR runs (20_memory.md R76, R79). -/
theorem State.Ambient.coversFirst_serve {e : Input} {ptr : Word} {len : BitVec 32} {known : List Nat} {n : Nat}
    (h : s0.Ambient id s) (h0 : s0.Inv) (hsl : 1 ≤ s0.slots.toNat) (hx : Machine.serve e s = .next t)
    (hen : s.en = true) (hent : t.en = true) (hcl : s.clearActive = false) (hc : s.CoversFirst known (s0.probesOf ptr len) n) :
    t.CoversFirst known (s0.probesOf ptr len) n := by
  intro j a m hj hL
  obtain ⟨ha, hlo, hhi⟩ := h0.probesOf_inside hsl (List.mem_of_getElem? hL)
  have hin : s.inArray a = true := by
    rw [State.inArray_iff, State.arrayBytes, h.config.base, h.config.slots, h.config.params]
    omega
  exact (State.covers_iff_shows.mp (hc j a m hj hL)).stores (serve_effect hx (State.not_atReset_of_en hent)).stores
    h.inv hen ha hin (fun _ _ _ v m' hv => or_and_of_and hv m') fun c hp => absurd hp (h.inv.phase_ne_clear hcl c)

/-- A hash step ends no command DONE, and leaves h.i = 0 (41_commands.md R141). -/
theorem exec_hash_next (hs : s.Inv) (ht : s.turn = .advance c lag) (hp : (s.ctx c).h.phase = .hash)
    (ho : (s.ctx c).h.op = i.opcode) (hx : exec i s = .next t) (hts : t.Inv) :
    (t.ctx c).state ≠ .done ∧ ((t.ctx c).state = .busy → (t.ctx c).h.i = 0) := by
  have hpos := (hs.ctx (State.exists_of_phase (s := s) (c := c) (by simp [hp]))).position
  simp only [Ctx.PositionOk, hp] at hpos
  obtain ⟨t', hx', -, -, -, -, herr, hok⟩ :=
    hashStepOfAddAndQuery s c lag i (probing_instr hpos.1 ho) hs ht hp
  obtain rfl : t = t' := by simpa [hx] using hx'
  cases hh : s.hashOK (seedAt s.params s.seed (s.ctx c).h.r) (s.ctx c).entryPtr (s.ctx c).entryLen with
  | false =>
    obtain ⟨⟨-, -, hst⟩, -⟩ := herr hh
    simp [hst]
  | true =>
    obtain ⟨hst, -, -, -, -, -, hmore, hlast⟩ := hok hh
    refine ⟨by simp [hst], fun _ => ?_⟩
    by_cases hl : (s.ctx c).h.r + 1 = (s.ctx c).h.nh
    · exact (hlast hl).2.1
    · have hp' := hmore hl
      have hpos' := (hts.ctx (State.exists_of_phase (s := t) (c := c) (by simp [hp']))).position
      simp only [Ctx.PositionOk, hp'] at hpos'
      exact hpos'.2.2.2.1

/-- A turn that leaves its context BUSY or DONE has not been met by a bus error. -/
theorem exec_probe_memOK (hs : s.Inv) (ht : s.turn = .advance c lag) (hi : i = .add ∨ i = .query)
    (hp : (s.ctx c).h.phase = .probe) (hx : exec i s = .next t)
    (hst : (t.ctx c).state = .busy ∨ (t.ctx c).state = .done) : s.memOK (s.probeAddr c (s.ctx c).h.i) = true := by
  rw [← Bool.not_eq_false]
  intro hno
  rw [exec_probe_busErr hs hi ht hp hno] at hx
  cases hx
  obtain ⟨⟨-, -, herr⟩, -⟩ :=
    State.endedWith_finish (State.exists_of_phase (s := s) (c := c) (by simp [hp])) (e := .busErr) (by simp)
  simp [herr] at hst

/-! ### The ADD -/

/-- The ADD of the probe list L that runs in context c has its performed probes covered. -/
def State.AddRuns (c : Nat) (known : List Nat) (L : List (Nat × Word)) (s : State) : Prop :=
  (s.ctx c).h.op = Instr.add.opcode ∧ s.probesOf (s.ctx c).entryPtr (s.ctx c).entryLen = L ∧
    s.CoversFirst known L (s.ctx c).h.i

/-- A probe of the ADD covers the next entry of its list for those who know of it (41_commands.md R147). -/
theorem exec_add_covers (hs : s.Inv) (hl : s.LanesOk c) (ht : s.turn = .advance c lag)
    (hp : (s.ctx c).h.phase = .probe) (hx : exec .add s = .next t) {known : List Nat}
    (hk : (s.ctx c).hb.id ∈ known) (hmem : s.memOK (s.probeAddr c (s.ctx c).h.i) = true) {a : Nat} {m : Word}
    (hL : (s.probesOf (s.ctx c).entryPtr (s.ctx c).entryLen)[(s.ctx c).h.i]? = some (a, m)) : t.Covers known a m := by
  have hpos := (hs.ctx (State.exists_of_phase (s := s) (c := c) (by simp [hp]))).position
  simp only [Ctx.PositionOk, hp] at hpos
  rw [runningCommandUsesTheReferenceList s c _ hs hl hp hpos.2.2.2.1] at hL
  obtain ⟨rfl, rfl⟩ := Prod.mk.inj (Option.some.inj hL)
  obtain ⟨t', hx', hword, -, -, -, hwrites, -⟩ := addProbeSetsItsBit s c lag _ _ _ hs ht hp rfl rfl rfl hmem
  obtain rfl : t = t' := by simpa [hx] using hx'
  exact (State.covers_iff_shows.mp (State.covers_writeWord (s := s) _ _ _ _ known hk (or_and_self_word _ _))).congr
    (hword.trans (s.word_writeWord_same _ _ _).symm) hwrites

/-- CTRL.EN is 1 and no CLEAR runs: what State.KeepsFilter asks of each state of a run (41_commands.md R160). -/
def State.Filters (s : State) : Prop := s.en = true ∧ s.clearActive = false

/-- The command numbered id in context c is the ADD of s0's probe list: it has its performed probes covered while it
runs, and all of them when it has ended DONE. -/
structure State.AddTrace (s0 : State) (ptr : Word) (len : BitVec 32) (c id : Nat) (s : State) : Prop where
  ambient : s0.Ambient id s
  lanes : ∀ c, s.LanesOk c
  track : s.Tracks c id (State.AddRuns c [id] (s0.probesOf ptr len))
    (State.CoversFirst · [id] (s0.probesOf ptr len) s0.probes.toNat)

section
variable {ptr : Word} {len : BitVec 32}

/-- A turn of the ADD: a hash step performs no probe, and a probe step covers its own. -/
theorem State.AddRuns.turn (h : s.AddRuns c [id] L) (hs : s.Inv) (hl : ∀ c, s.LanesOk c) (hid : (s.ctx c).hb.id = id)
    (hb : (s.ctx c).state = .busy) (ht : s.turn = .advance c lag) (ho : (s.ctx c).h.op = i.opcode)
    (hx : exec i s = .next t) (hts : t.Inv) (hprobes : t.probesOf (t.ctx c).entryPtr (t.ctx c).entryLen = L)
    (hkeep : ∀ n, s.CoversFirst [id] L n → t.CoversFirst [id] L n) :
    ((t.ctx c).state = .busy → t.AddRuns c [id] L) ∧
      ((t.ctx c).state = .done → t.CoversFirst [id] L s.probes.toNat) := by
  obtain ⟨hop, hL, hcov⟩ := h
  obtain rfl : i = .add := opcode_injective (ho.symm.trans hop)
  have hop' := (exec_turned ht hx).command.2.2.trans hop
  obtain hp | hp := hs.probing_phase hb (by rw [hop]; decide)
  · obtain ⟨hnd, hi0⟩ := exec_hash_next hs ht hp ho hx hts
    refine ⟨fun hbt => ⟨hop', hprobes, fun j a m hj => ?_⟩, fun hd => absurd hd hnd⟩
    rw [hi0 hbt] at hj
    exact absurd hj (Nat.not_lt_zero _)
  · have hcov' : (t.ctx c).state = .busy ∨ (t.ctx c).state = .done → t.CoversFirst [id] L ((s.ctx c).h.i + 1) ∧
        (t.ctx c).h.i = (s.ctx c).h.i + 1 ∧ ((t.ctx c).state = .done → (s.ctx c).h.i + 1 = s.probes.toNat) := by
      intro hst
      have hmem := exec_probe_memOK hs ht (.inl rfl) hp hx hst
      obtain ⟨t', hx', -, -, -, -, -, -, -, -, hi, -, -, -, hmore, -⟩ :=
        addProbeSetsItsBit s c lag _ _ _ hs ht hp rfl rfl rfl hmem
      obtain rfl : t = t' := by simpa [hx] using hx'
      refine ⟨fun j a m hj hent => ?_, hi, fun hd => ?_⟩
      · obtain hlt | rfl := Nat.lt_succ_iff_lt_or_eq.mp hj
        · exact hkeep _ hcov j a m hlt hent
        · exact exec_add_covers hs (hl c) ht hp hx (by simp [hid]) hmem (hL ▸ hent)
      · by_contra hne
        have hbt := (hmore hne).1
        rw [hd] at hbt
        cases hbt
    refine ⟨fun hbt => ?_, fun hd => ?_⟩
    · obtain ⟨hc, hi, -⟩ := hcov' (.inl hbt)
      exact ⟨hop', hprobes, hi ▸ hc⟩
    · obtain ⟨hc, -, hP⟩ := hcov' (.inr hd)
      exact hP hd ▸ hc

theorem State.CoversFirst.congr {known : List Nat} {n : Nat} (h : s.CoversFirst known L n) (hm : t.mem = s.mem)
    (hw : t.writes = s.writes) : t.CoversFirst known L n := fun j a m hj hL =>
  (State.covers_iff_shows.mp (h j a m hj hL)).congr (s.word_congr t hm a) hw

/-- Every input keeps the trace of the ADD. -/
theorem State.AddTrace.serve {e : Input} (h : s0.AddTrace ptr len c id s) (h0 : s0.Inv) (hsl : 1 ≤ s0.slots.toNat)
    (hs : s.Filters) (ht : t.Filters) (hx : Machine.serve e s = .next t) : s0.AddTrace ptr len c id t := by
  obtain ⟨hen, hcl⟩ := hs
  have hkeep := fun n => h.ambient.coversFirst_serve (ptr := ptr) (len := len) (known := [id]) (n := n) h0 hsl hx hen
    ht.1 hcl
  have hinv := h.ambient.inv
  have hprobes := fun (hb : (s.ctx c).state = .busy) (hop : (s.ctx c).h.op = Instr.add.opcode) =>
    serve_probesOf hinv hx hen ht.1 (hinv.probing_phase hb (by rw [hop]; decide))
  refine ⟨h.ambient.serve hx hen ht.1, serve_lanesOk hinv h.lanes hx,
    h.track.serve hx ht.1 hinv h.ambient.fresh (fun hk => ⟨fun hb hR => ?_, fun _ => hkeep _⟩)
      fun lag i hid hb ho hR hx' => ?_⟩
  · obtain ⟨hop, hL, hcov⟩ := hR
    refine ⟨hk.h ▸ hop, (hprobes hb hop).trans hL, ?_⟩
    rw [hk.h]
    exact hkeep _ hcov
  · rw [← h.ambient.config.probes]
    exact State.AddRuns.turn (s := s.onTurn s.inputs c lag) hR (hinv.onTurn _ c lag) h.lanes hid hb rfl ho hx'
      (hinv.serve hx) ((hprobes hb hR.1).trans hR.2.1) hkeep

theorem State.AddTrace.withInputs (h : s0.AddTrace ptr len c id s) (l : List Input) :
    s0.AddTrace ptr len c id { s with inputs := l } :=
  ⟨h.ambient.withInputs l, h.lanes, h.track⟩

/-- An ADD just accepted has no probe performed. -/
theorem State.addTrace_start (hs : s.Inv) (hi : s.IdsOk) (hl : ∀ c, s.LanesOk c) (hp : (s.ctx c).h.phase = .hash)
    (ho : (s.ctx c).h.op = Instr.add.opcode) :
    s.AddTrace (s.ctx c).entryPtr (s.ctx c).entryLen c (s.ctx c).hb.id s := by
  have hc := State.exists_of_phase (s := s) (c := c) (by simp [hp])
  have hok := hs.ctx hc
  have hpos := hok.position
  simp only [Ctx.PositionOk, hp] at hpos
  have hb := hok.state_of_phase hp (by simp)
  refine ⟨⟨hs, hi, .refl s, hi.fresh c hc⟩, hl, fun _ => ⟨fun _ => ⟨ho, rfl, fun j a m hj => ?_⟩, fun hd => ?_⟩⟩
  · rw [hpos.2.2.2.1] at hj
    exact absurd hj (Nat.not_lt_zero _)
  · rw [hb] at hd
    cases hd

/-! ### Between the two commands -/

/-- The probe list of s0's entry stays covered. -/
structure State.CoverTrace (s0 : State) (ptr : Word) (len : BitVec 32) (id : Nat) (s : State) : Prop where
  ambient : s0.Ambient id s
  lanes : ∀ c, s.LanesOk c
  covers : s.CoversFirst [id] (s0.probesOf ptr len) s0.probes.toNat

theorem State.CoverTrace.serve {e : Input} (h : s0.CoverTrace ptr len id s) (h0 : s0.Inv) (hsl : 1 ≤ s0.slots.toNat)
    (hs : s.Filters) (ht : t.Filters) (hx : Machine.serve e s = .next t) : s0.CoverTrace ptr len id t :=
  ⟨h.ambient.serve hx hs.1 ht.1, serve_lanesOk h.ambient.inv h.lanes hx,
    h.ambient.coversFirst_serve h0 hsl hx hs.1 ht.1 hs.2 h.covers⟩

theorem State.CoverTrace.withInputs (h : s0.CoverTrace ptr len id s) (l : List Input) :
    s0.CoverTrace ptr len id { s with inputs := l } :=
  ⟨h.ambient.withInputs l, h.lanes, h.covers⟩

/-! ### The QUERY -/

/-- The QUERY of the probe list L that runs in context c knows of the command numbered ida. -/
def State.QueryRuns (c ida : Nat) (L : List (Nat × Word)) (s : State) : Prop :=
  (s.ctx c).h.op = Instr.query.opcode ∧ s.probesOf (s.ctx c).entryPtr (s.ctx c).entryLen = L ∧
    ida ∈ (s.ctx c).hb.known

/-- The command numbered id in context c is a QUERY of the covered list: ended DONE it has MEMBER = 1. -/
structure State.QueryTrace (s0 : State) (ptr : Word) (len : BitVec 32) (ida c id : Nat) (s : State) : Prop where
  cover : s0.CoverTrace ptr len ida s
  fresh : id < s.nextId
  track : s.Tracks c id (State.QueryRuns c ida (s0.probesOf ptr len)) fun s => (s.ctx c).member = true

/-- A turn of the QUERY: a load of a covered word shows its bit, so only the last probe ends it (41_commands.md R149,
R160). -/
theorem State.QueryRuns.turn {ida : Nat} (h : s.QueryRuns c ida L) (hs : s.Inv) (hl : ∀ c, s.LanesOk c)
    (hb : (s.ctx c).state = .busy) (ht : s.turn = .advance c lag) (ho : (s.ctx c).h.op = i.opcode)
    (hx : exec i s = .next t) (hts : t.Inv) (hprobes : t.probesOf (t.ctx c).entryPtr (t.ctx c).entryLen = L)
    (hcov : s.CoversFirst [ida] L s.probes.toNat) :
    ((t.ctx c).state = .busy → t.QueryRuns c ida L) ∧ ((t.ctx c).state = .done → (t.ctx c).member = true) := by
  obtain ⟨hop, hL, hknown⟩ := h
  obtain rfl : i = .query := opcode_injective (ho.symm.trans hop)
  obtain ⟨-, hk', hop'⟩ := (exec_turned ht hx).command
  refine ⟨fun _ => ⟨hop'.trans hop, hprobes, hk' ▸ hknown⟩, fun hd => ?_⟩
  obtain hp | hp := hs.probing_phase hb (by rw [hop]; decide)
  · exact absurd hd (exec_hash_next hs ht hp ho hx hts).1
  · have hpos := (hs.ctx (State.exists_of_phase (s := s) (c := c) (by simp [hp]))).position
    simp only [Ctx.PositionOk, hp] at hpos
    have hi := hpos.2.2.2.1
    have hent := runningCommandUsesTheReferenceList s c _ hs (hl c) hp hi
    have hshow := (State.covers_iff_shows.mp (hcov _ _ _ hi (hL ▸ hent))).mono
      (known' := (s.ctx c).hb.known) (by simpa using hknown)
    have hset := (State.probesOf_and_ne_zero_iff (List.mem_of_getElem? hent) _).mpr (hshow.loadValue lag)
    obtain ⟨t', hx', -, -, -, -, -, -, -, -, -, -, -, -, hlast, hmore⟩ :=
      queryProbeTestsItsBit s c lag _ _ _ _ hs ht hp hop rfl rfl rfl (exec_probe_memOK hs ht (.inr rfl) hp hx (.inr hd))
        rfl
    obtain rfl : t = t' := by simpa [hx] using hx'
    by_cases hP : (s.ctx c).h.i + 1 = s.probes.toNat
    · exact (hlast hset hP).2
    · have hbt := (hmore hset hP).1
      rw [hd] at hbt
      cases hbt

theorem State.QueryTrace.serve {ida : Nat} {e : Input} (h : s0.QueryTrace ptr len ida c id s) (h0 : s0.Inv)
    (hsl : 1 ≤ s0.slots.toNat) (hs : s.Filters) (ht : t.Filters) (hx : Machine.serve e s = .next t) :
    s0.QueryTrace ptr len ida c id t := by
  have hinv := h.cover.ambient.inv
  have hprobes := fun (hb : (s.ctx c).state = .busy) (hop : (s.ctx c).h.op = Instr.query.opcode) =>
    serve_probesOf hinv hx hs.1 ht.1 (hinv.probing_phase hb (by rw [hop]; decide))
  have hnext := (serve_effect hx (State.not_atReset_of_en ht.1)).rest.2
  refine ⟨h.cover.serve h0 hsl hs ht hx, h.fresh.trans_le hnext,
    h.track.serve hx ht.1 hinv h.fresh (fun hk => ⟨fun hb hR => ?_, fun _ hm => hk.member.trans hm⟩)
      fun lag i _ hb ho hR hx' => ?_⟩
  · obtain ⟨hop, hL, hknown⟩ := hR
    exact ⟨hk.h ▸ hop, (hprobes hb hop).trans hL, hk.hb ▸ hknown⟩
  · refine State.QueryRuns.turn (s := s.onTurn s.inputs c lag) hR (hinv.onTurn _ c lag) h.cover.lanes hb rfl ho hx'
      (hinv.serve hx) ((hprobes hb hR.1).trans hR.2.1) ?_
    have hcov := h.cover.covers
    rw [← h.cover.ambient.config.probes] at hcov
    exact hcov

theorem State.QueryTrace.withInputs {ida : Nat} (h : s0.QueryTrace ptr len ida c id s) (l : List Input) :
    s0.QueryTrace ptr len ida c id { s with inputs := l } :=
  ⟨h.cover.withInputs l, h.fresh, h.track⟩

end

/-- Settles O59: the ADD covers its list, the cover stays, and the QUERY's loads show it. -/
theorem noFalseNegatives : Obligations.NoFalseNegatives := by
  intro s t u v a q n1 n2 n3 hs hi hl hp _ ho ht hid hd hu hpq _ hoq hknown hentry hv hidq hdq hk1 hk2 hk3
  have hsl := (hs.config_of_phase (c := a) (by simp [hp])).1
  have hadd : s.AddTrace (s.ctx a).entryPtr (s.ctx a).entryLen a (s.ctx a).hb.id t :=
    run_keeps_while (Q := State.Filters) (fun _ l h => h.withInputs l)
      (fun _ _ _ h hs' ht' hx => h.serve hs hsl hs' ht' hx) (fun _ _ h => h)
      (State.addTrace_start hs hi hl hp ho) hk1 ht
  have hcover : s.CoverTrace (s.ctx a).entryPtr (s.ctx a).entryLen (s.ctx a).hb.id u :=
    run_keeps_while (Q := State.Filters) (fun _ l h => h.withInputs l)
      (fun _ _ _ h hs' ht' hx => h.serve hs hsl hs' ht' hx) (fun _ _ h => h)
      ⟨hadd.ambient, hadd.lanes, (hadd.track hid).2 hd⟩ hk2 hu
  have hcq := State.exists_of_phase (s := u) (c := q) (by simp [hpq])
  have hbq := (hcover.ambient.inv.ctx hcq).state_of_phase hpq (by simp)
  have hquery : s.QueryTrace (s.ctx a).entryPtr (s.ctx a).entryLen (s.ctx a).hb.id q (u.ctx q).hb.id v :=
    run_keeps_while (Q := State.Filters) (fun _ l h => h.withInputs l)
      (fun _ _ _ h hs' ht' hx => h.serve hs hsl hs' ht' hx) (fun _ _ h => h)
      ⟨hcover, hcover.ambient.ids.fresh q hcq, fun _ =>
        ⟨fun _ => ⟨hoq, hcover.ambient.config.probesOf hentry, hknown⟩, fun hd => by rw [hbq] at hd; cases hd⟩⟩ hk3 hv
  exact (hquery.track hidq).2 hdq

end Sys2Proof.Machine
end

section
/-! PROOFS. QueryAfterClearFindsNothing: the words a CLEAR has zeroed are shown as 0 to every load that it
happens-before, and the QUERY's first probe finds one of them (41_commands.md R162; 20_memory.md R72, R73). -/

namespace Sys2Proof.Machine

variable {s s0 t : State} {c id lag : Nat} {i : Instr} {known : List Nat}

/-! ### What the CLEAR's words show -/

/-- CTRL.EN is 1 and no ADD runs: what State.RunsNoAdd asks of each state of a run (41_commands.md R162). -/
def State.NoAdds (s : State) : Prop :=
  s.en = true ∧ ∀ c, (s.ctx c).state = .busy → (s.ctx c).h.op ≠ Instr.add.opcode

/-- The first n words of s0's bit array show 0 to those who know of these commands. -/
def State.ZeroFirst (s s0 : State) (known : List Nat) (n : Nat) : Prop :=
  ∀ k, k < s0.arrayWords → k < n → s.Shows known (s0.clearAddr k) (· = 0#64)

theorem State.SameConfig.clearAddr (h : s.SameConfig t) (k : Nat) : t.clearAddr k = s.clearAddr k := by
  rw [State.clearAddr, State.clearAddr, h.base]

theorem State.SameConfig.arrayWords (h : s.SameConfig t) : t.arrayWords = s.arrayWords := by
  rw [State.arrayWords, State.arrayWords, h.slots, h.params]

theorem State.SameConfig.onTurn (h : s.SameConfig t) (rest : List Input) (c lag : Nat) :
    s.SameConfig (t.onTurn rest c lag) :=
  ⟨h.params, h.base, h.slots, h.probes, h.seed, h.hashes⟩

/-- No input takes a shown 0 back while CTRL.EN = 1 and no ADD runs: a CLEAR's own stores are of 0
(20_memory.md R76, R79). -/
theorem State.Ambient.zeroFirst_serve {e : Input} {n : Nat} (h : s0.Ambient id s) (hx : Machine.serve e s = .next t)
    (hs : s.NoAdds) (ht : t.NoAdds) (hz : s.ZeroFirst s0 known n) : t.ZeroFirst s0 known n := by
  intro k hk hn
  have haddr := h.config.clearAddr k
  have hk' : k < s.arrayWords := h.config.arrayWords ▸ hk
  exact (hz k hk hn).stores (serve_effect hx (State.not_atReset_of_en ht.1)).stores h.inv hs.1
    (haddr ▸ h.inv.clearAddr_aligned k) (haddr ▸ State.inArray_clearAddr h.inv.params hk')
    (fun c hp ho => absurd ho (hs.2 c (h.inv.busy_of_phase (by simp [hp])))) fun _ _ => rfl

/-! ### The CLEAR -/

/-- A BUSY CLEAR is in its own phase. -/
theorem State.Inv.clear_phase (hs : s.Inv) (hb : (s.ctx c).state = .busy) (ho : (s.ctx c).h.op = Instr.clear.opcode) :
    (s.ctx c).h.phase = .clear := by
  cases hp : (s.ctx c).h.phase with
  | none => exact absurd hp (hs.phase_of_busy hb)
  | clear => rfl
  | hash => exact absurd ho (hs.probing_of_phase (.inl hp)).2.2
  | probe => exact absurd ho (hs.probing_of_phase (.inr hp)).2.2

/-- The CLEAR that runs in context c has the words before its next shown as 0. -/
def State.ClearRuns (s0 : State) (c : Nat) (known : List Nat) (s : State) : Prop :=
  (s.ctx c).h.op = Instr.clear.opcode ∧ s.ZeroFirst s0 known (s.ctx c).h.k

/-- A turn of the CLEAR shows its word as 0 to those who know of it, and only the last word ends it DONE
(41_commands.md R151). -/
theorem exec_clear_next (hs : s.Inv) (ht : s.turn = .advance c lag) (hp : (s.ctx c).h.phase = .clear)
    (hx : exec .clear s = .next t) (hk : (s.ctx c).hb.id ∈ known)
    (hst : (t.ctx c).state = .busy ∨ (t.ctx c).state = .done) :
    t.Shows known (s.clearAddr (s.ctx c).h.k) (· = 0#64) ∧ (t.ctx c).h.k = (s.ctx c).h.k + 1 ∧
      ((t.ctx c).state = .done → (s.ctx c).h.k + 1 = s.arrayWords) := by
  obtain ⟨hok, hno⟩ := clearStepZeroesItsWord s c lag _ hs ht hp rfl
  cases hmem : s.memOK (s.clearAddr (s.ctx c).h.k) with
  | false =>
    obtain ⟨t', hx', ⟨-, -, herr⟩, -⟩ := hno hmem
    obtain rfl : t = t' := by simpa [hx] using hx'
    simp [herr] at hst
  | true =>
    obtain ⟨t', hx', hword, -, -, -, hwrites, -, -, -, hk', -, -, -, -, hmore, -⟩ := hok hmem
    obtain rfl : t = t' := by simpa [hx] using hx'
    refine ⟨(s.shows_writeWord (P := (· = 0#64)) _ hk rfl).congr (hword.trans (s.word_writeWord_same _ _ _).symm)
      hwrites, hk', fun hd => ?_⟩
    by_contra hne
    have hbt := (hmore hne).1
    rw [hd] at hbt
    cases hbt

/-- A turn of the CLEAR shows one word more. -/
theorem State.ClearRuns.turn (h : s0.ClearRuns c [id] s) (hs : s.Inv) (hcfg : s0.SameConfig s)
    (hid : (s.ctx c).hb.id = id) (hb : (s.ctx c).state = .busy) (ht : s.turn = .advance c lag)
    (ho : (s.ctx c).h.op = i.opcode) (hx : exec i s = .next t)
    (hkeep : ∀ n, s.ZeroFirst s0 [id] n → t.ZeroFirst s0 [id] n) :
    ((t.ctx c).state = .busy → s0.ClearRuns c [id] t) ∧
      ((t.ctx c).state = .done → t.ZeroFirst s0 [id] s0.arrayWords) := by
  obtain ⟨hop, hz⟩ := h
  obtain rfl : i = .clear := opcode_injective (ho.symm.trans hop)
  have hnext := exec_clear_next hs ht (hs.clear_phase hb hop) hx (known := [id]) (by simp [hid])
  have hmore : (t.ctx c).state = .busy ∨ (t.ctx c).state = .done → t.ZeroFirst s0 [id] ((s.ctx c).h.k + 1) := by
    intro hst k hk hn
    obtain hlt | rfl := Nat.lt_succ_iff_lt_or_eq.mp hn
    · exact hkeep _ hz k hk hlt
    · exact hcfg.clearAddr _ ▸ (hnext hst).1
  refine ⟨fun hbt => ⟨(exec_turned ht hx).command.2.2.trans hop, ?_⟩, fun hd => ?_⟩
  · rw [(hnext (.inl hbt)).2.1]
    exact hmore (.inl hbt)
  · rw [← hcfg.arrayWords, ← (hnext (.inr hd)).2.2 hd]
    exact hmore (.inr hd)

/-- The command numbered id in context c is a CLEAR of s0's bit array: it has its stored words shown as 0 while it runs,
and every word when it has ended DONE. -/
structure State.ClearTrace (s0 : State) (c id : Nat) (s : State) : Prop where
  ambient : s0.Ambient id s
  track : s.Tracks c id (s0.ClearRuns c [id]) (State.ZeroFirst · s0 [id] s0.arrayWords)

/-- Every input keeps the trace of the CLEAR. -/
theorem State.ClearTrace.serve {e : Input} (h : s0.ClearTrace c id s) (hs : s.NoAdds) (ht : t.NoAdds)
    (hx : Machine.serve e s = .next t) : s0.ClearTrace c id t := by
  have hkeep := fun n => h.ambient.zeroFirst_serve (known := [id]) (n := n) hx hs ht
  have hinv := h.ambient.inv
  refine ⟨h.ambient.serve hx hs.1 ht.1, h.track.serve hx ht.1 hinv h.ambient.fresh
    (fun hk => ⟨fun _ ⟨hop, hz⟩ => ⟨hk.h ▸ hop, ?_⟩, fun _ => hkeep _⟩) fun lag i hid hb ho hR hx' => ?_⟩
  · rw [hk.h]
    exact hkeep _ hz
  · exact State.ClearRuns.turn (s := s.onTurn s.inputs c lag) hR (hinv.onTurn _ c lag)
      (h.ambient.config.onTurn _ c lag) hid hb rfl ho hx' hkeep

theorem State.ClearTrace.withInputs (h : s0.ClearTrace c id s) (l : List Input) :
    s0.ClearTrace c id { s with inputs := l } :=
  ⟨h.ambient.withInputs l, h.track⟩

/-- A CLEAR just accepted has no word stored. -/
theorem State.clearTrace_start (hs : s.Inv) (hi : s.IdsOk) (hp : (s.ctx c).h.phase = .clear) (hk : (s.ctx c).h.k = 0) :
    s.ClearTrace c (s.ctx c).hb.id s := by
  have hb := hs.busy_of_phase (c := c) (by simp [hp])
  refine ⟨⟨hs, hi, .refl s, hi.fresh c (State.exists_of_busy hb)⟩, fun _ =>
    ⟨fun _ => ⟨(hs.clear_position hp).1, fun k _ hn => ?_⟩, fun hd => ?_⟩⟩
  · rw [hk] at hn
    exact absurd hn (Nat.not_lt_zero _)
  · rw [hb] at hd
    cases hd

/-! ### Between the two commands -/

/-- Every word of s0's bit array stays shown as 0. -/
structure State.ZeroTrace (s0 : State) (id : Nat) (s : State) : Prop where
  ambient : s0.Ambient id s
  zeros : s.ZeroFirst s0 [id] s0.arrayWords

theorem State.ZeroTrace.serve {e : Input} (h : s0.ZeroTrace id s) (hs : s.NoAdds) (ht : t.NoAdds)
    (hx : Machine.serve e s = .next t) : s0.ZeroTrace id t :=
  ⟨h.ambient.serve hx hs.1 ht.1, h.ambient.zeroFirst_serve hx hs ht h.zeros⟩

theorem State.ZeroTrace.withInputs (h : s0.ZeroTrace id s) (l : List Input) :
    s0.ZeroTrace id { s with inputs := l } :=
  ⟨h.ambient.withInputs l, h.zeros⟩

/-- Each of the words shows 0 in the state itself. -/
theorem State.ZeroTrace.shows (h : s0.ZeroTrace id s) {k : Nat} (hk : k < s.arrayWords) :
    s.Shows [id] (s.clearAddr k) (· = 0#64) := by
  rw [h.ambient.config.arrayWords] at hk
  rw [h.ambient.config.clearAddr]
  exact h.zeros k hk hk

/-! ### The QUERY -/

/-- The QUERY that runs in context c knows of the command numbered ida and has performed no probe. -/
def State.QueryAtStart (c ida : Nat) (s : State) : Prop :=
  (s.ctx c).h.op = Instr.query.opcode ∧ ida ∈ (s.ctx c).hb.known ∧ (s.ctx c).h.i = 0

/-- The result of context c is the one of a QUERY whose first probe found 0 (41_commands.md R149). -/
def State.FoundNothing (c : Nat) (s : State) : Prop :=
  (s.ctx c).member = false ∧ (s.ctx c).probesDone = 1#8

/-- The command numbered id in context c is a QUERY of the zeroed array: ended DONE it has found nothing. -/
structure State.EmptyQueryTrace (s0 : State) (ida c id : Nat) (s : State) : Prop where
  zero : s0.ZeroTrace ida s
  fresh : id < s.nextId
  track : s.Tracks c id (State.QueryAtStart c ida) (State.FoundNothing c)

/-- A turn of the QUERY: its hash steps perform no probe, and its first probe ends it (41_commands.md R149, R162). -/
theorem State.QueryAtStart.turn {ida : Nat} (h : s.QueryAtStart c ida) (hs : s.Inv) (hb : (s.ctx c).state = .busy)
    (ht : s.turn = .advance c lag) (ho : (s.ctx c).h.op = i.opcode) (hx : exec i s = .next t) (hts : t.Inv)
    (hz : ∀ k, k < s.arrayWords → s.Shows [ida] (s.clearAddr k) (· = 0#64)) :
    ((t.ctx c).state = .busy → t.QueryAtStart c ida) ∧ ((t.ctx c).state = .done → t.FoundNothing c) := by
  obtain ⟨hop, hknown, hi0⟩ := h
  obtain rfl : i = .query := opcode_injective (ho.symm.trans hop)
  obtain hp | hp := hs.probing_phase hb (by rw [hop]; decide)
  · obtain ⟨-, hk', hop'⟩ := (exec_turned ht hx).command
    obtain ⟨hnd, hi⟩ := exec_hash_next hs ht hp ho hx hts
    exact ⟨fun hbt => ⟨hop'.trans hop, hk' ▸ hknown, hi hbt⟩, fun hd => absurd hd hnd⟩
  · have hfound : (t.ctx c).state = .busy ∨ (t.ctx c).state = .done →
        (t.ctx c).state = .done ∧ t.FoundNothing c := by
      intro hst
      obtain ⟨k, hk, hka⟩ := hs.exists_probeAddr hp (s.ctx c).h.i
      have hshow := (hka ▸ hz k hk).mono (known' := (s.ctx c).hb.known) (by simpa using hknown)
      obtain ⟨t', hx', -, -, ⟨-, -, hdone⟩, hm, hpd⟩ :=
        exec_query_zero hs ht hp hop (exec_probe_memOK hs ht (.inr rfl) hp hx hst) hshow
      obtain rfl : t = t' := by simpa [hx] using hx'
      exact ⟨hdone, hm, BitVec.eq_of_toNat_eq (hpd.trans (congrArg (· + 1) hi0))⟩
    refine ⟨fun hbt => ?_, fun hd => (hfound (.inr hd)).2⟩
    have hdone := (hfound (.inl hbt)).1
    rw [hbt] at hdone
    cases hdone

theorem State.EmptyQueryTrace.serve {ida : Nat} {e : Input} (h : s0.EmptyQueryTrace ida c id s) (hs : s.NoAdds)
    (ht : t.NoAdds) (hx : Machine.serve e s = .next t) : s0.EmptyQueryTrace ida c id t := by
  have hinv := h.zero.ambient.inv
  have hnext := (serve_effect hx (State.not_atReset_of_en ht.1)).rest.2
  refine ⟨h.zero.serve hs ht hx, h.fresh.trans_le hnext, h.track.serve hx ht.1 hinv h.fresh
    (fun hk => ⟨fun _ ⟨hop, hknown, hi⟩ => ⟨hk.h ▸ hop, hk.hb ▸ hknown, hk.h ▸ hi⟩,
      fun _ ⟨hm, hpd⟩ => ⟨hk.member.trans hm, hk.probesDone.trans hpd⟩⟩) fun lag i _ hb ho hR hx' => ?_⟩
  exact State.QueryAtStart.turn (s := s.onTurn s.inputs c lag) hR (hinv.onTurn _ c lag) hb rfl ho hx' (hinv.serve hx)
    fun _ => h.zero.shows

theorem State.EmptyQueryTrace.withInputs {ida : Nat} (h : s0.EmptyQueryTrace ida c id s) (l : List Input) :
    s0.EmptyQueryTrace ida c id { s with inputs := l } :=
  ⟨h.zero.withInputs l, h.fresh, h.track⟩

/-- A QUERY just accepted, which knows of the command numbered ida, has performed no probe. -/
theorem State.ZeroTrace.emptyQueryTrace {ida : Nat} (h : s0.ZeroTrace ida s) (hp : (s.ctx c).h.phase = .hash)
    (ho : (s.ctx c).h.op = Instr.query.opcode) (hknown : ida ∈ (s.ctx c).hb.known) :
    s0.EmptyQueryTrace ida c (s.ctx c).hb.id s := by
  have hc := State.exists_of_phase (s := s) (c := c) (by simp [hp])
  have hb := h.ambient.inv.busy_of_phase (c := c) (by simp [hp])
  have hpos := (h.ambient.inv.ctx hc).position
  simp only [Ctx.PositionOk, hp] at hpos
  refine ⟨h, h.ambient.ids.fresh c hc, fun _ => ⟨fun _ => ⟨ho, hknown, hpos.2.2.2.1⟩, fun hd => ?_⟩⟩
  rw [hb] at hd
  cases hd

/-- Settles O58: the CLEAR shows every word as 0, they stay so, and the QUERY's first probe is of one of them. -/
theorem queryAfterClearFindsNothing : Obligations.QueryAfterClearFindsNothing := by
  intro s t u v a q n1 n2 n3 hs hi hp hk ht hid hd hk1
  have hclear : s.ClearTrace a (s.ctx a).hb.id t :=
    run_keeps_while (Q := State.NoAdds) (fun _ l h => h.withInputs l)
      (fun _ _ _ h hs' ht' hx => h.serve hs' ht' hx) (fun _ _ h => h) (State.clearTrace_start hs hi hp hk) hk1 ht
  have hzero : s.ZeroTrace (s.ctx a).hb.id t := ⟨hclear.ambient, (hclear.track hid).2 hd⟩
  refine ⟨fun k hk => (hzero.shows hk).word, fun hu hpq _ hoq hknown hv hidq hdq hk2 hk3 => ?_⟩
  have hzero' : s.ZeroTrace (s.ctx a).hb.id u :=
    run_keeps_while (Q := State.NoAdds) (fun _ l h => h.withInputs l)
      (fun _ _ _ h hs' ht' hx => h.serve hs' ht' hx) (fun _ _ h => h) hzero hk2 hu
  have hquery : s.EmptyQueryTrace (s.ctx a).hb.id q (u.ctx q).hb.id v :=
    run_keeps_while (Q := State.NoAdds) (fun _ l h => h.withInputs l)
      (fun _ _ _ h hs' ht' hx => h.serve hs' ht' hx) (fun _ _ h => h)
      (hzero'.emptyQueryTrace hpq hoq hknown) hk3 hv
  exact (hquery.track hidq).2 hdq

end Sys2Proof.Machine
end

section
/-! PROOFS. IllegalAccessHasNoEffect and ReadReturnsTheRegister: which accesses are legal, and what a legal read
returns and tells its host (42_register_access.md R170, R171). -/

namespace Sys2Proof.Machine

variable {s : State} {h off : Nat} {rest : List Input}

theorem Access.legal_iff (a : Access) (p : Params) : a.legal p = true ↔ a.width = 8 ∧ a.addr.toNat % 8 = 0 ∧
    p.mmioBase.toNat ≤ a.addr.toNat ∧ a.addr.toNat < p.mmioBase.toNat + 4096 := by
  simp [Sys2Proof.Access.legal, and_assoc]

/-- Settles O12: what is not legal is answered before any register is looked at. -/
theorem illegalAccessHasNoEffect : Obligations.IllegalAccessHasNoEffect := by
  intro s h a rest hr hi hbad
  have hl : ¬ a.legal s.params = true := by
    rw [Access.legal_iff]
    omega
  rw [step_cons hi]
  simp only [serve, hostAccess]
  rw [if_neg (by simp [hr]), if_neg hl]
  rfl

/-! ### What a read tells its host -/

/-- A read changes nothing but what its host has observed (42_register_access.md R171). -/
theorem State.observe_withInputs (r : Reg) : ({ s with inputs := rest } : State).observe h r =
    { s with inputs := rest, observed := (s.observe h r).observed } := by
  rw [State.observe_eq, State.observe_eq]
  cases r <;> rfl

theorem State.mem_observed_observe (r : Reg) (e : Nat × Nat) : e ∈ (s.observe h r).observed ↔
    e ∈ s.observed ∨ (e.1 = h ∧ ∃ c, r = .status c ∧ ((s.ctx c).state = .done ∨ (s.ctx c).state = .error) ∧
      (s.ctx c).hb.acted = true ∧ e.2 ∈ (s.ctx c).hb.known) := by
  rw [State.observe_eq]
  cases r
  case status c =>
    rw [State.mem_observed_learn]
    split_ifs with he <;> simp [he, Hb.mem_passed]
  all_goals simp

/-- A read that shows no ended command with an event tells its host nothing (20_memory.md R74). -/
theorem State.observe_eq_self {r : Reg} (hno : ∀ c, r = .status c →
    ¬ (((s.ctx c).state = .done ∨ (s.ctx c).state = .error) ∧ (s.ctx c).hb.acted = true)) :
    s.observe h r = s := by
  cases r
  case status c => exact State.observe_status_eq (hno c rfl)
  all_goals rfl

/-- The offsets of the STATUS registers (10_state.md R23). -/
theorem regAt_eq_status_iff {n c : Nat} (h8 : off % 8 = 0) :
    regAt n off = .status c ↔ c < n ∧ off = 0x100 + 0x40 * c + 0x08 := by
  constructor
  · intro hreg
    have hoff := regOffset_regAt h8 (n := n) (by simp [hreg])
    have hwf := (regAt_wf n off _ hreg).resolve_left (by simp)
    rw [hreg] at hoff
    exact ⟨of_decide_eq_true hwf, (Option.some.inj hoff).symm⟩
  · rintro ⟨hc, rfl⟩
    exact regAt_context hc (by decide)

/-! ### What a read returns -/

/-- A 64-bit read at an aligned offset of the window. -/
theorem step_reads_at (hr : s.inReset = false) (hp : s.params.wf = true) (ho : off < 4096) (h8 : off % 8 = 0)
    (hi : s.inputs = .access h ⟨BitVec.ofNat 64 (s.params.mmioBase.toNat + off), 8, .read⟩ :: rest) :
    step s = .next { s with
      inputs := rest
      observed := (s.observe h (regAt s.nctx off)).observed
      hostResp := .data (s.readReg (regAt s.nctx off)) } := by
  have hoff := (Access.legal_at s.params hp off ho h8 .read).2
  rw [step_access s h off .read rest hr hp ho h8 hi]
  simp only [legalAccess, hoff]
  exact congrArg (fun t => Host.Outcome.next (State.respond t (.data (s.readReg (regAt s.nctx off)))))
    (State.observe_withInputs (regAt s.nctx off))

theorem State.ctrlWord_toNat (s : State) : s.ctrlWord.toNat = s.en.toNat := by
  simp only [State.ctrlWord, toNat_append_eq_add, toNat_bit, BitVec.toNat_ofNat]
  omega

theorem State.probesWord_toNat (s : State) : s.probesWord.toNat = s.probes.toNat := by
  simp only [State.probesWord, toNat_append_eq_add, BitVec.toNat_ofNat]
  omega

theorem Ctx.entryLenWord_toNat (x : Ctx) : x.entryLenWord.toNat = x.entryLen.toNat := by
  simp only [Ctx.entryLenWord, toNat_append_eq_add, BitVec.toNat_ofNat]
  omega

/-- Settles O13: the offset names the register, whose value is returned; STATUS alone tells the host anything. -/
theorem readReturnsTheRegister : Obligations.ReadReturnsTheRegister := by
  intro s h off rest hr hp ho h8 hi
  refine ⟨_, _, step_reads_at hr hp ho h8 hi, fun e => ?_, fun hno => ?_, ?_, ?_, ?_, ?_, ?_, ?_, ?_, ?_, ?_,
    fun h1 h2 => ?_, fun c hc => ⟨?_, ?_, ?_, ?_, ?_, fun h1 h2 => ?_⟩, fun habs => ?_⟩
  · simp only [State.mem_observed_observe, regAt_eq_status_iff h8, and_assoc]
  · rw [State.observe_eq_self fun c hreg => ?_]
    obtain ⟨hc, heq⟩ := (regAt_eq_status_iff h8).mp hreg
    exact hno c hc heq
  · rintro rfl; rfl
  · rintro rfl; rfl
  · rintro rfl; rfl
  · rintro rfl; exact s.ctrlWord_toNat
  · rintro rfl; rfl
  · rintro rfl; rfl
  · rintro rfl; rfl
  · rintro rfl; exact s.probesWord_toNat
  · rintro rfl; rfl
  · rw [regAt_gap _ h1 h2]; rfl
  · rintro rfl; rw [regAt_context hc (by decide)]; rfl
  · rintro rfl; rw [regAt_context hc (by decide)]; rfl
  · rintro rfl; rw [regAt_context hc (by decide)]; rfl
  · rintro rfl; rw [regAt_context hc (by decide)]; rfl
  · rintro rfl
    rw [regAt_context hc (by decide)]
    exact (s.ctx c).entryLenWord_toNat
  · rw [regAt_tail _ (by omega) (by omega)]; rfl
  · rw [regAt_absent habs]; rfl

end Sys2Proof.Machine
end

section
/-! PROOFS. ReadOnlyWritesIgnored, ConfigurationWrites, CtrlWrites, GstatusWriteOneToClear and EntryRegisterWrites:
the step that serves a register write, and which bits of the written word it takes (42_register_access.md R172 to
R181). -/

namespace Sys2Proof.Machine

variable {s : State} {h off c : Nat} {r : Reg} {v v' : Word} {rest : List Input}

/-! ### The step that serves a write -/

/-- A write to a register does not look at the pending inputs. -/
theorem State.writeReg_withInputs (v : Word) (r : Reg) :
    ({ s with inputs := rest } : State).writeReg v r = { s.writeReg v r with inputs := rest } := by
  cases r with
  | ctrl =>
    simp only [State.writeReg, State.writeCtrl, apply_ite (fun t : State => { t with inputs := rest })]
    rfl
  | base | slots | probes | seed =>
    simp only [State.writeReg, State.configWrite, apply_ite (fun t : State => { t with inputs := rest })]
  | entryPtr c | entryLen c =>
    simp only [State.writeReg, State.entryWrite, apply_ite (fun t : State => { t with inputs := rest })]
    rfl
  | gstatus | id | param | regenK | cmd c | status c | result c | reserved => rfl

/-- A 64-bit write at an aligned offset of the window, other than to a CMD register. -/
theorem step_writes_at (hr : s.inReset = false) (hp : s.params.wf = true) (ho : off < 4096) (h8 : off % 8 = 0)
    (hreg : regAt s.nctx off = r) (hcmd : ∀ c, r ≠ .cmd c)
    (hi : s.inputs = .access h ⟨BitVec.ofNat 64 (s.params.mmioBase.toNat + off), 8, .write v⟩ :: rest) :
    step s = .next { s.writeReg v r with inputs := rest, hostResp := .ok } := by
  have hname : regAt ({ s with inputs := rest } : State).nctx
      (Access.offset ⟨BitVec.ofNat 64 (s.params.mmioBase.toNat + off), 8, .write v⟩ s.params) = r := by
    rw [(Access.legal_at s.params hp off ho h8 (.write v)).2]
    exact hreg
  rw [step_access s h off (.write v) rest hr hp ho h8 hi]
  cases r with
  | cmd c => exact absurd rfl (hcmd c)
  | _ =>
    simp only [legalAccess, hname, State.writeReg_withInputs]
    rfl

/-- A global register exists, and has its one offset, whatever NCTX is (10_state.md R23). -/
theorem regAt_regOffset_global (n : Nat) (hr : r.wf 0 = true) :
    ∃ off, regOffset r = some off ∧ off < 4096 ∧ off % 8 = 0 ∧ regAt n off = r := by
  cases r with
  | cmd c | status c | result c | entryPtr c | entryLen c => exact absurd hr (by simp [Reg.wf])
  | reserved => exact absurd hr Bool.false_ne_true
  | id | param | regenK | ctrl | gstatus | base | slots | probes | seed => exact ⟨_, rfl, by decide, rfl, rfl⟩

/-- A 64-bit write to a register that has an offset, other than CMD. -/
theorem step_writes_reg (hr : s.inReset = false) (hp : s.params.wf = true)
    (hloc : ∃ off, regOffset r = some off ∧ off < 4096 ∧ off % 8 = 0 ∧ regAt s.nctx off = r)
    (hcmd : ∀ c, r ≠ .cmd c) (hi : s.writesNext h r v rest) :
    step s = .next { s.writeReg v r with inputs := rest, hostResp := .ok } := by
  obtain ⟨off, hoff, hlt, h8, hreg⟩ := hloc
  simp only [State.writesNext, State.regAddr, hoff, Option.getD_some] at hi
  exact step_writes_at hr hp hlt h8 hreg hcmd hi

/-- A 64-bit write to a global register. -/
theorem step_writes_global (hr : s.inReset = false) (hp : s.params.wf = true) (hg : r.wf 0 = true)
    (hi : s.writesNext h r v rest) :
    step s = .next { s.writeReg v r with inputs := rest, hostResp := .ok } :=
  step_writes_reg hr hp (regAt_regOffset_global _ hg) (fun c hc => absurd (hc ▸ hg) (by simp [Reg.wf])) hi

/-! ### The bits a register takes of the written word -/

theorem getLsbD_eq_decide (v : Word) (i : Nat) : v.getLsbD i = decide (v.toNat / 2 ^ i % 2 = 1) :=
  Nat.testBit_eq_decide_div_mod_eq

/-- The low n bits of a word. -/
theorem extractLsb'_zero_eq (v : Word) (n : Nat) : v.extractLsb' 0 n = BitVec.ofNat n (v.toNat % 2 ^ n) := by
  apply BitVec.eq_of_toNat_eq
  simp

/-- BASE takes the greatest multiple of LINE that is at most the written value (42_register_access.md R174). -/
theorem toNat_alignDown {p : Params} (hp : p.wf = true) (v : Word) :
    (alignDown p v).toNat = v.toNat / p.line * p.line := by
  rw [Params.wf_iff] at hp
  have hlt : 2 ^ p.lineLog2 - 1 < 2 ^ 64 := by
    have : 2 ^ p.lineLog2 ≤ 2 ^ 12 := Nat.pow_le_pow_right (by omega) hp.2.1
    omega
  apply Nat.eq_of_testBit_eq
  intro i
  simp only [alignDown, Params.line, Nat.testBit_mul_two_pow, Nat.testBit_div_two_pow, BitVec.testBit_toNat,
    BitVec.getLsbD_and, BitVec.getLsbD_not, BitVec.getLsbD_ofNat, Nat.testBit_two_pow_sub_one]
  by_cases hi : p.lineLog2 ≤ i
  · by_cases h64 : i < 64
    · simp [hi, h64, Nat.not_lt.mpr hi]
    · simp [hi, h64, BitVec.getLsbD_of_ge v i (Nat.not_lt.mp h64)]
  · simp [hi, Nat.not_le.mp hi]

/-- What differs from a written word only in bits the register reserves does the same (42_register_access.md R172). -/
theorem State.writeReg_congr (hp : s.params.wf = true)
    (hv : (r = .ctrl ∧ v.toNat % 2 = v'.toNat % 2) ∨ (r = .gstatus ∧ v.toNat / 2 % 4 = v'.toNat / 2 % 4) ∨
      (r = .base ∧ v.toNat / s.params.line = v'.toNat / s.params.line) ∨
      (r = .probes ∧ v.toNat % 2 ^ 8 = v'.toNat % 2 ^ 8) ∨
      ∃ c, r = .entryLen c ∧ c < s.nctx ∧ v.toNat % 2 ^ 32 = v'.toNat % 2 ^ 32) :
    s.writeReg v' r = s.writeReg v r := by
  obtain ⟨rfl, hv⟩ | ⟨rfl, hv⟩ | ⟨rfl, hv⟩ | ⟨rfl, hv⟩ | ⟨c, rfl, -, hv⟩ := hv
  · have h0 : v'.getLsbD 0 = v.getLsbD 0 := by simp only [getLsbD_eq_decide, pow_zero, Nat.div_one, hv]
    simp only [State.writeReg, State.writeCtrl, h0]
  · have h1 : v'.getLsbD 1 = v.getLsbD 1 := by
      rw [getLsbD_eq_decide, getLsbD_eq_decide]
      congr 2
      omega
    have h2 : v'.getLsbD 2 = v.getLsbD 2 := by
      rw [getLsbD_eq_decide, getLsbD_eq_decide]
      congr 2
      omega
    simp only [State.writeReg, State.writeGstatus, h1, h2]
  · have hb : alignDown s.params v' = alignDown s.params v :=
      BitVec.eq_of_toNat_eq (by rw [toNat_alignDown hp, toNat_alignDown hp, hv])
    simp only [State.writeReg, hb]
  · simp only [State.writeReg, extractLsb'_zero_eq, hv]
  · simp only [State.writeReg, extractLsb'_zero_eq, hv]

/-! ### Read-only and reserved locations -/

/-- The registers whose writes are ignored (42_register_access.md R172). -/
def Reg.readOnly : Reg → Bool
  | .id | .param | .regenK | .status _ | .result _ | .reserved => true
  | .ctrl | .gstatus | .base | .slots | .probes | .seed | .cmd _ | .entryPtr _ | .entryLen _ => false

theorem State.writeReg_readOnly (hr : Reg.readOnly r = true) : s.writeReg v r = s := by
  cases r with
  | id | param | regenK | status c | result c | reserved => rfl
  | ctrl | gstatus | base | slots | probes | seed | cmd c | entryPtr c | entryLen c => cases hr

/-- Where they are in the window. -/
theorem readOnly_regAt {n : Nat} (h8 : off % 8 = 0)
    (hoff : off < 0x18 ∨ (0x48 ≤ off ∧ off < 0x100) ∨
      (0x100 ≤ off ∧ ((off - 0x100) % 0x40 = 0x08 ∨ (off - 0x100) % 0x40 = 0x10 ∨
        0x28 ≤ (off - 0x100) % 0x40)) ∨ 0x100 + 0x40 * n ≤ off) :
    Reg.readOnly (regAt n off) = true := by
  by_cases habs : 0x100 + 0x40 * n ≤ off
  · rw [regAt_absent habs]; rfl
  obtain hlow | ⟨h1, h2⟩ | ⟨h1, hf⟩ | habs' := hoff
  · obtain rfl | rfl | rfl : off = 0x00 ∨ off = 0x08 ∨ off = 0x10 := by omega
    all_goals rfl
  · rw [regAt_gap n h1 h2]; rfl
  · obtain ⟨c, f, hlt, rfl⟩ := exists_context_offset h1
    have hc : c < n := by omega
    obtain rfl | rfl | hf : f = 0x08 ∨ f = 0x10 ∨ 0x28 ≤ f := by omega
    · rw [regAt_context hc hlt]; rfl
    · rw [regAt_context hc hlt]; rfl
    · rw [regAt_tail n h1 (by omega)]; rfl
  · exact absurd habs' habs

/-- Settles O14: the map names a read-only location there; and a writable register takes the bits it has. -/
theorem readOnlyWritesIgnored : Obligations.ReadOnlyWritesIgnored := by
  refine ⟨fun s h off v rest hr hp ho h8 hi hoff => ?_, fun s s' h r v v' rest hr hp hn hi hs hi' hv => ?_⟩
  · have hro := readOnly_regAt h8 hoff
    rw [step_writes_at hr hp ho h8 rfl (fun c hc => by rw [hc] at hro; cases hro) hi, State.writeReg_readOnly hro]
  · obtain ⟨l, rfl⟩ : ∃ l, s' = { s with inputs := l } := ⟨_, hs⟩
    have hwf : r.wf s.nctx = true ∧ ∀ c, r ≠ .cmd c := by
      obtain ⟨rfl, -⟩ | ⟨rfl, -⟩ | ⟨rfl, -⟩ | ⟨rfl, -⟩ | ⟨c, rfl, hc, -⟩ := hv
      case inr.inr.inr.inr => exact ⟨by simpa [Reg.wf] using hc, by simp⟩
      all_goals exact ⟨rfl, by simp⟩
    have hloc := regAt_regOffset hn hwf.1
    rw [step_writes_reg hr hp hloc hwf.2 hi, step_writes_reg (s := { s with inputs := l }) hr hp hloc hwf.2 hi',
      State.writeReg_withInputs, State.writeReg_congr hp hv]

/-! ### Configuration, CTRL and GSTATUS -/

theorem State.configWrite_locked (hen : s.en = true) (t : State) : s.configWrite t = { s with lockViol := true } :=
  if_pos hen

theorem State.configWrite_open (hen : s.en = false) (t : State) : s.configWrite t = t :=
  if_neg (by simp [hen])

/-- Settles O15: CTRL.EN decides, and each register takes its bits. -/
theorem configurationWrites : Obligations.ConfigurationWrites := by
  intro s h r v rest hr hp hi
  refine ⟨fun hen hcfg => ?_, fun hen => ⟨?_, ?_, ?_, ?_⟩⟩
  · obtain rfl | rfl | rfl | rfl := hcfg <;>
      rw [step_writes_global hr hp rfl hi, State.writeReg, State.configWrite_locked hen]
  · rintro rfl
    have hb : alignDown s.params v = BitVec.ofNat 64 (v.toNat / s.params.line * s.params.line) := by
      rw [← toNat_alignDown hp, BitVec.ofNat_toNat, BitVec.setWidth_eq]
    rw [step_writes_global hr hp rfl hi, State.writeReg, State.configWrite_open hen, hb]
  · rintro rfl
    rw [step_writes_global hr hp rfl hi, State.writeReg, State.configWrite_open hen]
  · rintro rfl
    rw [step_writes_global hr hp rfl hi, State.writeReg, State.configWrite_open hen, extractLsb'_zero_eq]
  · rintro rfl
    rw [step_writes_global hr hp rfl hi, State.writeReg, State.configWrite_open hen]

theorem State.configOK_iff (s : State) : s.configOK = true ↔ 1 ≤ s.slots.toNat ∧ 1 ≤ s.probes.toNat ∧
    s.base.toNat + s.slots.toNat * s.params.line ≤ 2 ^ 64 := by
  simp only [State.configOK, Bool.and_eq_true, decide_eq_true_eq, and_assoc]
  rfl

/-- A write that keeps bit 0 has no effect (42_register_access.md R176). -/
theorem State.writeCtrl_same (hv : v.toNat % 2 = s.en.toNat) : s.writeCtrl v = s := by
  have hbit : v.getLsbD 0 = s.en := by
    rw [getLsbD_eq_decide, pow_zero, Nat.div_one, hv]
    cases s.en <;> rfl
  exact if_pos hbit

/-- The enable (42_register_access.md R177). -/
theorem State.writeCtrl_enable (hen : s.en = false) (hv : v.toNat % 2 = 1) :
    s.writeCtrl v = if s.configOK then { s with en := true } else { s with cfgErr := true } := by
  have hbit : v.getLsbD 0 = true := by simp [getLsbD_eq_decide, hv]
  simp [State.writeCtrl, hbit, hen]

/-- The disable (42_register_access.md R178). -/
theorem State.writeCtrl_disable (hen : s.en = true) (hv : v.toNat % 2 = 0) :
    s.writeCtrl v = if s.anyBusy then { s with lockViol := true } else { s with en := false } := by
  have hbit : v.getLsbD 0 = false := by
    rw [getLsbD_eq_decide, pow_zero, Nat.div_one, hv]
    rfl
  simp only [State.writeCtrl, hbit, hen, Bool.false_eq_true, if_false]

/-- Settles O16: the write's bit 0 decides; a command issued when CTRL.EN = 0 is O21's case. -/
theorem ctrlWrites : Obligations.CtrlWrites := by
  intro s h v rest hr hp hi
  have hstep : step s = .next { s.writeCtrl v with inputs := rest, hostResp := .ok } := step_writes_global hr hp rfl hi
  refine ⟨fun hv => ?_, fun hen hv => ⟨fun hok => ?_, fun hbad => ?_⟩,
    fun hen hv => ⟨fun hidle => ⟨?_, fun h2 c i hc => ?_⟩, fun hbusy => ?_⟩⟩
  · rw [hstep, State.writeCtrl_same hv]
  · rw [hstep, State.writeCtrl_enable hen hv, if_pos ((State.configOK_iff _).mpr hok)]
  · rw [hstep, State.writeCtrl_enable hen hv, if_neg fun hok => hbad ((State.configOK_iff _).mp hok)]
  · rw [hstep, State.writeCtrl_disable hen hv, if_neg fun hb => ?_]
    obtain ⟨c, hc, hb⟩ := (State.anyBusy_iff _).mp hb
    exact hidle c hc hb
  · obtain ⟨t, hx, hend, -⟩ := issueErrorsInOrder
      { s with inputs := rest, hostResp := .ok, en := false, turn := .issue h2 c } h2 c i rfl hc (hidle c hc) (.inl rfl)
    exact ⟨t, hx, hend⟩
  · rw [hstep, State.writeCtrl_disable hen hv, if_pos ((State.anyBusy_iff _).mpr hbusy)]

/-- Settles O17: a sticky bit is bit 1 or 2 of the written word (10_state.md R28). -/
theorem gstatusWriteOneToClear : Obligations.GstatusWriteOneToClear := by
  intro s h v rest hr hp hi
  have hclear : ∀ (b : Bool) (n : Nat), (b && !v.getLsbD n) = if v.toNat / 2 ^ n % 2 = 1 then false else b :=
    fun b n => by
      rw [getLsbD_eq_decide]
      split_ifs with hn <;> simp [hn]
  rw [step_writes_global hr hp rfl hi]
  simp only [State.writeReg, State.writeGstatus, hclear]
  rfl

/-! ### Entry registers -/

theorem State.entryWrite_of_not_busy {x : Ctx} (hb : (s.ctx c).state ≠ .busy) : s.entryWrite c x = s.setCtx c x :=
  if_neg (by simpa [Ctx.busy] using hb)

/-- A write of an entry register of a context that is not BUSY replaces the context, and nothing else. -/
theorem step_writes_entry {x : Ctx} (hr : s.inReset = false) (hp : s.params.wf = true) (hn : nctxWf s.nctx = true)
    (hc : c < s.nctx) (hb : (s.ctx c).state ≠ .busy) (hreg : r = .entryPtr c ∨ r = .entryLen c)
    (hx : s.writeReg v r = s.entryWrite c x)
    (hi : s.writesNext h r v rest) :
    ∃ t, step s = .next t ∧ t.ctx c = x ∧ t = { s with inputs := rest, hostResp := .ok, ctxs := t.ctxs } ∧
      ∀ c2, c2 ≠ c → t.ctx c2 = s.ctx c2 := by
  have hwf : r.wf s.nctx = true ∧ ∀ c, r ≠ .cmd c := by
    obtain rfl | rfl := hreg <;> exact ⟨by simpa [Reg.wf] using hc, by simp⟩
  refine ⟨({ s with inputs := rest, hostResp := .ok } : State).setCtx c x, ?_, ?_, rfl, ?_⟩
  · rw [step_writes_reg hr hp (regAt_regOffset hn hwf.1) hwf.2 hi, hx, State.entryWrite_of_not_busy hb]
    rfl
  · exact State.ctx_setCtx_same _ _ _ hc
  · exact fun c2 hne => State.ctx_setCtx_ne _ _ _ _ hne

/-- Settles O18: CTRL.EN is not asked. -/
theorem entryRegisterWrites : Obligations.EntryRegisterWrites := by
  intro s h c v rest hr hp hn hc hb
  exact ⟨step_writes_entry hr hp hn hc hb (.inl rfl) rfl,
    step_writes_entry hr hp hn hc hb (.inr rfl) (by rw [← extractLsb'_zero_eq]; rfl)⟩

end Sys2Proof.Machine
end

section
/-! PROOFS. StepRunsTheWrittenCommand and BusyWritesOnlySetOverrun: the write to CMD, and what a step keeps of OVERRUN
(42_register_access.md R182, R183). -/

namespace Sys2Proof.Machine

variable {s t u : State} {h c : Nat} {v : Word} {rest : List Input}

/-- A write of a legal word is the issue of its command (30_encoding.md R95). -/
theorem cmdWrite_legal {i : Instr} (hv : decodeWord v = .ok i) :
    cmdWrite h c v s = exec i { s with turn := .issue h c } := by
  simp only [cmdWrite, hv]

/-- Settles O32: the write reaches CMD, and the word is legal. -/
theorem stepRunsTheWrittenCommand : Obligations.StepRunsTheWrittenCommand :=
  fun _ _ _ _ _ _ hr hp hn hc hi hv => (step_writes_cmd hr hp hn hc hi).trans (cmdWrite_legal hv)

/-! ### Writes to a BUSY context -/

/-- A write to the CMD of a BUSY context only sets OVERRUN, its word legal or not. -/
theorem cmdWrite_busy (hc : c < s.nctx) (hb : (s.ctx c).state = .busy) :
    ∃ tn, cmdWrite h c v s = .next (({ s with turn := tn } : State).overrun c) := by
  cases hv : decodeWord v with
  | ok i =>
    refine ⟨.issue h c, ?_⟩
    rw [cmdWrite_legal hv, exec_issue rfl]
    exact State.issue_busy _ h c _ _ _ hc hb
  | error e =>
    refine ⟨s.turn, ?_⟩
    simp only [cmdWrite, hv]
    exact State.issue_busy s h c _ _ _ hc hb

theorem State.entryWrite_of_busy {x : Ctx} (hb : (s.ctx c).state = .busy) : s.entryWrite c x = s.overrun c :=
  if_pos (by simp [Ctx.busy, hb])

/-- The step that serves a write to a register of a BUSY context. -/
theorem step_writes_busy {r : Reg} (hr : s.inReset = false) (hp : s.params.wf = true) (hn : nctxWf s.nctx = true)
    (hc : c < s.nctx) (hb : (s.ctx c).state = .busy) (hreg : r = .cmd c ∨ r = .entryPtr c ∨ r = .entryLen c)
    (hi : s.writesNext h r v rest) :
    ∃ tn, step s = .next (({ s with inputs := rest, hostResp := .ok, turn := tn } : State).overrun c) := by
  have hentry : ∀ x : Ctx, r.wf s.nctx = true → (∀ c, r ≠ .cmd c) → s.writeReg v r = s.entryWrite c x →
      step s = .next (({ s with inputs := rest, hostResp := .ok, turn := s.turn } : State).overrun c) := by
    intro x hwf hcmd hx
    rw [step_writes_reg hr hp (regAt_regOffset hn hwf) hcmd hi, hx, State.entryWrite_of_busy hb]
    rfl
  obtain rfl | rfl | rfl := hreg
  · obtain ⟨tn, htn⟩ := cmdWrite_busy (s := { s with inputs := rest, hostResp := .ok }) (h := h) (v := v) hc hb
    exact ⟨tn, (step_writes_cmd hr hp hn hc hi).trans htn⟩
  · exact ⟨_, hentry _ (by simpa [Reg.wf] using hc) (by simp) rfl⟩
  · exact ⟨_, hentry _ (by simpa [Reg.wf] using hc) (by simp) rfl⟩

/-! ### How long OVERRUN stays -/

/-- No context's OVERRUN is cleared. -/
def State.KeepsOverrun (s t : State) : Prop := ∀ c, (s.ctx c).overrun = true → (t.ctx c).overrun = true

theorem State.KeepsOverrun.refl (s : State) : s.KeepsOverrun s := fun _ h => h

theorem State.keepsOverrun_of_ctx (hctx : ∀ c, t.ctx c = s.ctx c) : s.KeepsOverrun t := fun c h => by rwa [hctx c]

theorem State.keepsOverrun_respond (s : State) (r : HostResp) : s.KeepsOverrun (s.respond r) :=
  State.keepsOverrun_of_ctx fun _ => rfl

theorem State.keepsOverrun_hostStored (s : State) (h a : Nat) (v : Word) : s.KeepsOverrun (s.hostStored h a v) :=
  State.keepsOverrun_of_ctx fun c => State.ctx_congr s _ c (s.hostStored_params h a v) (s.hostStored_ctxs h a v)

/-- A context replaced by one that keeps OVERRUN, after what leaves the contexts alone. -/
theorem State.keepsOverrun_setCtx {x : Ctx} (hu : ∀ c, u.ctx c = s.ctx c)
    (hx : (s.ctx c).overrun = true → x.overrun = true) : s.KeepsOverrun (u.setCtx c x) := by
  by_cases hc : c < u.nctx
  · intro c2 h2
    obtain rfl | hne := eq_or_ne c2 c
    · rw [State.ctx_setCtx_same _ _ _ hc]
      exact hx h2
    · rwa [State.ctx_setCtx_ne _ _ _ _ hne, hu]
  · rw [State.setCtx_absent _ _ _ (Nat.not_lt.mp hc)]
    exact State.keepsOverrun_of_ctx hu

theorem State.keepsOverrun_overrun (s : State) (c : Nat) : s.KeepsOverrun (s.overrun c) :=
  State.keepsOverrun_setCtx (fun _ => rfl) fun _ => rfl

theorem Ctx.finish_overrun (x : Ctx) (e : ErrCode) : (x.finish e).overrun = x.overrun := by
  obtain ⟨-, -, -, -, hover, -⟩ := x.finish_fields e
  exact hover

theorem State.keepsOverrun_finish (s : State) (c : Nat) (e : ErrCode) : s.KeepsOverrun (s.finish c e) :=
  State.keepsOverrun_setCtx (fun _ => rfl) fun h => by rwa [Ctx.finish_overrun]

theorem State.hashStep_keepsOverrun (hx : s.hashStep c = .next t) : s.KeepsOverrun t := by
  obtain ⟨-, rfl⟩ | ⟨-, ⟨-, rfl⟩ | ⟨-, -, rfl⟩⟩ := State.hashStep_next hx
  · exact s.keepsOverrun_finish c _
  · exact State.keepsOverrun_setCtx (s.ctx_record _) id
  · exact State.keepsOverrun_setCtx (s.ctx_record _) id

theorem addProbe_keepsOverrun (hx : addProbe c s = .next t) : s.KeepsOverrun t := by
  obtain ⟨-, rfl⟩ | ⟨-, rfl⟩ := addProbe_next hx
  · exact s.keepsOverrun_finish c _
  · refine State.keepsOverrun_setCtx (s.ctx_amoOr c _ _) fun h => ?_
    split_ifs <;> exact h

theorem queryProbe_keepsOverrun {lag : Nat} (hx : queryProbe c lag s = .next t) : s.KeepsOverrun t := by
  obtain ⟨-, rfl⟩ | ⟨-, y, rfl, rfl⟩ := queryProbe_next hx
  · exact s.keepsOverrun_finish c _
  · refine State.keepsOverrun_setCtx (s.ctx_record _) fun h => ?_
    split_ifs <;> exact h

theorem clearWord_keepsOverrun (hx : clearWord c s = .next t) : s.KeepsOverrun t := by
  obtain ⟨-, rfl⟩ | ⟨-, rfl⟩ := clearWord_next hx
  · exact s.keepsOverrun_finish c _
  · refine State.keepsOverrun_setCtx (s.ctx_memWrite c _ _) fun h => ?_
    split_ifs <;> exact h

/-- A running command's step, its end among them, keeps OVERRUN, so that the host sees it in STATUS. -/
theorem exec_advance_keepsOverrun {lag : Nat} {i : Instr} (ht : s.turn = .advance c lag)
    (hx : exec i s = .next t) : s.KeepsOverrun t := by
  cases i with
  | add =>
    simp only [exec, execAdd, ht, addStep] at hx
    split at hx
    case h_1 => exact State.hashStep_keepsOverrun hx
    case h_2 => exact addProbe_keepsOverrun hx
    case h_3 | h_4 => cases hx; exact .refl _
  | query =>
    simp only [exec, execQuery, ht, queryStep] at hx
    split at hx
    case h_1 => exact State.hashStep_keepsOverrun hx
    case h_2 => exact queryProbe_keepsOverrun hx
    case h_3 | h_4 => cases hx; exact .refl _
  | clear =>
    simp only [exec, execClear, ht, clearStep] at hx
    split at hx
    case h_1 => exact clearWord_keepsOverrun hx
    case h_2 | h_3 | h_4 => cases hx; exact .refl _

theorem State.keepsOverrun_entryWrite {x : Ctx} (hx : x.overrun = (s.ctx c).overrun) :
    s.KeepsOverrun (s.entryWrite c x) := by
  unfold State.entryWrite
  split
  · exact s.keepsOverrun_overrun c
  · exact State.keepsOverrun_setCtx (fun _ => rfl) fun h => hx.trans h

theorem State.keepsOverrun_configWrite (hp : u.params = s.params) (hu : u.ctxs = s.ctxs) :
    s.KeepsOverrun (s.configWrite u) := by
  unfold State.configWrite
  split
  · exact .refl _
  · exact State.keepsOverrun_of_ctx fun c => State.ctx_congr s u c hp hu

theorem State.keepsOverrun_writeReg (s : State) (v : Word) (r : Reg) : s.KeepsOverrun (s.writeReg v r) := by
  cases r with
  | ctrl =>
    simp only [State.writeReg, State.writeCtrl]
    split_ifs <;> exact .refl _
  | base | slots | probes | seed => exact State.keepsOverrun_configWrite (by rfl) (by rfl)
  | entryPtr c | entryLen c => exact State.keepsOverrun_entryWrite (by rfl)
  | gstatus | id | param | regenK | cmd _ | status _ | result _ | reserved => exact .refl _

/-- A write to CMD keeps OVERRUN, or its context has the next command. -/
theorem State.Issued.keepsOverrun_or_new {op : BitVec 4} (hi : s.Issued h c op t) {c2 : Nat}
    (ho : (s.ctx c2).overrun = true) : (t.ctx c2).overrun = true ∨ (t.ctx c2).hb.id = s.nextId := by
  cases id hi with
  | absent hc => exact .inl ho
  | overrun hc hb => exact .inl (s.keepsOverrun_overrun c c2 ho)
  | accepted hc hb x hhb hst hptr hlen =>
    obtain rfl | hne := eq_or_ne c2 c
    · exact .inr (by rw [hi.hb_eq hc hb])
    · exact .inl (by rwa [hi.frame.others c2 hne])

/-- What an input leaves of OVERRUN. -/
theorem serve_keepsOverrun_or_new {e : Input} (hx : serve e s = .next t) (ho : (s.ctx c).overrun = true) :
    (t.ctx c).overrun = true ∨ (t.ctx c).hb.id = s.nextId ∨ t.inReset = true := by
  cases e with
  | access h a =>
    obtain ⟨ids, v, rfl⟩ | ⟨c2, v, hw⟩ | ⟨r, v, rfl⟩ := hostAccess_next hx
    · exact .inl ho
    · obtain ⟨tn, op, hi⟩ := cmdWrite_issued hw
      exact (hi.keepsOverrun_or_new ho).imp_right .inl
    · exact .inl (s.keepsOverrun_writeReg v r c ho)
  | sequencer c2 lag =>
    obtain rfl | ⟨i, -, -, hx⟩ := sequencerStep_next hx
    · exact .inl ho
    · exact .inl (exec_advance_keepsOverrun rfl hx c ho)
  | assertReset l =>
    simp only [serve] at hx
    split at hx
    · cases hx
      exact .inl ho
    · obtain ⟨u, rfl, -⟩ := assertReset_next hx
      exact .inr (.inr rfl)
  | hostStore h k v =>
    obtain ⟨-, rfl | rfl⟩ := hostStore_next hx
    · exact .inl (s.keepsOverrun_respond _ c ho)
    · exact .inl (s.keepsOverrun_hostStored h (8 * k.toNat) v c ho)
  | hostLoad h a n lags =>
    obtain ⟨-, ⟨-, rfl⟩ | ⟨-, rfl⟩⟩ := hostReach_next hx <;> exact .inl (s.keepsOverrun_respond _ c ho)
  | entryStore a b =>
    simp only [serve, entryStore] at hx
    split at hx
    · cases hx
    · cases hx
      exact .inl ho
  | releaseReset | sync src dst | portFaults busErrs hashErrs =>
    cases hx
    exact .inl ho

/-- Settles O19: the step that serves the write, and what every input leaves of OVERRUN. -/
theorem busyWritesOnlySetOverrun : Obligations.BusyWritesOnlySetOverrun := by
  refine ⟨fun s h c r v rest hr hp hn hc hb hreg hi => ?_, fun s t c _ ho hx => ?_⟩
  · obtain ⟨tn, hstep⟩ := step_writes_busy hr hp hn hc hb hreg hi
    exact ⟨_, hstep, State.ctx_setCtx_same _ _ _ hc, fun c2 hne => State.ctx_setCtx_ne _ _ _ _ hne, rfl⟩
  · cases hi : s.inputs with
    | nil =>
      rw [step_nil hi] at hx
      cases hx
      exact .inl ho
    | cons e rest =>
      rw [step_cons hi] at hx
      exact serve_keepsOverrun_or_new (s := { s with inputs := rest }) hx ho

end Sys2Proof.Machine
end

section
/-! PROOFS. BusErrorEndsTheCommand: the step of a turn whose transaction fails is finish with BUS_ERR
(60_exceptions.md R200). -/

namespace Sys2Proof.Machine

variable {s : State} {c lag : Nat} {i : Instr}

/-- A word of a CLEAR at an address where MemOK does not hold ends it (60_exceptions.md R200). -/
theorem exec_clear_busErr (hs : s.Inv) (ht : s.turn = .advance c lag) (hp : (s.ctx c).h.phase = .clear)
    (hmem : s.memOK (s.clearAddr (s.ctx c).h.k) = false) : exec .clear s = .next (s.finish c .busErr) := by
  have hr : s.reach (s.clearAddr (s.ctx c).h.k) = .busErr := by
    rw [hs.reach_clear hp, hmem, if_neg Bool.false_ne_true]
  exact (exec_clear ht hp).trans (State.memStep_busErr hr)

/-- In its probe phase a command is an ADD or a QUERY, with the index of its next probe in PROBES_DONE
(41_commands.md R147, R149). -/
theorem State.Inv.probe_position (hs : s.Inv) (hp : (s.ctx c).h.phase = .probe) :
    (s.ctx c).probing ∧ (s.ctx c).probesDone.toNat = (s.ctx c).h.i := by
  have hpos := (hs.ctx (State.exists_of_phase (s := s) (c := c) (by simp [hp]))).position
  simp only [Ctx.PositionOk, hp] at hpos
  obtain ⟨hprobing, -, -, -, hpd, -⟩ := hpos
  exact ⟨hprobing, hpd⟩

/-- In the phase of CLEAR a command is a CLEAR (41_commands.md R151). -/
theorem State.Inv.op_of_clear_phase (hs : s.Inv) (hp : (s.ctx c).h.phase = .clear) :
    (s.ctx c).h.op = Instr.clear.opcode := by
  have hpos := (hs.ctx (State.exists_of_phase (s := s) (c := c) (by simp [hp]))).position
  simp only [Ctx.PositionOk, hp] at hpos
  obtain ⟨hop, -, -⟩ := hpos
  exact hop

/-- The context whose command ends. -/
theorem State.ctx_finish_same (hc : c < s.nctx) (e : ErrCode) : (s.finish c e).ctx c = (s.ctx c).finish e :=
  State.ctx_setCtx_same _ _ _ hc

/-- Settles O29: in either memory phase the step is finish with BUS_ERR, which leaves all but the outcome. -/
theorem busErrorEndsTheCommand : Obligations.BusErrorEndsTheCommand := by
  intro s c lag a i hs ht ho hat hmem
  have hx : exec i s = .next (s.finish c .busErr) := by
    obtain ⟨hp, rfl⟩ | ⟨hp, rfl⟩ := hat
    · obtain ⟨hprobing, -⟩ := hs.probe_position hp
      exact exec_probe_busErr hs (probing_instr hprobing ho) ht hp hmem
    · obtain rfl : i = .clear := opcode_injective (ho.symm.trans (hs.op_of_clear_phase hp))
      exact exec_clear_busErr hs ht hp hmem
  have hc : c < s.nctx := by
    obtain ⟨hp, -⟩ | ⟨hp, -⟩ := hat <;> exact State.exists_of_phase (by simp [hp])
  obtain ⟨hend, hmember⟩ := State.endedWith_finish hc (e := .busErr) (by simp)
  obtain ⟨-, hop, hhb, hpd, hover, -⟩ := (s.ctx c).finish_fields .busErr
  rw [← State.ctx_finish_same hc] at hop hhb hpd hover
  exact ⟨_, hx, hend, hmember, hpd, fun hp => hpd ▸ (hs.probe_position hp).2, hop, hover, hhb, rfl, rfl, rfl,
    fun _ => rfl, s.frame_finish _ _⟩

end Sys2Proof.Machine
end

section
/-! PROOFS. OutstandingOrPerformedAtReset, ResetKeepsMemory and NothingRunsInReset: what the assertion of reset leaves
of memory, and what is served while it lasts (70_reset_and_hazards.md R230 to R232). -/

namespace Sys2Proof.Machine

variable {s u : State} {c lag : Nat} {i : Instr} {rest : List Input}

/-! ### The assertion of reset -/

/-- Reset that is not asserted yet is asserted now (70_reset_and_hazards.md R231). -/
theorem step_assertReset {l : List (Nat × Nat)} (hr : s.inReset = false)
    (hi : s.inputs = .assertReset l :: rest) : step s = assertReset l { s with inputs := rest } := by
  simp [step_cons hi, serve, hr]

/-- An outstanding hash request is discarded (70_reset_and_hazards.md R231). -/
theorem abandon_hash (lag : Nat) (hp : (s.ctx c).h.phase = .hash) : abandon c lag s = .next s := by
  simp only [abandon, hp]

/-- An outstanding memory transaction is performed as its context's turn, and the context is dropped. -/
theorem abandon_memory (hp : (s.ctx c).h.phase = .probe ∨ (s.ctx c).h.phase = .clear)
    (hx : sequencerStep c lag s = .next u) :
    abandon c lag s = .next (u.setCtx c ((u.ctx c).hwReset u.params)) := by
  obtain hp | hp := hp <;> simp only [abandon, hp, hx, andThen]

/-- Of the step that is performed at the assertion, what it did to memory stays, and the registers are reset all the
same. -/
theorem step_assertReset_performed (hr : s.inReset = false) (hi : s.inputs = .assertReset [(c, lag)] :: rest)
    (hp : (s.ctx c).h.phase = .probe ∨ (s.ctx c).h.phase = .clear) (ho : (s.ctx c).h.op = i.opcode)
    (hx : exec i { s with inputs := rest, turn := .advance c lag } = .next u) :
    ∃ t, step s = .next t ∧ t.mem = u.mem ∧ t.writes = u.writes ∧ t.AtReset ∧ t.inReset = true := by
  have hrun : ({ s with inputs := rest } : State).running c = some i :=
    State.running_eq (by obtain hp | hp := hp <;> exact ne_of_eq_of_ne hp (by simp)) ho
  have hturn := (sequencerStep_running (s := { s with inputs := rest }) lag hr hrun).trans hx
  have habandon := abandon_memory (s := { s with inputs := rest }) hp hturn
  refine ⟨(u.setCtx c ((u.ctx c).hwReset u.params)).hwReset, ?_, rfl, rfl, State.hwReset_atReset, rfl⟩
  rw [step_assertReset hr hi, assertReset, habandon]
  rfl

theorem State.SameBytesOutside.of_mem {t : State} {a : Nat} (h : s.SameBytesOutside a u) (hmem : t.mem = u.mem) :
    s.SameBytesOutside a t := fun x hx => (State.sameBytes_of_mem hmem x).trans (h x hx)

theorem State.word_memWrite_setCtx (s : State) (c a : Nat) (v : Word) (x : Ctx) :
    ((s.memWrite c a v).setCtx c x).word a = v := by
  have hmem : ((s.memWrite c a v).setCtx c x).mem = (s.writeWord a v (s.ctx c).hb.id).mem := rfl
  rw [State.word_congr _ _ hmem, State.word_writeWord_same]

/-- Settles O10: an outstanding memory transaction is the step its command's turn would have taken, so memory is as
after that step; a hash request leaves it as it was. -/
theorem outstandingOrPerformedAtReset : Obligations.OutstandingOrPerformedAtReset := by
  intro s c lag rest hr hi
  refine ⟨fun hp ho hok => ?_, fun hp ho hok => ?_, fun hp ho hok => ?_, fun hp => ?_⟩
  · have hx := exec_add (s := { s with inputs := rest, turn := .advance c lag }) rfl hp
    obtain ⟨t, ht, hmem, -, hreset⟩ := step_assertReset_performed hr hi (.inl hp) ho (hx.trans (addProbe_ok hok))
    exact ⟨t, ht, (State.word_congr _ t hmem _).trans (State.word_amoOr_setCtx ..),
      (addProbe_sameBytesOutside (addProbe_ok hok)).of_mem hmem, hreset⟩
  · have hx := exec_clear (s := { s with inputs := rest, turn := .advance c lag }) rfl hp
    obtain ⟨t, ht, hmem, -, hreset⟩ := step_assertReset_performed hr hi (.inr hp) ho (hx.trans (clearWord_ok hok))
    exact ⟨t, ht, (State.word_congr _ t hmem _).trans (State.word_memWrite_setCtx ..),
      (clearWord_sameBytesOutside (clearWord_ok hok)).of_mem hmem, hreset⟩
  · have hx := exec_query (s := { s with inputs := rest, turn := .advance c lag }) rfl hp
    obtain ⟨t, ht, hmem, hwrites, hreset⟩ :=
      step_assertReset_performed hr hi (.inl hp) ho (hx.trans (queryProbe_ok hok))
    exact ⟨t, ht, State.sameBytes_of_mem hmem, hwrites, hreset⟩
  · have hstep : step s = .next ({ s with inputs := rest } : State).hwReset := by
      rw [step_assertReset hr hi, assertReset, abandon_hash (s := { s with inputs := rest }) lag hp]
      rfl
    exact ⟨_, hstep, State.sameBytes_of_mem rfl, rfl, rfl, State.hwReset_atReset, rfl⟩

/-- Settles O9: with nothing performed the assertion is State.hwReset alone, which keeps memory. -/
theorem resetKeepsMemory : Obligations.ResetKeepsMemory := fun _ _ hr hi =>
  ⟨_, step_assertReset hr hi, State.sameBytes_of_mem rfl, rfl, rfl, rfl, rfl⟩

/-! ### While reset is asserted -/

theorem hostAccess_inReset (h : Nat) (a : Access) (hr : s.inReset = true) :
    hostAccess h a s = .next (s.respond .noAnswer) := if_pos hr

theorem sequencerStep_inReset (c lag : Nat) (hr : s.inReset = true) : sequencerStep c lag s = .next s := if_pos hr

/-- No register is reset by the release: each has its value from the assertion on (log 19). -/
theorem State.AtReset.releaseReset (hs : s.AtReset) :
    ({ s with inputs := rest, inReset := false } : State).AtReset := { hs with }

/-- Settles O11: neither agent acts in reset, and the invariant has the registers at reset until the release. -/
theorem nothingRunsInReset : Obligations.NothingRunsInReset := by
  intro s rest hr
  refine ⟨fun h a hi => ?_, fun c lag hi => ?_, fun hi => ⟨step_cons hi, fun hs => (hs.reset hr).releaseReset⟩⟩
  · exact (step_cons hi).trans (hostAccess_inReset (s := { s with inputs := rest }) h a hr)
  · exact (step_cons hi).trans (sequencerStep_inReset (s := { s with inputs := rest }) c lag hr)

end Sys2Proof.Machine
end
